-- ==== Sys2Proof/Word.lean ====
section
/-! DEFINITION. The words of the block: bytes, 32-bit registers, byte sequences of a fixed length
(00 R13, R14). -/

namespace Sys2Proof

/-- A byte, 00 R13. -/
abbrev Byte := BitVec 8

/-- A 32-bit register value, 00 R14: unsigned, bit 0 least significant. -/
abbrev Word32 := BitVec 32

/-- A byte sequence, 00 R13: index 0 is the first byte. -/
abbrev Bytes := List Byte

/-- The byte sequences of exactly `n` bytes, the spec's BytesN (00 R13). -/
abbrev BytesN (n : Nat) := { l : Bytes // l.length = n }

end Sys2Proof
end

