-- ==== Sys2Proof/Config.lean ====
section
/-! DEFINITION. What is fixed for the life of the block and is not state (10 R21): the fixed
parameters of 00 R9, the open parameters of 00 R10 and the free draws of the bytes nothing has
written (10 R50, U10). The open parameters of the machine itself are opaque constants: nothing can
be proved of their values, so what is proved of the machine holds for every value of them. -/

namespace Sys2Proof

/-! ### The fixed parameters of 00 R9 -/

/-- EPK_LEN. -/
def Config.epkLen : Nat := 65
/-- TAG_LEN, also Z_LEN, COORD_LEN and DIGEST_LEN: 32 in every place the source uses it. -/
def Config.tagLen : Nat := 32
/-- MIN_ENV_LEN. -/
def Config.minEnvLen : Nat := 97
/-- SEED_LEN. -/
def Config.seedLen : Nat := 97
/-- MACKEY_LEN. -/
def Config.macKeyLen : Nat := 16
/-- DIGEST_LEN. -/
def Config.digestLen : Nat := 32
/-- L2_LEN. -/
def Config.l2Len : Nat := 8

/-! ### The open types of 00 R10 -/

/-- A private key. The spec leaves the type open and the block never inspects a value (10 R43,
U3). DESIGN CHOICE (log 2): values are told apart by a number, which no rule reads. -/
structure PrivKey where
  token : Nat
deriving DecidableEq, Repr, Inhabited

/-- A decoded public point, as the EC delegate holds it. An open type (10 R26). DESIGN CHOICE
(log 2): values are told apart by a number, which no rule reads. -/
structure Point where
  token : Nat
deriving DecidableEq, Repr, Inhabited

/-- The open parameters of one block. Every meaning is written over a value of this type; the
machine's own is `Config.chip`. -/
structure Config where
  /-- MAX_ENV_LEN less 97: the bounds `97 <= MAX_ENV_LEN < 2^32` of 00 R10 hold by the type. -/
  capacityAboveMin : Fin 4294967199
  /-- What the EC delegate makes of a 65-byte string whose tag byte is 0x04 (U1). Length and tag
  byte are checked by `requestParse`. -/
  decodePoint : Bytes → Option Point
  /-- EC.ecdh, none for Fail (41 R132, U2). -/
  ecdh : PrivKey → Point → Option (BytesN 32)
  /-- SHA256 (42 R146). -/
  sha256 : Bytes → BytesN 32
  /-- HMAC, key then message (44 R176). -/
  hmac : Bytes → Bytes → BytesN 32
  /-- The free draw of IN byte `a` of instance `u` after its reset of number `e` (10 R44, R50; U10).
  One draw for each instance: whether two instances draw the same byte is open (log 30). -/
  inDraw : (u e a : Nat) → Byte
  /-- The free draw of OUT storage byte `a` of instance `u` after its reset of number `e` (10 R50;
  U10), one for each instance (log 30). -/
  outDraw : (u e a : Nat) → Byte
  /-- BASE. -/
  base : Nat
  /-- IN_BASE. -/
  inBase : Nat
  /-- OUT_BASE. -/
  outBase : Nat
  /-- N_INST less 1: N_INST is at least 1 by the type. -/
  otherInstances : Nat

/-- MAX_ENV_LEN, `97 <= MAX_ENV_LEN < 2^32` (00 R10, D5). -/
def Config.maxEnvLen (c : Config) : Nat := c.capacityAboveMin.val + 97

/-- The size of the OUT space, MAX_ENV_LEN - 97 (10 R45). -/
def Config.outSize (c : Config) : Nat := c.capacityAboveMin.val

/-- N_INST (00 R10, D17). -/
def Config.instances (c : Config) : Nat := c.otherInstances + 1

/-! ### The open parameters of the machine -/

/-- Behind MAX_ENV_LEN of the machine (log 3). -/
opaque Config.chipCapacity : Fin 4294967199
/-- Behind EC.parse of the machine (log 4). -/
opaque Config.chipDecodePoint : Bytes → Option Point
/-- Behind EC.ecdh of the machine: the byte at each index of the answer (log 4). -/
opaque Config.chipEcdh : PrivKey → Point → Option (Nat → Byte)
/-- Behind SHA256 of the machine: the byte at each index of the digest (log 4). -/
opaque Config.chipSha256 : Bytes → Nat → Byte
/-- Behind HMAC of the machine: the byte at each index of the tag (log 4). -/
opaque Config.chipHmac : Bytes → Bytes → Nat → Byte
/-- The free draws of the IN space, by instance, reset number and address (log 5, log 30). -/
opaque Config.chipInDraw : Nat → Nat → Nat → Byte
/-- The free draws of the OUT storage, by instance, reset number and address (log 6, log 30). -/
opaque Config.chipOutDraw : Nat → Nat → Nat → Byte
/-- BASE of the machine (log 19). -/
opaque Config.chipBase : Nat
/-- IN_BASE of the machine (log 19). -/
opaque Config.chipInBase : Nat
/-- OUT_BASE of the machine (log 19). -/
opaque Config.chipOutBase : Nat
/-- Behind N_INST of the machine (log 18). -/
opaque Config.chipOtherInstances : Nat

/-- The `n` bytes that `f` gives at indices 0 to n-1. -/
def Config.bytesOf (n : Nat) (f : Nat → Byte) : BytesN n :=
  ⟨(List.range n).map f, by simp⟩

/-- The machine's own parameters: all open. Every instance of a System has these (DESIGN CHOICE, log
32). -/
def Config.chip : Config where
  capacityAboveMin := Config.chipCapacity
  decodePoint := Config.chipDecodePoint
  ecdh k p := (Config.chipEcdh k p).map (Config.bytesOf 32)
  sha256 m := Config.bytesOf 32 (Config.chipSha256 m)
  hmac k m := Config.bytesOf 32 (Config.chipHmac k m)
  inDraw := Config.chipInDraw
  outDraw := Config.chipOutDraw
  base := Config.chipBase
  inBase := Config.chipInBase
  outBase := Config.chipOutBase
  otherInstances := Config.chipOtherInstances

end Sys2Proof
end

