-- ==== Sys2Proof/Syntax.lean ====
section
/-! DEFINITION. The operations of the block: the sixteen rows of spec/opcode_table.json (30 R99 to
R104), and the two forms in which an operation reaches the block (30 R100, R101). -/

namespace Sys2Proof

/-- The complete operation set, 30 R103: eight HOST operations and eight STAGE operations. -/
inductive Instr where
  /-- START, a CTRL write (45 R193). `data` is the whole 32-bit write; bit 0 is START. -/
  | start (data : Word32)
  /-- RDSTATUS (45 R194). -/
  | rdstatus
  /-- WRLEN (45 R195). -/
  | wrlen (data : Word32)
  /-- RDLEN (45 R212). -/
  | rdlen
  /-- RDOUTLEN (45 R197). -/
  | rdoutlen
  /-- WRKEY (45 R196): one whole PrivKey. -/
  | wrkey (key : PrivKey)
  /-- WRENV (40 R124): a byte address, a natural number, and a byte. -/
  | wrenv (addr : Nat) (data : Byte)
  /-- RDOUT (45 R198): a byte address. -/
  | rdout (addr : Nat)
  /-- UNPACK, stage 1 (40 R121). -/
  | unpack
  /-- AGREE, stage 2 (41 R133). -/
  | agree
  /-- DERIVE, stage 3 (42 R150). -/
  | derive
  /-- SPLIT, stage 4 (42 R153). -/
  | split
  /-- XORDEC, stage 5 (43 R166). -/
  | xordec
  /-- MACCHK, stage 6 (44 R179). -/
  | macchk
  /-- DISCARD, stage 7 (45 R201). -/
  | discard
  /-- RELEASE, stage 8 (45 R199). -/
  | release
deriving DecidableEq, Repr

/-- The two operation formats, 30 R99. -/
inductive Format where
  | host
  | stage
deriving DecidableEq, Repr

/-- A host access as it arrives at the block, 30 R100: the naming word
`space[1:0], rw, reg[2:0], 00` and the operands that stand outside the word. An access carries only
the operands its operation has; the others are zero. -/
structure HostAccess where
  /-- The 8-bit naming word. -/
  word : BitVec 8
  /-- The byte address, an unsigned 32-bit quantity (40 R123); IN and OUT only. -/
  addr : Word32
  /-- The 32-bit write data of the REG space, or the byte of WRENV, which the model carries in bits
  7:0 (DESIGN CHOICE, log 29: the spec gives WRENV one byte and leaves byte lanes open, D20). -/
  data : Word32
  /-- The whole PrivKey of a KEY write (10 R43). -/
  key : PrivKey
deriving DecidableEq, Repr

/-- What the block takes up as one operation (30 R99): a host access, or a stage by its PHASE
code. -/
inductive Encoded where
  | host (a : HostAccess)
  | stage (code : BitVec 4)
deriving DecidableEq, Repr

/-- The format of each operation, the opcode table's "format". -/
def Instr.format : Instr → Format
  | .start _ => .host
  | .rdstatus => .host
  | .wrlen _ => .host
  | .rdlen => .host
  | .rdoutlen => .host
  | .wrkey _ => .host
  | .wrenv _ _ => .host
  | .rdout _ => .host
  | .unpack => .stage
  | .agree => .stage
  | .derive => .stage
  | .split => .stage
  | .xordec => .stage
  | .macchk => .stage
  | .discard => .stage
  | .release => .stage

/-- The mnemonic of each operation (30 R107), the opcode table's spelling. -/
def Instr.mnemonic : Instr → String
  | .start _ => "START"
  | .rdstatus => "RDSTATUS"
  | .wrlen _ => "WRLEN"
  | .rdlen => "RDLEN"
  | .rdoutlen => "RDOUTLEN"
  | .wrkey _ => "WRKEY"
  | .wrenv _ _ => "WRENV"
  | .rdout _ => "RDOUT"
  | .unpack => "UNPACK"
  | .agree => "AGREE"
  | .derive => "DERIVE"
  | .split => "SPLIT"
  | .xordec => "XORDEC"
  | .macchk => "MACCHK"
  | .discard => "DISCARD"
  | .release => "RELEASE"

end Sys2Proof
end

