-- ==== Sys2Proof/WellFormed.lean ====
section
/-! DEFINITION. Which terms of `Instr` are operations that can be presented to the block. -/

namespace Sys2Proof

/-- Every address is an unsigned 32-bit quantity (40 R123), so the address of a WRENV or an RDOUT
fits in 32 bits. The spec checks nothing else: every data value, key and stage is legal (R124 and
45 R195 accept any value). Whether an address lies inside its space is no matter of form: out of
range has an effect of its own (20 R69). -/
def Instr.wellFormed : Instr → Bool
  | .start _ => true
  | .rdstatus => true
  | .wrlen _ => true
  | .rdlen => true
  | .rdoutlen => true
  | .wrkey _ => true
  | .wrenv addr _ => decide (addr < 4294967296)
  | .rdout addr => decide (addr < 4294967296)
  | .unpack => true
  | .agree => true
  | .derive => true
  | .split => true
  | .xordec => true
  | .macchk => true
  | .discard => true
  | .release => true

end Sys2Proof
end

