-- ==== Sys2Proof/Decode.lean ====
section
/-! DEFINITION. Decoding and encoding of operations (30 R99 to R105): total on every encoded form,
what it does not decode it names. -/

namespace Sys2Proof

/-- What an encoded form is. Beside the sixteen operations, 30 R105 gives four host accesses a
behaviour that is no row of the table. -/
inductive Decoded where
  /-- One of the sixteen operations. -/
  | op (i : Instr)
  /-- A read of CTRL or KEY: returns 0, no state change (30 R105). -/
  | readsZero
  /-- A write to STATUS or OUTLEN: ignored (30 R105). -/
  | ignored
  /-- PHASE is 0: no stage is selected and the sequencer waits (10 R35, 70 R263). -/
  | idle
  /-- A register number of 5 and above (30 R105): the host has no such move. -/
  | undefinedRegister
  /-- A read of the IN space or a write of the OUT space: no operation does it (10 R44, R45). -/
  | undefinedDirection
  /-- Space code 3, or a register number other than 0 with the IN or OUT space (30 R100). -/
  | undefinedSpace
  /-- A PHASE code of 9 to 15: no stage has it (30 R105). -/
  | undefinedStage
deriving DecidableEq, Repr

/-- space[1:0], bits 7:6 of the naming word (30 R100). -/
def wordSpace (w : BitVec 8) : BitVec 2 := w.extractLsb' 6 2
/-- rw, bit 5 of the naming word: W = 1, R = 0 (30 R100). -/
def wordIsWrite (w : BitVec 8) : Bool := w.getLsbD 5
/-- reg[2:0], bits 4:2 of the naming word (30 R100). -/
def wordReg (w : BitVec 8) : BitVec 3 := w.extractLsb' 2 3

/-- A host access in the REG space: CTRL 0, STATUS 1, ENVLEN 2, OUTLEN 3, KEY 4 (10 R38). -/
def decodeReg (write : Bool) (reg : BitVec 3) (a : HostAccess) : Decoded :=
  match reg.toNat, write with
  | 0, true => .op (.start a.data)
  | 0, false => .readsZero
  | 1, true => .ignored
  | 1, false => .op .rdstatus
  | 2, true => .op (.wrlen a.data)
  | 2, false => .op .rdlen
  | 3, true => .ignored
  | 3, false => .op .rdoutlen
  | 4, true => .op (.wrkey a.key)
  | 4, false => .readsZero
  | _, _ => .undefinedRegister

/-- A host access (30 R100). Bits 1:0 of the naming word are not looked at, as the opcode table's
mask 0xFC says (DEDUCED, log 13). WRENV's byte is bits 7:0 of the data at every address, and bits
31:8 are ignored (DESIGN CHOICE, log 29: byte lanes are open, D20). -/
def decodeHost (a : HostAccess) : Decoded :=
  match (wordSpace a.word).toNat with
  | 0 => decodeReg (wordIsWrite a.word) (wordReg a.word) a
  | 1 =>
    if wordReg a.word ≠ 0 then .undefinedSpace
    else if wordIsWrite a.word then .op (.wrenv a.addr.toNat (a.data.setWidth 8))
    else .undefinedDirection
  | 2 =>
    if wordReg a.word ≠ 0 then .undefinedSpace
    else if wordIsWrite a.word then .undefinedDirection
    else .op (.rdout a.addr.toNat)
  | _ => .undefinedSpace

/-- A stage by its PHASE code (30 R101). -/
def decodeStage (code : BitVec 4) : Decoded :=
  match code.toNat with
  | 0 => .idle
  | 1 => .op .unpack
  | 2 => .op .agree
  | 3 => .op .derive
  | 4 => .op .split
  | 5 => .op .xordec
  | 6 => .op .macchk
  | 7 => .op .discard
  | 8 => .op .release
  | _ => .undefinedStage

/-- The decoder of both formats (30 R99). -/
def decode : Encoded → Decoded
  | .host a => decodeHost a
  | .stage code => decodeStage code

/-- The naming word `space, rw, reg, 00` (30 R100). -/
def namingWord (space : BitVec 2) (write : Bool) (reg : BitVec 3) : BitVec 8 :=
  space ++ BitVec.ofBool write ++ reg ++ 0#2

/-- A REG access with 32-bit data. -/
def regAccess (write : Bool) (reg : BitVec 3) (data : Word32) : HostAccess :=
  ⟨namingWord 0 write reg, 0, data, ⟨0⟩⟩

/-- The encoded form of every operation (30 R100, R101). -/
def encode : Instr → Encoded
  | .start data => .host (regAccess true 0 data)
  | .rdstatus => .host (regAccess false 1 0)
  | .wrlen data => .host (regAccess true 2 data)
  | .rdlen => .host (regAccess false 2 0)
  | .rdoutlen => .host (regAccess false 3 0)
  | .wrkey key => .host ⟨namingWord 0 true 4, 0, 0, key⟩
  | .wrenv addr data => .host ⟨namingWord 1 true 0, BitVec.ofNat 32 addr, data.setWidth 32, ⟨0⟩⟩
  | .rdout addr => .host ⟨namingWord 2 false 0, BitVec.ofNat 32 addr, 0, ⟨0⟩⟩
  | .unpack => .stage 1
  | .agree => .stage 2
  | .derive => .stage 3
  | .split => .stage 4
  | .xordec => .stage 5
  | .macchk => .stage 6
  | .discard => .stage 7
  | .release => .stage 8

/-- The encoded form that the bits of an opcode-table row stand for, every operand zero. The two
formats share one table: a HOST row has 8 bits, a STAGE row 4. With `nbits` below 8 the word is a
PHASE code. With 8 or more it is a naming word; but a naming word ends in 00 (30 R100), so a word
of 1 to 8 that does not is taken as the PHASE code it equals. Words 4 and 8 fit both formats and
are the HOST rows RDSTATUS and RDLEN (DESIGN CHOICE, log 14). -/
def tableEncoded (nbits w : Nat) : Encoded :=
  if nbits < 8 || (w % 4 != 0 && w ≤ 8) then .stage (BitVec.ofNat 4 w)
  else .host ⟨BitVec.ofNat 8 w, 0, 0, ⟨0⟩⟩

/-- The operation the decoder reads from an opcode-table word, if it is one. -/
def decodeTableWord (nbits w : Nat) : Option Instr :=
  match decode (tableEncoded nbits w) with
  | .op i => some i
  | .readsZero => none
  | .ignored => none
  | .idle => none
  | .undefinedRegister => none
  | .undefinedDirection => none
  | .undefinedSpace => none
  | .undefinedStage => none

end Sys2Proof
end

