-- ==== Sys2Proof/Machine/State.lean ====
section
/-! DEFINITION. The state of one instance of the block (file 10 of the spec), the reasons a step can
stop, and the state after reset (10 R50). -/

namespace Sys2Proof.Machine

/-- PHASE, the sequencer's position (10 R35). It has nine values: no rule gives it a code of 9 to 15
(30 R105). -/
inductive Phase where
  | idle
  | unpack
  | agree
  | derive
  | split
  | xordec
  | macchk
  | discard
  | release
deriving DecidableEq, Repr

/-- The closed set of error kinds (60 R220, R221). `none` of `Option ErrKind` is ERR = 0. -/
inductive ErrKind where
  | invalidEnvelope
  | invalidPublicKey
  | keyAgreementFailure
  | macMismatch
deriving DecidableEq, Repr

/-- The transient datapath registers and the flag MATCH (10 R23 to R36). `none` is the spec's own
`invalid`: the register holds no value (10 R22). -/
structure Transients where
  /-- EPK, 65 bytes (R23). -/
  epk : Option (BytesN 65)
  /-- CTLEN, 32 bits (R24). -/
  ctlen : Option Word32
  /-- TAG, 32 bytes (R25). -/
  tag : Option (BytesN 32)
  /-- PK (R26). -/
  pk : Option Point
  /-- Z, 32 bytes (R27). -/
  z : Option (BytesN 32)
  /-- SEED, 97 bytes (R28). -/
  seed : Option (BytesN 97)
  /-- CTR, 32 bits (R29). -/
  ctr : Option Word32
  /-- KM, n + 16 bytes (R30). -/
  km : Option Bytes
  /-- K2, 16 bytes (R31). -/
  k2 : Option (BytesN 16)
  /-- K1, n bytes (R31). -/
  k1 : Option Bytes
  /-- PT, n bytes (R32). -/
  pt : Option Bytes
  /-- TAGC, 32 bytes (R33). -/
  tagc : Option (BytesN 32)
  /-- MATCH (R36). -/
  matched : Option Bool
deriving DecidableEq, Repr

/-- Every transient register invalid (10 R22). -/
def Transients.invalid : Transients :=
  ⟨none, none, none, none, none, none, none, none, none, none, none, none, none⟩

/-- The names of the registers a stage reads and that can hold `invalid`. -/
inductive RegName where
  | epk
  | ctlen
  | tag
  | z
  | km
  | k2
  | k1
  | pt
  | sk
deriving DecidableEq, Repr

/-- The byte spaces (10 R44, R45). -/
inductive Buffer where
  | input
  | output
deriving DecidableEq, Repr

/-- One delegate request, an atomic event together with its answer (10 R47). The answer is the
delegate's function of the argument, so the argument is the event. -/
inductive Request where
  /-- EC.parse (41 R131). -/
  | ecParse (b : Bytes)
  /-- EC.ecdh (41 R132). -/
  | ecEcdh (k : PrivKey) (p : Point)
  /-- SHA256 (42 R146). -/
  | sha256 (m : Bytes)
  /-- HMAC (44 R176). -/
  | hmac (k m : Bytes)
deriving DecidableEq, Repr

/-- What the last host read returned (45 R194, R197, R198, R212). -/
inductive HostAnswer where
  /-- No read yet. -/
  | none
  /-- A 32-bit register value. -/
  | word (v : Word32)
  /-- A byte of the OUT space. -/
  | byte (v : Byte)
deriving DecidableEq, Repr

/-- One turn of the outside world (10 R20, 70 R261): which agent moves next (log 1). -/
inductive Turn where
  /-- The host makes an access. -/
  | host (a : HostAccess)
  /-- The sequencer executes the stage that PHASE selects, or waits if PHASE is 0. -/
  | sequencer
  /-- The reset input fires. -/
  | reset
deriving DecidableEq, Repr

/-- The state of one instance. -/
structure State where
  /-- STATUS.BUSY (10 R37, R40). -/
  busy : Bool
  /-- STATUS.DONE (10 R37, R40). -/
  done : Bool
  /-- STATUS.KEYV (10 R37, R40). -/
  keyv : Bool
  /-- STATUS.ERR (10 R40). -/
  err : Option ErrKind
  /-- ENVLEN (10 R41). -/
  envlen : Word32
  /-- OUTLEN (10 R42). -/
  outlen : Word32
  /-- The key slot SK, none for invalid (10 R43). -/
  sk : Option PrivKey
  /-- The bytes of the IN space written since reset (10 R44, log 5). -/
  inMem : List Host.Cell
  /-- The bytes of the OUT storage written since reset (10 R45, log 6). -/
  outMem : List Host.Cell
  /-- PHASE (10 R35). -/
  phase : Phase
  /-- The transient registers (10 R22 to R36). -/
  tr : Transients
  /-- MODEL's own: the turns still to come (log 1). -/
  agenda : List Turn
  /-- MODEL's own: what the last host read returned (log 7). -/
  answer : HostAnswer
  /-- MODEL's own: the request trace of the current or last call, oldest first (10 R47, log 8). -/
  trace : List Request
  /-- MODEL's own: how many resets have fired, an index of the free draws (log 5, log 16). -/
  epoch : Nat
  /-- MODEL's own: which of the N_INST instances this is, an index of the free draws (log 30). No
  step changes it. -/
  unit : Nat
deriving DecidableEq, Repr

/-- Why the machine stops. Each is safe: the model stops where the spec gives no effect. None is met
in a state that satisfies the invariant of Safety.lean, but for `undefinedAccess`, which the host
brings about. -/
inductive Fault where
  /-- A stage reads a register that holds `invalid`: "an error of the spec, no rule does it"
  (00 R15; 10 R22; D14). Raised by the stages 2 to 6 and 8. Safe (log 9). -/
  | invalidRegister (r : RegName)
  /-- The sequencer forms an address outside a space, which 20 R69 says it never does. Raised by
  XORDEC, MACCHK and RELEASE. Safe (log 11). -/
  | addressOutsideSpace (b : Buffer)
  /-- The host makes an access the spec does not define: U12 "stuck (no such move)". `d` says which.
  Raised by the step, before any operation. Safe (log 12). -/
  | undefinedAccess (d : Decoded)
deriving DecidableEq, Repr

/-- Why the model gives no answer. -/
inductive Refusal where
  /-- The instruction has no meaning in this model. Raised by no arm of `exec`. Safe. -/
  | notModelled (mnemonic : String)
  /-- The register's length breaks the contract of the stage that reads it: U7 "refuse" for a key
  stream of another length than the ciphertext (43 R165), and the same for a slice or a store of
  another length than the register has (00 R13, R15). Raised by SPLIT, XORDEC and RELEASE. Safe
  (log 10). -/
  | lengthContract (r : RegName)
deriving DecidableEq, Repr

/-- The outcome of a step of the block. -/
abbrev Result := Host.Outcome State Fault Refusal

/-- The machine right after reset (10 R50). The last five fields are the model's own (log 1, 7, 8,
16, 27, 30). -/
def State.reset : State where
  busy := false
  done := false
  keyv := false
  err := none
  envlen := 0
  outlen := 0
  sk := none
  inMem := []
  outMem := []
  phase := .idle
  tr := Transients.invalid
  agenda := []
  answer := .none
  trace := []
  epoch := 0
  unit := 0

end Sys2Proof.Machine
end

