-- ==== Sys2Proof/Machine/Flags.lean ====
section
/-! DEFINITION. Flags and codes: the STATUS register (10 R40), the error codes (60 R221), the PHASE
codes (10 R35), the conditions the host operations test, and the tag comparison (44 R178). -/

namespace Sys2Proof.Machine

/-- STATUS.ERR, three bits (10 R40, 60 R221). -/
def errCode : Option ErrKind → BitVec 3
  | none => 0
  | some .invalidEnvelope => 1
  | some .invalidPublicKey => 2
  | some .keyAgreementFailure => 3
  | some .macMismatch => 4

/-- STATUS as a 32-bit value: zext_32 of `ERR, 0, KEYV, DONE, BUSY` (45 R194). -/
def statusWord (s : State) : Word32 :=
  (errCode s.err ++ 0#1 ++ BitVec.ofBool s.keyv ++ BitVec.ofBool s.done
    ++ BitVec.ofBool s.busy : BitVec 7).setWidth 32

/-- PHASE[3:0] (10 R35). -/
def phaseCode : Phase → BitVec 4
  | .idle => 0
  | .unpack => 1
  | .agree => 2
  | .derive => 3
  | .split => 4
  | .xordec => 5
  | .macchk => 6
  | .discard => 7
  | .release => 8

/-- The PHASE of a code; none for 9 to 15 (30 R105). -/
def phaseOfCode (code : BitVec 4) : Option Phase :=
  match code.toNat with
  | 0 => some .idle
  | 1 => some .unpack
  | 2 => some .agree
  | 3 => some .derive
  | 4 => some .split
  | 5 => some .xordec
  | 6 => some .macchk
  | 7 => some .discard
  | 8 => some .release
  | _ => none

/-- A START is accepted: data[0] = 1, BUSY = 0 and KEYV = 1 (45 R193). -/
def startAccepted (data : Word32) (s : State) : Bool := data.getLsbD 0 && !s.busy && s.keyv

/-- The OUT gate: DONE = 1, ERR = 0 and `a < OUTLEN` (10 R45). -/
def outReadable (s : State) (a : Nat) : Bool :=
  s.done && decide (s.err = none) && decide (a < s.outlen.toNat)

/-- MATCH: plain equality of all 32 bytes (44 R178). -/
def tagsMatch (tagc tag : BytesN 32) : Bool := decide (tagc.val = tag.val)

/-- The stage after MACCHK: RELEASE if MATCH = 1, else DISCARD (44 R179). -/
def phaseAfterCheck (m : Bool) : Phase := if m then .release else .discard

end Sys2Proof.Machine
end

