-- ==== Sys2Proof/Machine/Memory.lean ====
section
/-! DEFINITION. Sparse byte memory in one canonical form: a list of cells with strictly rising
addresses. An address not listed holds no value in the list; what it reads as is the free draw of
Ops.lean (log 5, log 6). So every list with strictly rising addresses is canonical, and equal
memories are equal lists. -/

namespace Sys2Proof.Machine

/-- Addresses strictly rising. -/
def memoryWf : List Host.Cell → Bool
  | [] => true
  | [_] => true
  | c :: d :: m => decide (c.1 < d.1) && memoryWf (d :: m)

/-- The byte listed at `a`, none where nothing has been written. -/
def memoryFind : List Host.Cell → Nat → Option Byte
  | [], _ => none
  | c :: m, a => if c.1 = a then some c.2 else memoryFind m a

/-- One byte stored at `a`. -/
def memoryPut : List Host.Cell → Nat → Byte → List Host.Cell
  | [], a, v => [(a, v)]
  | c :: m, a, v =>
    if c.1 < a then c :: memoryPut m a v
    else if c.1 = a then (a, v) :: m
    else (a, v) :: c :: m

/-- MemWrite (00 R15): the bytes of `bs` at addresses `a`, `a + 1`, .... -/
def memoryPutAll (m : List Host.Cell) (a : Nat) : Bytes → List Host.Cell
  | [] => m
  | b :: bs => memoryPutAll (memoryPut m a b) (a + 1) bs

/-- Every listed address is below `n`. -/
def memoryBelow (n : Nat) (m : List Host.Cell) : Bool := m.all fun c => decide (c.1 < n)

end Sys2Proof.Machine
end

