-- ==== Sys2Proof/Machine/Ops.lean ====
section
/-! DEFINITION. The shared operations: byte strings (00 R14), the delegate requests (10 R47), the key
derivation (42 R147), the stream cipher (43 R165), reads of the two spaces, and the updates of the
state that more than one rule makes: `raise` (60 R226), the accepted START (45 R193), the end of a
successful call (45 R199), reset (70 R261). -/

namespace Sys2Proof.Machine

/-! ### Byte strings -/

/-- be32(v): four bytes, most significant first (00 R14). -/
def be32 (v : Word32) : Bytes :=
  [v.extractLsb' 24 8, v.extractLsb' 16 8, v.extractLsb' 8 8, v.extractLsb' 0 8]

/-- zeros(n) (00 R13). -/
def zeros (n : Nat) : Bytes := List.replicate n 0

/-- ceil_div(a, b) for b > 0: the least q with q * b >= a (00 R14). -/
def ceilDiv (a b : Nat) : Nat := (a + (b - 1)) / b

/-- The half-open slice of bytes `a <= i < b` (00 R13), for `a <= b <= len`. -/
def sliceBytes (l : Bytes) (a b : Nat) : Bytes := (l.take b).drop a

/-! ### Delegate requests -/

/-- EC.parse (41 R131): Invalid for a wrong length or a wrong leading byte; for the rest the
delegate decides (U1). -/
def requestParse (cfg : Config) (b : Bytes) : Option Point :=
  if b.length = 65 ∧ b.head? = some 0x04#8 then cfg.decodePoint b else none

/-- EC.ecdh (41 R132), none for Fail. -/
def requestEcdh (cfg : Config) (k : PrivKey) (p : Point) : Option (BytesN 32) := cfg.ecdh k p

/-- SHA256 (42 R146). -/
def requestSha256 (cfg : Config) (m : Bytes) : BytesN 32 := cfg.sha256 m

/-- HMAC (44 R176), key then message. -/
def requestHmac (cfg : Config) (k m : Bytes) : BytesN 32 := cfg.hmac k m

/-- agree(sk, b) as a function (41 R130). -/
def agreeOf (cfg : Config) (k : PrivKey) (b : Bytes) : Except ErrKind (BytesN 32) :=
  match requestParse cfg b with
  | none => .error .invalidPublicKey
  | some p =>
    match requestEcdh cfg k p with
    | none => .error .keyAgreementFailure
    | some z => .ok z

/-! ### Key derivation -/

/-- The working values of the KDF loop: `out`, `ctr`, and the requests made so far. -/
structure KdfLoop where
  out : Bytes
  ctr : Word32
  requests : List Request
deriving DecidableEq, Repr

/-- The hash input of one block: `seed ‖ be32(ctr)` (30 R94). -/
def kdfInput (seed : Bytes) (ctr : Word32) : Bytes := seed ++ be32 ctr

/-- One block of the KDF loop (42 R147): request, append, increment modulo 2^32. -/
def kdfBlock (cfg : Config) (seed : Bytes) (w : KdfLoop) : KdfLoop where
  out := w.out ++ (requestSha256 cfg (kdfInput seed w.ctr)).val
  ctr := w.ctr + 1
  requests := w.requests ++ [.sha256 (kdfInput seed w.ctr)]

/-- The loop `for i in 1 .. blockCount` (42 R147). -/
def kdfBlocks (cfg : Config) (seed : Bytes) : Nat → KdfLoop → KdfLoop
  | 0, w => w
  | n + 1, w => kdfBlocks cfg seed n (kdfBlock cfg seed w)

/-- The loop from its start: an empty output and the counter at 1. -/
def kdfRun (cfg : Config) (seed : Bytes) (len : Nat) : KdfLoop :=
  kdfBlocks cfg seed (ceilDiv len 32) ⟨[], 1, []⟩

/-- KDF(seed, L) (42 R147): the first L bytes of the blocks. -/
def kdf (cfg : Config) (seed : Bytes) (len : Nat) : Bytes := (kdfRun cfg seed len).out.take len

/-- Every block appends 32 bytes. -/
theorem kdfBlocks_out_length (cfg : Config) (seed : Bytes) (n : Nat) (w : KdfLoop) :
    (kdfBlocks cfg seed n w).out.length = w.out.length + 32 * n := by
  induction n generalizing w with
  | zero => rfl
  | succ n ih =>
    rw [kdfBlocks, ih]
    simp only [kdfBlock, List.length_append,
      (requestSha256 cfg (kdfInput seed w.ctr)).property]
    omega

/-- `len(KDF(seed, L)) = L` (42 R151 (a)). -/
@[simp] theorem kdf_length (cfg : Config) (seed : Bytes) (len : Nat) :
    (kdf cfg seed len).length = len := by
  simp only [kdf, kdfRun, List.length_take, kdfBlocks_out_length, ceilDiv, List.length_nil]
  omega

/-- K2 of key material of `n + 16` bytes: the first 16 bytes (42 R153, 90 C1). -/
def macKeyOf (cfg : Config) (seed : Bytes) (n : Nat) : Bytes :=
  sliceBytes (kdf cfg seed (n + 16)) 0 16

/-- K1 of key material of `n + 16` bytes: the `n` bytes after K2 (42 R153, 90 C1). -/
def cipherKeyOf (cfg : Config) (seed : Bytes) (n : Nat) : BytesN n :=
  ⟨sliceBytes (kdf cfg seed (n + 16)) 16 (16 + n), by simp [sliceBytes]; omega⟩

/-! ### Stream cipher and MAC -/

/-- apply(c, k), byte-wise exclusive-or of two sequences of one length, typed over equal lengths as 43
R165 asks (D24). On sequences of different lengths there is no such term; XORDEC refuses them
before it comes here (log 10). -/
def applyStream {n : Nat} (c k : BytesN n) : BytesN n :=
  ⟨List.zipWith (fun x y => x ^^^ y) c.val k.val, by simp [c.property, k.property]⟩

/-- The HMAC message: the ciphertext, then the eight zero bytes L2 (30 R96, 44 R177). -/
def macMessage (ct : Bytes) : Bytes := ct ++ zeros 8

/-- computeTag(key, ciphertext) (44 R175). -/
def computeTag (cfg : Config) (k2 ct : Bytes) : BytesN 32 := requestHmac cfg k2 (macMessage ct)

/-! ### Reads of the two spaces -/

/-- The byte of the IN space at `a`: the byte the host wrote since reset, else the free draw (10 R44,
U10). -/
def inByte (cfg : Config) (s : State) (a : Nat) : Byte :=
  (memoryFind s.inMem a).getD (cfg.inDraw s.unit s.epoch a)

/-- MemRead(IN, a, n) (00 R15), in address order. -/
def inBytes (cfg : Config) (s : State) (a n : Nat) : Bytes :=
  (List.range n).map fun i => inByte cfg s (a + i)

/-- The same as a sequence of exactly `n` bytes. -/
def inBytesN (cfg : Config) (s : State) (a n : Nat) : BytesN n :=
  ⟨inBytes cfg s a n, by simp [inBytes]⟩

/-- The byte of the OUT storage at `a`, gate or no gate (10 R45, U10). -/
def outByte (cfg : Config) (s : State) (a : Nat) : Byte :=
  (memoryFind s.outMem a).getD (cfg.outDraw s.unit s.epoch a)

/-! ### Updates of the state -/

/-- The value a host read returns. -/
def State.setAnswer (s : State) (v : HostAnswer) : State := { s with answer := v }

/-- ENVLEN <- v (45 R195). -/
def State.setEnvlen (s : State) (v : Word32) : State := { s with envlen := v }

/-- SK <- k; KEYV <- 1 (45 R196). -/
def State.loadKey (s : State) (k : PrivKey) : State := { s with sk := some k, keyv := true }

/-- MemWrite(IN, a, 1, [v]) (40 R124). -/
def State.putIn (s : State) (a : Nat) (v : Byte) : State :=
  { s with inMem := memoryPut s.inMem a v }

/-- PHASE <- p with the transient registers `t`: the end of a stage that goes on. -/
def State.advance (s : State) (p : Phase) (t : Transients) : State :=
  { s with phase := p, tr := t }

/-- The requests `rs` made, in order, after those of the trace (10 R47). -/
def State.request (s : State) (rs : List Request) : State := { s with trace := s.trace ++ rs }

/-- The agenda after the turn just taken. -/
def State.setAgenda (s : State) (l : List Turn) : State := { s with agenda := l }

/-- The accepted START (45 R193). A new call begins, so its request trace is empty (10 R47). -/
def State.startCall (s : State) : State :=
  { s with
    done := false
    err := none
    outlen := 0
    busy := true
    phase := .unpack
    trace := [] }

/-- TAKING AN ERROR: `raise K`, one atomic step (60 R226). Nothing is saved, control goes nowhere and
there is no return from it (60 R229): the next accepted START clears it (`State.startCall`). -/
def State.raise (s : State) (k : ErrKind) : State :=
  { s with
    tr := Transients.invalid
    outlen := 0
    err := some k
    busy := false
    done := true
    phase := .idle }

/-- The end of a successful call (45 R199): MemWrite(OUT, 0, CTLEN, PT), OUTLEN <- CTLEN, every
transient register invalid, ERR 0, BUSY 0, DONE 1, PHASE 0. -/
def State.endCall (s : State) (n : Word32) (pt : Bytes) : State :=
  { s with
    outMem := memoryPutAll s.outMem 0 pt
    outlen := n
    tr := Transients.invalid
    err := none
    busy := false
    done := true
    phase := .idle }

/-- The reset transition (70 R261): the state of 10 R50, whatever the state was; the unwritten bytes
are drawn anew (log 16), the turns to come stay, and the instance is the same one (log 30). -/
def State.afterReset (s : State) : State :=
  { State.reset with agenda := s.agenda, epoch := s.epoch + 1, unit := s.unit }

end Sys2Proof.Machine
end

