-- ==== Sys2Proof/Machine/Operands.lean ====
section
/-! DEFINITION. The operands of the stages: registers that must hold a value (10 R22), and the
regions of the envelope (20 R67, 30 R92). -/

namespace Sys2Proof.Machine

/-- The value of a register for the rest of a stage; the register holds `invalid`: a fault, since no
rule reads it then (00 R15). -/
def withReg {α : Type} (r : RegName) (v : Option α) (k : α → Result) : Result :=
  match v with
  | some x => k x
  | none => .fault (.invalidRegister r)

/-- The value of a register as the sequence of `n` bytes that the stage's rule says it is; of another
length, the stage is not defined (43 R165, U7). -/
def withLength (r : RegName) (v : Bytes) (n : Nat) (k : BytesN n → Result) : Result :=
  if h : v.length = n then k ⟨v, h⟩ else .refused (.lengthContract r)

/-- Where the ciphertext begins: address 65 (20 R67). -/
def ctStart : Nat := 65

/-- The ciphertext region `[65, 65 + n)` as the view CT = MemRead(IN, 65, n) (10 R24); a region that
is not inside the IN space faults (20 R69). -/
def withCiphertext (cfg : Config) (s : State) (n : Nat) (k : BytesN n → Result) : Result :=
  if ctStart + n ≤ cfg.maxEnvLen then k (inBytesN cfg s ctStart n)
  else .fault (.addressOutsideSpace .input)

/-- The region of OUT that a plaintext of `n` bytes takes, inside the OUT space (10 R45). -/
def withOutRegion (cfg : Config) (n : Nat) (k : Result) : Result :=
  if n ≤ cfg.outSize then k else .fault (.addressOutsideSpace .output)

/-- The regions of an envelope of `len` bytes exist: `97 <= len <= MAX_ENV_LEN` (40 R121). At
MAX_ENV_LEN = 2^32 - 1 two corner cases of R121 disagree: ENVLEN = MAX_ENV_LEN succeeds, and ENVLEN
= 0xFFFFFFFF is InvalidEnvelope. DESIGN CHOICE (log 33): the pseudocode's condition, so it succeeds. -/
def regionsExist (cfg : Config) (len : Nat) : Bool :=
  decide (97 ≤ len) && decide (len ≤ cfg.maxEnvLen)

/-- CTLEN of an envelope of `len` bytes (30 R92). -/
def ciphertextLength (len : Nat) : Nat := len - 97

/-- Where the tag of an envelope of `len` bytes begins (30 R92). -/
def tagStart (len : Nat) : Nat := len - 32

end Sys2Proof.Machine
end

