-- ==== Sys2Proof/Machine/HostPort.lean ====
section
/-! DEFINITION. The meanings of the eight HOST operations (30 R100). None raises an error (60 R231).
What is ignored leaves the state as it is (20 R68, R69). -/

namespace Sys2Proof.Machine

/-- START (45 R193): accepted only with data[0] = 1, BUSY = 0 and KEYV = 1; else nothing happens. -/
def execStart (data : Word32) (s : State) : Result :=
  .next (if startAccepted data s then s.startCall else s)

/-- RDSTATUS (45 R194). -/
def execRdstatus (s : State) : Result := .next (s.setAnswer (.word (statusWord s)))

/-- WRLEN (45 R195): ignored while BUSY; any value is stored. -/
def execWrlen (data : Word32) (s : State) : Result :=
  .next (if s.busy then s else s.setEnvlen data)

/-- RDLEN (45 R212): allowed while BUSY. -/
def execRdlen (s : State) : Result := .next (s.setAnswer (.word s.envlen))

/-- RDOUTLEN (45 R197). -/
def execRdoutlen (s : State) : Result := .next (s.setAnswer (.word s.outlen))

/-- WRKEY (45 R196): ignored while BUSY; the key is not examined. -/
def execWrkey (key : PrivKey) (s : State) : Result :=
  .next (if s.busy then s else s.loadKey key)

/-- WRENV (40 R124) over any parameters: ignored while BUSY and at or beyond MAX_ENV_LEN. -/
def wrenvWith (cfg : Config) (addr : Nat) (data : Byte) (s : State) : Result :=
  .next (if !s.busy && decide (addr < cfg.maxEnvLen) then s.putIn addr data else s)

/-- WRENV (40 R124). -/
def execWrenv (addr : Nat) (data : Byte) (s : State) : Result :=
  wrenvWith Config.chip addr data s

/-- RDOUT (45 R198) over any parameters: the stored byte through the gate of 10 R45, else 0x00. -/
def rdoutWith (cfg : Config) (addr : Nat) (s : State) : Result :=
  .next (s.setAnswer (.byte (if outReadable s addr then outByte cfg s addr else 0x00#8)))

/-- RDOUT (45 R198). -/
def execRdout (addr : Nat) (s : State) : Result := rdoutWith Config.chip addr s

end Sys2Proof.Machine
end

