-- ==== Sys2Proof/Machine/Stages.lean ====
section
/-! DEFINITION. The meanings of the eight STAGE operations (30 R101), each over any parameters and
then for the machine's own. -/

namespace Sys2Proof.Machine

/-- UNPACK (40 R121) over any parameters: the length check comes before any read of the envelope. -/
def unpackWith (cfg : Config) (s : State) : Result :=
  if regionsExist cfg s.envlen.toNat then
    .next (s.advance .agree
      { s.tr with
        epk := some (inBytesN cfg s 0 65)
        ctlen := some (BitVec.ofNat 32 (ciphertextLength s.envlen.toNat))
        tag := some (inBytesN cfg s (tagStart s.envlen.toNat) 32) })
  else .next (s.raise .invalidEnvelope)

/-- UNPACK (40 R121). -/
def execUnpack (s : State) : Result := unpackWith Config.chip s

/-- AGREE (41 R133) over any parameters: EC.parse, then EC.ecdh only if the parse succeeded. -/
def agreeWith (cfg : Config) (s : State) : Result :=
  withReg .epk s.tr.epk fun epk =>
    match requestParse cfg epk.val with
    | none => .next ((s.request [.ecParse epk.val]).raise .invalidPublicKey)
    | some p =>
      withReg .sk s.sk fun k =>
        match requestEcdh cfg k p with
        | none =>
          .next ((s.request [.ecParse epk.val, .ecEcdh k p]).raise .keyAgreementFailure)
        | some z =>
          .next ((s.request [.ecParse epk.val, .ecEcdh k p]).advance .derive
            { s.tr with pk := some p, z := some z })

/-- AGREE (41 R133). -/
def execAgree (s : State) : Result := agreeWith Config.chip s

/-- SEED = EPK ‖ Z (30 R93). -/
def seedOf (epk : BytesN 65) (z : BytesN 32) : BytesN 97 :=
  ⟨epk.val ++ z.val, by simp [epk.property, z.property]⟩

/-- DERIVE (42 R150) over any parameters: KM <- KDF(EPK ‖ Z, CTLEN + 16). -/
def deriveWith (cfg : Config) (s : State) : Result :=
  withReg .epk s.tr.epk fun epk =>
    withReg .z s.tr.z fun z =>
      withReg .ctlen s.tr.ctlen fun n =>
        .next ((s.request (kdfRun cfg (seedOf epk z).val (n.toNat + 16)).requests).advance .split
          { s.tr with
            seed := some (seedOf epk z)
            ctr := some (kdfRun cfg (seedOf epk z).val (n.toNat + 16)).ctr
            km := some (kdf cfg (seedOf epk z).val (n.toNat + 16)) })

/-- DERIVE (42 R150). -/
def execDerive (s : State) : Result := deriveWith Config.chip s

/-- SPLIT (42 R153): K2 the first 16 bytes of KM, K1 the CTLEN bytes after them. A KM without those
bytes has no such slices (00 R13). -/
def execSplit (s : State) : Result :=
  withReg .km s.tr.km fun km =>
    withReg .ctlen s.tr.ctlen fun n =>
      if h : 16 + n.toNat ≤ km.length then
        .next (s.advance .xordec
          { s.tr with
            k2 := some ⟨sliceBytes km 0 16, by simp [sliceBytes]; omega⟩
            k1 := some (sliceBytes km 16 (16 + n.toNat)) })
      else .refused (.lengthContract .km)

/-- XORDEC (43 R166) over any parameters: PT = CT xor K1, refused unless K1 is as long as CT. -/
def xordecWith (cfg : Config) (s : State) : Result :=
  withReg .ctlen s.tr.ctlen fun n =>
    withReg .k1 s.tr.k1 fun k1 =>
      withCiphertext cfg s n.toNat fun ct =>
        withLength .k1 k1 n.toNat fun ks =>
          .next (s.advance .macchk { s.tr with pt := some (applyStream ct ks).val })

/-- XORDEC (43 R166). -/
def execXordec (s : State) : Result := xordecWith Config.chip s

/-- MACCHK (44 R179) over any parameters. -/
def macchkWith (cfg : Config) (s : State) : Result :=
  withReg .k2 s.tr.k2 fun k2 =>
    withReg .ctlen s.tr.ctlen fun n =>
      withReg .tag s.tr.tag fun tag =>
        withCiphertext cfg s n.toNat fun ct =>
          .next ((s.request [.hmac k2.val (macMessage ct.val)]).advance
            (phaseAfterCheck (tagsMatch (computeTag cfg k2.val ct.val) tag))
            { s.tr with
              tagc := some (computeTag cfg k2.val ct.val)
              matched := some (tagsMatch (computeTag cfg k2.val ct.val) tag) })

/-- MACCHK (44 R179). -/
def execMacchk (s : State) : Result := macchkWith Config.chip s

/-- DISCARD (45 R201): `raise MacMismatch`. -/
def execDiscard (s : State) : Result := .next (s.raise .macMismatch)

/-- RELEASE (45 R199) over any parameters: PT to OUT, OUTLEN <- CTLEN, the call ends. -/
def releaseWith (cfg : Config) (s : State) : Result :=
  withReg .ctlen s.tr.ctlen fun n =>
    withReg .pt s.tr.pt fun pt =>
      withOutRegion cfg n.toNat
        (withLength .pt pt n.toNat fun p => .next (s.endCall n p.val))

/-- RELEASE (45 R199). -/
def execRelease (s : State) : Result := releaseWith Config.chip s

end Sys2Proof.Machine
end

