-- ==== Sys2Proof/Machine/Dispatch.lean ====
section
/-! DEFINITION. One arm per operation: the HOST operations (30 R100), then the stages (30 R101). -/

namespace Sys2Proof.Machine

def exec (i : Instr) (s : State) : Host.Outcome State Fault Refusal :=
  match i with
  | .start data => Sys2Proof.Machine.execStart data s
  | .rdstatus => Sys2Proof.Machine.execRdstatus s
  | .wrlen data => Sys2Proof.Machine.execWrlen data s
  | .rdlen => Sys2Proof.Machine.execRdlen s
  | .rdoutlen => Sys2Proof.Machine.execRdoutlen s
  | .wrkey key => Sys2Proof.Machine.execWrkey key s
  | .wrenv addr data => Sys2Proof.Machine.execWrenv addr data s
  | .rdout addr => Sys2Proof.Machine.execRdout addr s
  | .unpack => Sys2Proof.Machine.execUnpack s
  | .agree => Sys2Proof.Machine.execAgree s
  | .derive => Sys2Proof.Machine.execDerive s
  | .split => Sys2Proof.Machine.execSplit s
  | .xordec => Sys2Proof.Machine.execXordec s
  | .macchk => Sys2Proof.Machine.execMacchk s
  | .discard => Sys2Proof.Machine.execDiscard s
  | .release => Sys2Proof.Machine.execRelease s

end Sys2Proof.Machine
end

