-- ==== Sys2Proof/Machine/Turns.lean ====
section
/-! DEFINITION. What the step fetches and how it treats a turn of the agenda: the host's accesses
(30 R100, R105), the sequencer's stage (30 R101, 10 R35), reset (70 R261). `ex` is what executes an
operation: `exec` for the machine (Step.lean), `execWith cfg` for the same machine over other
parameters (Parametric.lean). -/

namespace Sys2Proof.Machine

/-- The decoded form taken up in state `s`: an operation is executed; the accesses of 30 R105 return
0 or do nothing; at PHASE 0 the sequencer waits (70 R263, log 24); the rest has no move (U12). -/
def takeUp (ex : Instr → State → Result) (d : Decoded) (s : State) : Result :=
  match d with
  | .op i => ex i s
  | .readsZero => .next (s.setAnswer (.word 0))
  | .ignored => .next s
  | .idle => .next s
  | .undefinedRegister => .fault (.undefinedAccess .undefinedRegister)
  | .undefinedDirection => .fault (.undefinedAccess .undefinedDirection)
  | .undefinedSpace => .fault (.undefinedAccess .undefinedSpace)
  | .undefinedStage => .fault (.undefinedAccess .undefinedStage)

/-- The host makes the access `a` (20 R71). -/
def hostTurn (ex : Instr → State → Result) (a : HostAccess) (s : State) : Result :=
  takeUp ex (decode (.host a)) s

/-- The sequencer executes the stage that PHASE selects (10 R35). -/
def sequencerTurn (ex : Instr → State → Result) (s : State) : Result :=
  takeUp ex (decode (.stage (phaseCode s.phase))) s

/-- The next turn: the head of the agenda, or the sequencer's when the agenda is empty (log 1). -/
def takeTurn (ex : Instr → State → Result) (s : State) : Result :=
  match s.agenda with
  | [] => sequencerTurn ex s
  | .host a :: rest => hostTurn ex a (s.setAgenda rest)
  | .sequencer :: rest => sequencerTurn ex (s.setAgenda rest)
  | .reset :: rest => .next (s.setAgenda rest).afterReset

/-- `s` with the encoded operation as the very next turn: a host access at the head of the agenda; a
stage by setting PHASE, and BUSY with it, and giving the sequencer the turn (log 15). A code that
is no PHASE changes nothing. -/
def placeNext (e : Encoded) (s : State) : State :=
  match e with
  | .host a => s.setAgenda (.host a :: s.agenda)
  | .stage code =>
    match phaseOfCode code with
    | some p =>
      { s with phase := p, busy := decide (p ≠ .idle), agenda := .sequencer :: s.agenda }
    | none => s

end Sys2Proof.Machine
end

