-- ==== Sys2Proof/Machine/Step.lean ====
section
/-! DEFINITION. One step of the block: one turn (20 R65: every host operation and every stage is one
atomic step). -/

namespace Sys2Proof.Machine

/-- One step. -/
def step (s : State) : Host.Outcome State Fault Refusal := takeTurn exec s

/-- `s` with the operation of an opcode-table word as its very next turn (log 14, log 15). -/
def State.withFetchWord (s : State) (nbits w : Nat) : State := placeNext (tableEncoded nbits w) s

end Sys2Proof.Machine
end

