-- ==== Sys2Proof/Machine/Bus.lean ====
section
/-! DEFINITION. Where the register window and the two buffers sit on the host bus (10 R38, 20 R67):
register k at BASE + 4k, IN byte a at IN_BASE + a, OUT byte a at OUT_BASE + a. The three windows
are taken not to overlap; where they would, the register window is looked at first, then IN
(DESIGN CHOICE, log 19). How far the two buffer windows reach is the model's choice too (DESIGN
CHOICE, log 28), and so are the bits of the bus data that carry a byte (DESIGN CHOICE, log 29). -/

namespace Sys2Proof.Machine

/-- The bus address of register `k` (10 R38). -/
def regAddress (cfg : Config) (k : Nat) : Nat := cfg.base + 4 * k
/-- The bus address of IN byte `a`. -/
def inAddress (cfg : Config) (a : Nat) : Nat := cfg.inBase + a
/-- The bus address of OUT byte `a`. -/
def outAddress (cfg : Config) (a : Nat) : Nat := cfg.outBase + a

/-- What a bus address names. -/
inductive Location where
  | reg (k : Nat)
  | inByte (a : Nat)
  | outByte (a : Nat)
deriving DecidableEq, Repr

/-- The location of a bus address. An address inside the register window at an offset other than 4k
names nothing (20 R63). The spec leaves open where the IN and OUT windows end on the bus. DESIGN
CHOICE (log 28): they end with the last byte of their space, MAX_ENV_LEN and MAX_ENV_LEN - 97, so
a bus address past it is no access at all, neither an out-of-range WRENV nor an out-of-range
RDOUT (20 R69); the operations themselves take every address. -/
def locate (cfg : Config) (x : Nat) : Option Location :=
  if cfg.base ≤ x ∧ x < cfg.base + 20 then
    if (x - cfg.base) % 4 = 0 then some (.reg ((x - cfg.base) / 4)) else none
  else if cfg.inBase ≤ x ∧ x < cfg.inBase + cfg.maxEnvLen then some (.inByte (x - cfg.inBase))
  else if cfg.outBase ≤ x ∧ x < cfg.outBase + cfg.outSize then some (.outByte (x - cfg.outBase))
  else none

/-- The host access that a bus access is, if it is one (30 R100). The byte lanes are open (20 R62, D20).
DESIGN CHOICE (log 29): at every IN address WRENV's byte is bits 7:0 of the bus data, and bits
31:8 are ignored. -/
def busAccess (cfg : Config) (write : Bool) (x : Nat) (data : Word32) (key : PrivKey) :
    Option HostAccess :=
  match locate cfg x with
  | some (.reg k) => some ⟨namingWord 0 write (BitVec.ofNat 3 k), 0, data, key⟩
  | some (.inByte a) => some ⟨namingWord 1 write 0, BitVec.ofNat 32 a, data, key⟩
  | some (.outByte a) => some ⟨namingWord 2 write 0, BitVec.ofNat 32 a, data, key⟩
  | none => none

end Sys2Proof.Machine
end

