-- ==== Sys2Proof/Machine/Parametric.lean ====
section
/-! DEFINITION. The block over any parameters (00 R10: "which the model takes as arguments"). The
machine is this at `Config.chip`; the numeric vectors of 95_test_vectors.md run it at the standard
delegates. -/

namespace Sys2Proof.Machine

/-- `exec` over any parameters. -/
def execWith (cfg : Config) (i : Instr) (s : State) : Result :=
  match i with
  | .start data => execStart data s
  | .rdstatus => execRdstatus s
  | .wrlen data => execWrlen data s
  | .rdlen => execRdlen s
  | .rdoutlen => execRdoutlen s
  | .wrkey key => execWrkey key s
  | .wrenv addr data => wrenvWith cfg addr data s
  | .rdout addr => rdoutWith cfg addr s
  | .unpack => unpackWith cfg s
  | .agree => agreeWith cfg s
  | .derive => deriveWith cfg s
  | .split => execSplit s
  | .xordec => xordecWith cfg s
  | .macchk => macchkWith cfg s
  | .discard => execDiscard s
  | .release => releaseWith cfg s

/-- `step` over any parameters. -/
def stepWith (cfg : Config) (s : State) : Result := takeTurn (execWith cfg) s

/-- `n` steps over any parameters, stopping at the first fault or refusal. -/
def runWith (cfg : Config) : Nat → State → Result
  | 0, s => .next s
  | n + 1, s =>
    match stepWith cfg s with
    | .next t => runWith cfg n t
    | .fault f => .fault f
    | .refused r => .refused r

end Sys2Proof.Machine
end

