-- ==== Sys2Proof/Machine/Script.lean ====
section
/-! DEFINITION. The pseudo-operations of 30 R108. LOADENV is a list of operations. WAIT, READOUT and
DECRYPT choose their next operation by what a read returned, so they are runs of the host against
the block, beside a schedule that says which turns the other agents take in between (log 31). Host
scripts without a choice are turns of the agenda (95 section 3). -/

namespace Sys2Proof.Machine

/-- An operation as a turn: the host's access, or the sequencer's turn for a stage. -/
def turnOf (i : Instr) : Turn :=
  match encode i with
  | .host a => .host a
  | .stage _ => .sequencer

/-- A list of operations as an agenda. -/
def script (l : List Instr) : List Turn := l.map turnOf

/-! ### The operations before WAIT -/

/-- WRENV a, B[0]; WRENV a+1, B[1]; .... -/
def storeBytes (a : Nat) : Bytes → List Instr
  | [] => []
  | b :: bs => .wrenv a b :: storeBytes (a + 1) bs

/-- LOADENV B for an envelope that fits the buffer: every byte, then WRLEN len(B). -/
def loadEnv (b : Bytes) : List Instr := storeBytes 0 b ++ [.wrlen (BitVec.ofNat 32 b.length)]

/-- How an envelope is presented: LOADENV where it fits; a longer one by writing ENVLEN only. A length
of 2^32 or more is no value of ENVLEN, so such an envelope cannot be presented; its low 32 bits
are written (DESIGN CHOICE, log 31). -/
def presentEnv (cfg : Config) (b : Bytes) : List Instr :=
  if b.length ≤ cfg.maxEnvLen then loadEnv b else [.wrlen (BitVec.ofNat 32 b.length)]

/-- The part of DECRYPT B, k before WAIT: LOADENV B; WRKEY k; START. -/
def decryptScript (cfg : Config) (b : Bytes) (k : PrivKey) : List Instr :=
  presentEnv cfg b ++ [.wrkey k, .start 1]

/-! ### A host that looks at what it read -/

/-- What the other agents do before the host's first, second, ... operation. Where it ends, the host has
no further turn. -/
abbrev Schedule := List (List Turn)

/-- How a run of the host comes out. -/
inductive HostRun (α : Type) where
  /-- It ended with `r`; `later` is what is left of the schedule. -/
  | returned (r : α) (later : Schedule) (s : State)
  /-- The schedule ended first. -/
  | pending (s : State)
  /-- The block stopped with a fault. -/
  | faulted (f : Fault)
  /-- The model refused a step. -/
  | refused (r : Refusal)
deriving DecidableEq, Repr

/-- Go on with the result of a run. -/
def HostRun.andThen {α β : Type} (x : HostRun α) (f : α → Schedule → State → HostRun β) :
    HostRun β :=
  match x with
  | .returned r later s => f r later s
  | .pending s => .pending s
  | .faulted e => .faulted e
  | .refused e => .refused e

/-- These turns now, ahead of whatever the agenda holds. -/
def takeTurns (cfg : Config) : List Turn → State → Result
  | [], s => .next s
  | u :: us, s =>
    match stepWith cfg (s.setAgenda (u :: s.agenda)) with
    | .next t => takeTurns cfg us t
    | .fault f => .fault f
    | .refused r => .refused r

/-- The host performs the operation `i` when the schedule next gives it a turn, and has what the last
read returned. -/
def issue (cfg : Config) (i : Instr) (sched : Schedule) (s : State) : HostRun HostAnswer :=
  match sched with
  | [] => .pending s
  | gap :: later =>
    match takeTurns cfg (gap ++ [turnOf i]) s with
    | .next t => .returned t.answer later t
    | .fault f => .faulted f
    | .refused r => .refused r

/-- The host performs the operations in order. -/
def issueAll (cfg : Config) : List Instr → Schedule → State → HostRun Unit
  | [], sched, s => .returned () sched s
  | i :: is, sched, s => (issue cfg i sched s).andThen fun _ later t => issueAll cfg is later t

/-- The 32-bit value that a register read returned. -/
def answerWord : HostAnswer → Word32
  | .word v => v
  | .byte v => v.setWidth 32
  | .none => 0

/-- The byte that a read of OUT returned. -/
def answerByte (v : HostAnswer) : Byte := (answerWord v).setWidth 8

/-- v[1], DONE, of a STATUS value (10 R40). -/
def wordDone (v : Word32) : Bool := v.getLsbD 1

/-- v[6:4], ERR, of a STATUS value (10 R40). -/
def wordErr (v : Word32) : BitVec 3 := v.extractLsb' 4 3

/-! ### WAIT, READOUT, DECRYPT -/

/-- WAIT: RDSTATUS -> v, again and again until v[1] = 1. The schedule alone bounds it. -/
def waitDone (cfg : Config) : Schedule → State → HostRun Unit
  | [], s => .pending s
  | gap :: later, s =>
    (issue cfg .rdstatus [gap] s).andThen fun v _ t =>
      if wordDone (answerWord v) then .returned () later t else waitDone cfg later t

/-- RDOUT a -> P[0]; RDOUT a+1 -> P[1]; ...: `m` bytes. -/
def readBytes (cfg : Config) (a : Nat) : Nat → Schedule → State → HostRun Bytes
  | 0, sched, s => .returned [] sched s
  | m + 1, sched, s =>
    (issue cfg (.rdout a) sched s).andThen fun v later t =>
      (readBytes cfg (a + 1) m later t).andThen fun p later' t' =>
        .returned (answerByte v :: p) later' t'

/-- READOUT -> P: RDOUTLEN -> m, then the bytes 0 to m-1. -/
def readOut (cfg : Config) (sched : Schedule) (s : State) : HostRun Bytes :=
  (issue cfg .rdoutlen sched s).andThen fun v later t =>
    readBytes cfg 0 (answerWord v).toNat later t

/-- DECRYPT after WAIT: RDSTATUS -> v; Ok of READOUT if v[6:4] = 0, else Err(v[6:4]). -/
def collect (cfg : Config) (sched : Schedule) (s : State) : HostRun (Except (BitVec 3) Bytes) :=
  (issue cfg .rdstatus sched s).andThen fun v later t =>
    if wordErr (answerWord v) = 0 then
      (readOut cfg later t).andThen fun p later' t' => .returned (.ok p) later' t'
    else .returned (.error (wordErr (answerWord v))) later t

/-- DECRYPT B, k -> r. -/
def decryptCall (cfg : Config) (b : Bytes) (k : PrivKey) (sched : Schedule) (s : State) :
    HostRun (Except (BitVec 3) Bytes) :=
  (issueAll cfg (decryptScript cfg b k) sched s).andThen fun _ later t =>
    (waitDone cfg later t).andThen fun _ later' t' => collect cfg later' t'

/-- What DECRYPT returns for a result of `decrypt`: the error by its code (60 R221). -/
def hostResult (r : Except ErrKind Bytes) : Except (BitVec 3) Bytes :=
  r.mapError fun e => errCode (some e)

end Sys2Proof.Machine
end

