-- ==== Sys2Proof/Machine/System.lean ====
section
/-! DEFINITION. N_INST independent instances (10 R49, 60 R237). Each has its own whole state; a step
of the system is a step of one instance; the delegates are functions and so shared without effect
(20 R76). Whether each instance has parameters of its own is open: here all instances have one
MAX_ENV_LEN, one set of bus bases and one set of delegates (DESIGN CHOICE, log 32). -/

namespace Sys2Proof.Machine

/-- The instances, by number. -/
structure System where
  instances : List State
deriving DecidableEq, Repr

/-- N_INST instances after reset, each with its own number and so with its own free draws (log 30), all
over the one `Config.chip` (DESIGN CHOICE, log 32). -/
def System.reset : System :=
  ⟨(List.range Config.chip.instances).map fun i => { State.reset with unit := i }⟩

/-- Instance `i` takes one step; an instance that does not exist, or whose step stops, gives none.
Every instance steps by the one `step`, at the one `Config.chip` (DESIGN CHOICE, log 32). -/
def System.stepAt (y : System) (i : Nat) : Option System :=
  match y.instances[i]? with
  | none => none
  | some s =>
    match step s with
    | .next t => some ⟨y.instances.set i t⟩
    | .fault _ => none
    | .refused _ => none

end Sys2Proof.Machine
end

