-- ==== Sys2Proof/Machine/Transaction.lean ====
section
/-! DEFINITION. The transaction-level contract (00 R12, 45 R190, R191): one call of `decrypt` as a
function of the envelope, the key and the delegates; what it asks of the delegates (45 R203); and
how its result is read off the state (30 R98). -/

namespace Sys2Proof.Machine

/-- unpack(B) (40 R120), without the capacity of a buffer: the key region, the ciphertext, the tag. -/
def unpackOf (b : Bytes) : Except ErrKind (Bytes × Bytes × Bytes) :=
  if b.length < 97 then .error .invalidEnvelope
  else .ok (sliceBytes b 0 65, sliceBytes b 65 (b.length - 32),
    sliceBytes b (b.length - 32) b.length)

/-- K2 of a call (45 R191). -/
def macKey (cfg : Config) (epk z ct : Bytes) : Bytes := macKeyOf cfg (epk ++ z) ct.length

/-- K1 of a call (45 R191): as long as the ciphertext, by its type. -/
def cipherKey (cfg : Config) (epk z ct : Bytes) : BytesN ct.length :=
  cipherKeyOf cfg (epk ++ z) ct.length

/-- decrypt once the secret is agreed (45 R191, from `km = ...`). -/
def openEnvelope (cfg : Config) (epk z ct tag : Bytes) : Except ErrKind Bytes :=
  if (computeTag cfg (macKey cfg epk z ct) ct).val = tag then
    .ok (applyStream ⟨ct, rfl⟩ (cipherKey cfg epk z ct)).val
  else .error .macMismatch

/-- decrypt once the envelope is unpacked (45 R191, from `case EC.parse(epk)`). -/
def decryptRegions (cfg : Config) (epk ct tag : Bytes) (k : PrivKey) : Except ErrKind Bytes :=
  match agreeOf cfg k epk with
  | .error e => .error e
  | .ok z => openEnvelope cfg epk z.val ct tag

/-- decrypt(B, sk) (45 R191), the capacity clause included. -/
def decrypt (cfg : Config) (b : Bytes) (k : PrivKey) : Except ErrKind Bytes :=
  if b.length ≤ cfg.maxEnvLen then
    match unpackOf b with
    | .error e => .error e
    | .ok (epk, ct, tag) => decryptRegions cfg epk ct tag k
  else .error .invalidEnvelope

/-- The SHA256 requests of a call: counters 1 to `ceil_div(n + 16, 32)` (45 R203). -/
def hashRequests (epk z ct : Bytes) : List Request :=
  (List.range (ceilDiv (ct.length + 16) 32)).map fun i =>
    .sha256 (epk ++ z ++ be32 (BitVec.ofNat 32 (i + 1)))

/-- The request trace of a call on the regions of an envelope (45 R203). -/
def regionRequests (cfg : Config) (epk ct : Bytes) (k : PrivKey) : List Request :=
  match requestParse cfg epk with
  | none => [.ecParse epk]
  | some p =>
    match requestEcdh cfg k p with
    | none => [.ecParse epk, .ecEcdh k p]
    | some z =>
      [.ecParse epk, .ecEcdh k p] ++ hashRequests epk z.val ct
        ++ [.hmac (macKey cfg epk z.val ct) (macMessage ct)]

/-- The request trace of a call, by outcome (45 R203). -/
def callRequests (cfg : Config) (b : Bytes) (k : PrivKey) : List Request :=
  if b.length ≤ cfg.maxEnvLen then
    match unpackOf b with
    | .error _ => []
    | .ok (epk, ct, _) => regionRequests cfg epk ct k
  else []

/-- The plaintext `OUT[0..OUTLEN)` as the host reads it (30 R98). -/
def releasedBytes (cfg : Config) (s : State) : Bytes :=
  (List.range s.outlen.toNat).map fun a => if outReadable s a then outByte cfg s a else 0

/-- The result of the last call, once DONE = 1 (30 R98). -/
def callResult (cfg : Config) (s : State) : Option (Except ErrKind Bytes) :=
  if s.done then
    match s.err with
    | some e => some (.error e)
    | none => some (.ok (releasedBytes cfg s))
  else none

/-- An envelope `V ‖ c ‖ t` is conformant for the plaintext `p` and the key `k` (45 R206). -/
def conformant (cfg : Config) (k : PrivKey) (p v c t : Bytes) : Prop :=
  v.length = 65 ∧ ∃ pk z, requestParse cfg v = some pk ∧ requestEcdh cfg k pk = some z ∧
    c = (applyStream ⟨p, rfl⟩ (cipherKeyOf cfg (v ++ z.val) p.length)).val ∧
    t = (requestHmac cfg (macKeyOf cfg (v ++ z.val) p.length) (c ++ zeros 8)).val

end Sys2Proof.Machine
end

