-- ==== Sys2Proof/Safety.lean ====
section
/-! DEFINITION. What a good state of the block is (10 R51 and what the stage rules leave in the
datapath), what the host can see (10 R40 to R45), and which agendas the spec gives a behaviour. -/

namespace Sys2Proof.Machine

/-! ### The state invariants of 10 R51 -/

/-- R51 (a) to (g). -/
structure StateInvariants (cfg : Config) (s : State) : Prop where
  /-- (a) BUSY = 1 iff PHASE != 0. -/
  busy_iff : s.busy = true ↔ s.phase ≠ .idle
  /-- (b) not (BUSY = 1 and DONE = 1). -/
  not_busy_and_done : ¬(s.busy = true ∧ s.done = true)
  /-- (c) ERR != 0 implies DONE = 1 and OUTLEN = 0. -/
  err_done : s.err ≠ none → s.done = true ∧ s.outlen = 0
  /-- (d) DONE = 0 implies ERR = 0 and OUTLEN = 0. -/
  not_done : s.done = false → s.err = none ∧ s.outlen = 0
  /-- (e) PHASE = 0 implies every transient register is invalid. -/
  idle_invalid : s.phase = .idle → s.tr = Transients.invalid
  /-- (f) BUSY = 1 implies KEYV = 1. -/
  busy_keyv : s.busy = true → s.keyv = true
  /-- (g) OUTLEN <= MAX_ENV_LEN - 97. -/
  outlen_le : s.outlen.toNat ≤ cfg.outSize

/-! ### The datapath of a call, stage by stage -/

/-- ENVLEN as a number. -/
def envLength (s : State) : Nat := s.envlen.toNat

/-- n, the ciphertext length of the envelope in the buffer (10 R24). -/
def envCtLen (s : State) : Nat := ciphertextLength (envLength s)

/-- The key region ENV[0..65). -/
def envEpk (cfg : Config) (s : State) : BytesN 65 := inBytesN cfg s 0 65

/-- The view CT = ENV[65..65+n). -/
def envCt (cfg : Config) (s : State) : BytesN (envCtLen s) := inBytesN cfg s ctStart (envCtLen s)

/-- The tag region ENV[N-32..N). -/
def envTag (cfg : Config) (s : State) : BytesN 32 := inBytesN cfg s (tagStart (envLength s)) 32

/-- The whole envelope ENV[0..ENVLEN). -/
def envelope (cfg : Config) (s : State) : Bytes := inBytes cfg s 0 (envLength s)

/-- The registers after UNPACK (40 R121). -/
def unpacked (cfg : Config) (s : State) : Transients :=
  { Transients.invalid with
    epk := some (envEpk cfg s)
    ctlen := some (BitVec.ofNat 32 (envCtLen s))
    tag := some (envTag cfg s) }

/-- The registers after AGREE (41 R133). -/
def agreed (cfg : Config) (s : State) (p : Point) (z : BytesN 32) : Transients :=
  { unpacked cfg s with pk := some p, z := some z }

/-- The registers after DERIVE (42 R150). -/
def derived (cfg : Config) (s : State) (p : Point) (z : BytesN 32) : Transients :=
  { agreed cfg s p z with
    seed := some (seedOf (envEpk cfg s) z)
    ctr := some (kdfRun cfg (seedOf (envEpk cfg s) z).val (envCtLen s + 16)).ctr
    km := some (kdf cfg (seedOf (envEpk cfg s) z).val (envCtLen s + 16)) }

/-- K2 and K1 are the two parts of the key material (42 R153). -/
def keysSplit (cfg : Config) (s : State) (z : BytesN 32) (k2 : BytesN 16)
    (k1 : BytesN (envCtLen s)) : Prop :=
  k2.val ++ k1.val = kdf cfg (seedOf (envEpk cfg s) z).val (envCtLen s + 16)

/-- The registers after SPLIT (42 R153). -/
def keyed (cfg : Config) (s : State) (p : Point) (z : BytesN 32) (k2 : BytesN 16)
    (k1 : BytesN (envCtLen s)) : Transients :=
  { derived cfg s p z with k2 := some k2, k1 := some k1.val }

/-- The registers after XORDEC (43 R166). -/
def decrypted (cfg : Config) (s : State) (p : Point) (z : BytesN 32) (k2 : BytesN 16)
    (k1 : BytesN (envCtLen s)) : Transients :=
  { keyed cfg s p z k2 k1 with pt := some (applyStream (envCt cfg s) k1).val }

/-- The registers after MACCHK (44 R179). -/
def checked (cfg : Config) (s : State) (p : Point) (z : BytesN 32) (k2 : BytesN 16)
    (k1 : BytesN (envCtLen s)) : Transients :=
  { decrypted cfg s p z k2 k1 with
    tagc := some (computeTag cfg k2.val (envCt cfg s).val)
    matched := some (tagsMatch (computeTag cfg k2.val (envCt cfg s).val) (envTag cfg s)) }

/-- The envelope could be sliced and the secret was agreed (stages 1 and 2 succeeded). -/
def agreedWith (cfg : Config) (s : State) (p : Point) (z : BytesN 32) : Prop :=
  regionsExist cfg (envLength s) = true ∧ requestParse cfg (envEpk cfg s).val = some p ∧
    ∃ k, s.sk = some k ∧ requestEcdh cfg k p = some z

/-- What the transient registers hold, by the stage that is next: exactly what the stages before it
wrote from the envelope, the key and the delegates' answers. -/
def DatapathOk (cfg : Config) (s : State) : Prop :=
  match s.phase with
  | .idle => s.tr = Transients.invalid
  | .unpack => s.tr = Transients.invalid
  | .agree => regionsExist cfg (envLength s) = true ∧ s.tr = unpacked cfg s
  | .derive => ∃ p z, agreedWith cfg s p z ∧ s.tr = agreed cfg s p z
  | .split => ∃ p z, agreedWith cfg s p z ∧ s.tr = derived cfg s p z
  | .xordec => ∃ p z k2 k1, agreedWith cfg s p z ∧ keysSplit cfg s z k2 k1 ∧
      s.tr = keyed cfg s p z k2 k1
  | .macchk => ∃ p z k2 k1, agreedWith cfg s p z ∧ keysSplit cfg s z k2 k1 ∧
      s.tr = decrypted cfg s p z k2 k1
  | .discard => ∃ p z k2 k1, agreedWith cfg s p z ∧ keysSplit cfg s z k2 k1 ∧
      s.tr = checked cfg s p z k2 k1 ∧ s.tr.matched = some false
  | .release => ∃ p z k2 k1, agreedWith cfg s p z ∧ keysSplit cfg s z k2 k1 ∧
      s.tr = checked cfg s p z k2 k1 ∧ s.tr.matched = some true

/-- Both memories have their canonical form. -/
def MemoriesCanonical (s : State) : Prop :=
  memoryWf s.inMem = true ∧ memoryWf s.outMem = true

/-- The invariant that every step keeps. -/
structure Good (cfg : Config) (s : State) : Prop where
  /-- 10 R51. -/
  invariants : StateInvariants cfg s
  /-- KEYV says whether the key slot holds a key (10 R37, R43). -/
  key_slot : s.keyv = s.sk.isSome
  /-- A finished call had a key, and only reset takes it away (45 R194). -/
  done_keyv : s.done = true → s.keyv = true
  /-- The canonical form. -/
  canonical : MemoriesCanonical s
  /-- The IN space has MAX_ENV_LEN bytes (10 R44). -/
  in_below : memoryBelow cfg.maxEnvLen s.inMem = true
  /-- The OUT space has MAX_ENV_LEN - 97 bytes (10 R45). -/
  out_below : memoryBelow cfg.outSize s.outMem = true
  /-- Every byte the OUT gate lets through has been released. -/
  out_written : ∀ a, a < s.outlen.toNat → (memoryFind s.outMem a).isSome = true
  /-- The datapath. -/
  datapath : DatapathOk cfg s

/-! ### What the host can see -/

/-- Everything a host read can return: STATUS, ENVLEN, OUTLEN, and the OUT space through its gate
(10 R40 to R45). -/
def hostView (cfg : Config) (s : State) : Word32 × Word32 × Word32 × Bytes :=
  (statusWord s, s.envlen, s.outlen,
    (List.range cfg.outSize).map fun a => if outReadable s a then outByte cfg s a else 0)

/-! ### Agendas -/

/-- The access is an operation or one of the accesses of 30 R105. -/
def accessDefined (a : HostAccess) : Bool :=
  match decode (.host a) with
  | .op _ => true
  | .readsZero => true
  | .ignored => true
  | .idle => true
  | .undefinedRegister => false
  | .undefinedDirection => false
  | .undefinedSpace => false
  | .undefinedStage => false

/-- A turn the spec gives a behaviour. -/
def turnDefined : Turn → Bool
  | .host a => accessDefined a
  | .sequencer => true
  | .reset => true

/-- The turn is not the reset input. -/
def turnNotReset : Turn → Bool
  | .host _ => true
  | .sequencer => true
  | .reset => false

end Sys2Proof.Machine
end

