-- ==== Sys2Proof/Certificates/Slice0/Obligations.lean ====
section
/-! DEFINITION. The statements for the provers. A rule R<n> is a rule of spec/; "log n" is an entry
of notes/assumptions. `Config.chip` is the machine's own parameters, all of them open, so a
statement about it holds for every value of them. -/

open Sys2Proof Sys2Proof.Machine

/-! ### Encodings -/

/-- Decoding the encoding of a well-formed operation gives the operation back, with every operand at
every value the encoding admits (30 R99 to R101). -/
def Obligations.DecodeOfEncodeIsTheOperation : Prop :=
  ∀ i : Instr, i.wellFormed = true → decode (encode i) = .op i

/-- What the decoder answers is well-formed, and the encoded form it was read from is the operation's own
encoding up to bits no operand has: the same naming word under the table's mask 0xFC (bits 1:0 are
not looked at, the model's reading, log 13) and the same operands, those the operation has (WRENV
has one byte, in bits 7:0 of the data, the model's choice, log 29); a stage's form is exactly its
encoding. So no other word is read as the operation (30 R100, R101). -/
def Obligations.DecodedOperationsAreWellFormed : Prop :=
  ∀ (e : Encoded) (i : Instr), decode e = .op i →
    i.wellFormed = true ∧ decode (encode i) = decode e ∧
    match e with
    | .stage _ => encode i = e
    | .host a => ∃ b, encode i = .host b ∧ b.word = a.word &&& 0xFC#8 ∧
        (∀ d, i = .start d ∨ i = .wrlen d → b.data = a.data ∧ d = a.data) ∧
        (∀ k, i = .wrkey k → b.key = a.key ∧ k = a.key) ∧
        (∀ x v, i = .wrenv x v → b.addr = a.addr ∧ x = a.addr.toNat ∧
          b.data.extractLsb' 0 8 = a.data.extractLsb' 0 8 ∧ v = a.data.extractLsb' 0 8) ∧
        (∀ x, i = .rdout x → b.addr = a.addr ∧ x = a.addr.toNat)

/-- Every naming word that matches a HOST row of the opcode table decodes to that row's operation with
the access's own operands, and every PHASE of 1 to 8 to its stage (30 R100, R101). R100 writes bits
1:0 of the word as 00; that words with other bits 1:0 match too is the mask's, and that the model
does not look at them is its own reading (log 13), as is the place of WRENV's byte (log 29). -/
def Obligations.TableRowsDecode : Prop :=
  (∀ a : HostAccess,
    (a.word &&& 0xFC#8 = 0x20#8 → decode (.host a) = .op (.start a.data)) ∧
    (a.word &&& 0xFC#8 = 0x04#8 → decode (.host a) = .op .rdstatus) ∧
    (a.word &&& 0xFC#8 = 0x28#8 → decode (.host a) = .op (.wrlen a.data)) ∧
    (a.word &&& 0xFC#8 = 0x08#8 → decode (.host a) = .op .rdlen) ∧
    (a.word &&& 0xFC#8 = 0x0C#8 → decode (.host a) = .op .rdoutlen) ∧
    (a.word &&& 0xFC#8 = 0x30#8 → decode (.host a) = .op (.wrkey a.key)) ∧
    (a.word &&& 0xFC#8 = 0x60#8 →
      decode (.host a) = .op (.wrenv a.addr.toNat (a.data.setWidth 8))) ∧
    (a.word &&& 0xFC#8 = 0x80#8 → decode (.host a) = .op (.rdout a.addr.toNat))) ∧
  decode (.stage (phaseCode .unpack)) = .op .unpack ∧ phaseCode .unpack = 1#4 ∧
  decode (.stage (phaseCode .agree)) = .op .agree ∧ phaseCode .agree = 2#4 ∧
  decode (.stage (phaseCode .derive)) = .op .derive ∧ phaseCode .derive = 3#4 ∧
  decode (.stage (phaseCode .split)) = .op .split ∧ phaseCode .split = 4#4 ∧
  decode (.stage (phaseCode .xordec)) = .op .xordec ∧ phaseCode .xordec = 5#4 ∧
  decode (.stage (phaseCode .macchk)) = .op .macchk ∧ phaseCode .macchk = 6#4 ∧
  decode (.stage (phaseCode .discard)) = .op .discard ∧ phaseCode .discard = 7#4 ∧
  decode (.stage (phaseCode .release)) = .op .release ∧ phaseCode .release = 8#4

/-- A few words written out from the spec's encodings decode to the operations they stand for (30
R100, R101; the words are those of 95 section 3). -/
def Obligations.WrittenOutWordsDecode : Prop :=
  decode (.host ⟨0b00100000#8, 0, 0x00000001, ⟨0⟩⟩) = .op (.start 1) ∧
  decode (.host ⟨0b00101000#8, 0, 0x00000071, ⟨0⟩⟩) = .op (.wrlen 113) ∧
  decode (.host ⟨0b01100000#8, 112, 0x000000ab, ⟨0⟩⟩) = .op (.wrenv 112 0xab) ∧
  decode (.host ⟨0b10000000#8, 15, 0, ⟨0⟩⟩) = .op (.rdout 15) ∧
  decode (.stage 0b0001#4) = .op .unpack ∧ decode (.stage 0b1000#4) = .op .release

/-- Register k of the window is at BASE + 4k, and a write or a read there is the access of register k;
an address inside the window at another offset names nothing (10 R38, 20 R63; the windows' places
are open, log 19). -/
def Obligations.RegisterWindowAddresses : Prop :=
  ∀ (cfg : Config) (w : Bool) (d : Word32) (key : PrivKey) (k : Nat), k < 5 →
    (∃ a, busAccess cfg w (regAddress cfg k) d key = some a ∧
      wordSpace a.word = 0 ∧ wordIsWrite a.word = w ∧ (wordReg a.word).toNat = k ∧
      a.data = d ∧ a.key = key) ∧
    (∀ o, 0 < o → o < 4 → busAccess cfg w (regAddress cfg k + o) d key = none)

/-! ### Steps -/

/-- A step runs the decoded operation: a host access at the head of the agenda, or the stage that PHASE
selects when the sequencer has the turn; around `exec` it takes the turn off the agenda (log 1). -/
def Obligations.StepRunsTheDecodedOperation : Prop :=
  (∀ s a rest i, s.agenda = .host a :: rest → decode (.host a) = .op i →
    step s = exec i { s with agenda := rest }) ∧
  (∀ s rest i, s.agenda = .sequencer :: rest →
    decode (.stage (phaseCode s.phase)) = .op i → step s = exec i { s with agenda := rest }) ∧
  (∀ s i, s.agenda = [] → decode (.stage (phaseCode s.phase)) = .op i → step s = exec i s)

/-- At PHASE 0 the sequencer waits for START (70 R263; a turn of the agenda may be spent on it, log
24). -/
def Obligations.IdleSequencerWaits : Prop :=
  ∀ s : State, s.phase = .idle →
    (s.agenda = [] → step s = .next s) ∧
    (∀ rest, s.agenda = .sequencer :: rest → step s = .next { s with agenda := rest })

/-- Reads of CTRL and KEY return 0, writes to STATUS and OUTLEN are ignored, and every naming word that
is neither these nor a row of the table has no move: the step stops with its own fault (30 R105,
U12, log 12). -/
def Obligations.AccessesOutsideTheTable : Prop :=
  ∀ s a rest, s.agenda = .host a :: rest →
    (a.word &&& 0xFC#8 = 0x00#8 ∨ a.word &&& 0xFC#8 = 0x10#8 →
      step s = .next { s with agenda := rest, answer := .word 0 }) ∧
    (a.word &&& 0xFC#8 = 0x24#8 ∨ a.word &&& 0xFC#8 = 0x2C#8 →
      step s = .next { s with agenda := rest }) ∧
    (a.word &&& 0xFC#8 ∉ [0x00#8, 0x10#8, 0x24#8, 0x2C#8, 0x20#8, 0x04#8, 0x28#8, 0x08#8,
        0x0C#8, 0x30#8, 0x60#8, 0x80#8] →
      ∃ d, step s = .fault (.undefinedAccess d))

/-- The reset input fires in any state and yields the state of the reset table; the unwritten bytes of
IN are drawn anew (70 R261, R262; 10 R50; what happens to the model's own fields is log 16, what a
draw is indexed by log 5 and log 30). -/
def Obligations.ResetFiresInAnyState : Prop :=
  ∀ s rest, s.agenda = .reset :: rest →
    ∃ t, step s = .next t ∧ t.phase = .idle ∧ t.busy = false ∧ t.done = false ∧
      t.keyv = false ∧ t.err = none ∧ t.envlen = 0 ∧ t.outlen = 0 ∧ t.sk = none ∧
      t.tr = ⟨none, none, none, none, none, none, none, none, none, none, none, none, none⟩ ∧
      t.agenda = rest ∧
      (∀ a, inByte Config.chip t a = Config.chip.inDraw s.unit (s.epoch + 1) a) ∧
      (∀ a, exec (.rdout a) t = .next { t with answer := .byte 0 })

/-- The value of every piece of state after reset (10 R50): PHASE, the four STATUS fields, ENVLEN and
OUTLEN are 0, SK and the transient registers invalid, each IN byte the free draw, every host read
of OUT 0x00, reads of CTRL and KEY 0; and a reset in any state, so also during a call, yields
exactly that, but for the model's own agenda, epoch and instance number (log 16, log 30). -/
def Obligations.ResetStateIsTheTable : Prop :=
  State.reset.phase = .idle ∧ State.reset.busy = false ∧ State.reset.done = false ∧
  State.reset.keyv = false ∧ State.reset.err = none ∧ State.reset.envlen = 0 ∧
  State.reset.outlen = 0 ∧ State.reset.sk = none ∧
  State.reset.tr =
    ⟨none, none, none, none, none, none, none, none, none, none, none, none, none⟩ ∧
  (∀ a, inByte Config.chip State.reset a =
    Config.chip.inDraw State.reset.unit State.reset.epoch a) ∧
  (∀ a, exec (.rdout a) State.reset = .next { State.reset with answer := .byte 0 }) ∧
  (∀ a, a.word = 0x00#8 ∨ a.word = 0x10#8 →
    step { State.reset with agenda := [.host a] } =
      .next { State.reset with answer := .word 0 }) ∧
  (∀ s rest, s.agenda = .reset :: rest → ∃ e,
    step s = .next { State.reset with agenda := rest, epoch := e, unit := s.unit })

/-- The machine is the block over any parameters, at its own (00 R10). -/
def Obligations.MachineIsTheBlockAtItsParameters : Prop :=
  (∀ i s, exec i s = execWith Config.chip i s) ∧
  (∀ s : State, step s = stepWith Config.chip s) ∧
  (∀ n s, Host.Core.run Sys2Proof.core n s = runWith Config.chip n s)

/-! ### The host operations -/

/-- START (45 R193): accepted exactly with data[0] = 1, BUSY = 0 and KEYV = 1, it clears DONE, ERR and
OUTLEN and sets BUSY and PHASE 1; otherwise nothing happens. Of the model's own request trace it
says nothing here (log 8; see CallMakesTheseRequests). -/
def Obligations.StartBeginsACallOrDoesNothing : Prop :=
  (∀ a : HostAccess, a.word &&& 0xFC#8 = 0x20#8 → decode (.host a) = .op (.start a.data)) ∧
  (∀ (d : Word32) (s : State), d.getLsbD 0 = true → s.busy = false → s.keyv = true →
    ∃ r, exec (.start d) s =
      .next { s with
        done := false, err := none, outlen := 0, busy := true, phase := .unpack, trace := r }) ∧
  (∀ (d : Word32) (s : State), (d.getLsbD 0 = false ∨ s.busy = true ∨ s.keyv = false) →
    exec (.start d) s = .next s)

/-- RDSTATUS (45 R194): the fields of STATUS in their places, nothing else changes; the values that can
be read in a good state are the eight the rule lists, and during a call it is 0x05. The field
`answer` stands for the value returned to the host (log 7). -/
def Obligations.StatusReadsItsFields : Prop :=
  (∀ a : HostAccess, a.word &&& 0xFC#8 = 0x04#8 → decode (.host a) = .op .rdstatus) ∧
  (∀ s : State, ∃ v : Word32, exec .rdstatus s = .next { s with answer := .word v } ∧
    v.getLsbD 0 = s.busy ∧ v.getLsbD 1 = s.done ∧ v.getLsbD 2 = s.keyv ∧
    v.getLsbD 3 = false ∧ v.extractLsb' 7 25 = 0 ∧
    v.extractLsb' 4 3 = (match s.err with
      | none => 0#3
      | some .invalidEnvelope => 1#3
      | some .invalidPublicKey => 2#3
      | some .keyAgreementFailure => 3#3
      | some .macMismatch => 4#3)) ∧
  (∀ s : State, Good Config.chip s → ∃ v ∈ [0x00#32, 0x04#32, 0x05#32, 0x06#32, 0x16#32, 0x26#32,
    0x36#32, 0x46#32], exec .rdstatus s = .next { s with answer := .word v }) ∧
  (∀ s : State, Good Config.chip s → s.busy = true →
    exec .rdstatus s = .next { s with answer := .word 0x05 })

/-- WRLEN (45 R195): ENVLEN <- v unless BUSY; nothing else changes. -/
def Obligations.WrlenStoresTheLength : Prop :=
  (∀ a : HostAccess, a.word &&& 0xFC#8 = 0x28#8 → decode (.host a) = .op (.wrlen a.data)) ∧
  (∀ (v : Word32) (s : State), s.busy = false →
    exec (.wrlen v) s = .next { s with envlen := v }) ∧
  (∀ (v : Word32) (s : State), s.busy = true → exec (.wrlen v) s = .next s)

/-- RDLEN (45 R212) returns ENVLEN, BUSY or not. That is the last value written by an accepted WRLEN, or
0 after reset: an accepted WRLEN makes it the value written, reset makes it 0, and no other step
of any agent changes it. RDOUTLEN (45 R197) returns OUTLEN: 0 after reset, during a call and after
any error; after success the ciphertext length ENVLEN - 97 that the call had at its START, though
the host has rewritten ENVLEN since. Nothing else changes. -/
def Obligations.LengthReads : Prop :=
  (∀ a : HostAccess, a.word &&& 0xFC#8 = 0x08#8 → decode (.host a) = .op .rdlen) ∧
  (∀ a : HostAccess, a.word &&& 0xFC#8 = 0x0C#8 → decode (.host a) = .op .rdoutlen) ∧
  (∀ s : State, exec .rdlen s = .next { s with answer := .word s.envlen }) ∧
  (∀ s : State, exec .rdoutlen s = .next { s with answer := .word s.outlen }) ∧
  (∀ (v : Word32) s t, s.busy = false → exec (.wrlen v) s = .next t →
    exec .rdlen t = .next { t with answer := .word v }) ∧
  exec .rdlen State.reset = .next { State.reset with answer := .word 0 } ∧
  (∀ s t : State, step s = .next t →
    (∀ rest, s.agenda = .reset :: rest → t.envlen = 0 ∧ t.outlen = 0) ∧
    ((∀ rest, s.agenda ≠ .reset :: rest) →
      (∀ a rest v, s.agenda = .host a :: rest → decode (.host a) = .op (.wrlen v) →
        s.busy = true) →
      t.envlen = s.envlen)) ∧
  exec .rdoutlen State.reset = .next { State.reset with answer := .word 0 } ∧
  (∀ s : State, Good Config.chip s → (s.busy = true ∨ s.err ≠ none) →
    exec .rdoutlen s = .next { s with answer := .word 0 }) ∧
  (∀ (s : State) (k : PrivKey) (d : Word32),
    s.busy = false → s.keyv = true → s.sk = some k → d.getLsbD 0 = true →
    ∃ t, Host.Core.run Sys2Proof.core 8 { s with agenda := [turnOf (.start d)] } = .next t ∧
      (t.err = none → 97 ≤ s.envlen.toNat ∧
        exec .rdoutlen t = .next { t with answer := .word (s.envlen - 97) } ∧
        ∀ v, ∃ u, exec (.wrlen v) t = .next u ∧ u.envlen = v ∧
          exec .rdoutlen u = .next { u with answer := .word (s.envlen - 97) }))

/-- WRKEY (45 R196): SK <- k and KEYV <- 1 unless BUSY, whatever the key; nothing else changes. -/
def Obligations.WrkeyLoadsTheSlot : Prop :=
  (∀ a : HostAccess, a.word &&& 0xFC#8 = 0x30#8 → decode (.host a) = .op (.wrkey a.key)) ∧
  (∀ (k : PrivKey) (s : State), s.busy = false →
    exec (.wrkey k) s = .next { s with sk := some k, keyv := true }) ∧
  (∀ (k : PrivKey) (s : State), s.busy = true → exec (.wrkey k) s = .next s)

/-- WRENV (40 R124): one byte of IN is stored unless BUSY or out of range, every other byte of IN and
everything else is as before; otherwise nothing happens. Which bits of the access carry the byte
is open in the spec and not said here (the model's choice is log 29; TableRowsDecode says it). -/
def Obligations.WrenvStoresOneByte : Prop :=
  (∀ a : HostAccess, a.word &&& 0xFC#8 = 0x60#8 →
    ∃ v, decode (.host a) = .op (.wrenv a.addr.toNat v)) ∧
  (∀ (a : Nat) (v : Byte) (s : State), s.busy = false → a < Config.chip.maxEnvLen →
    ∃ m, exec (.wrenv a v) s = .next { s with inMem := m } ∧
      inByte Config.chip { s with inMem := m } a = v ∧
      ∀ b, b ≠ a → inByte Config.chip { s with inMem := m } b = inByte Config.chip s b) ∧
  (∀ (a : Nat) (v : Byte) (s : State), (s.busy = true ∨ Config.chip.maxEnvLen ≤ a) →
    exec (.wrenv a v) s = .next s)

/-- RDOUT (45 R198): the stored byte if DONE = 1, ERR = 0 and the address is below OUTLEN, else 0x00;
nothing else changes. -/
def Obligations.RdoutReadsThroughTheGate : Prop :=
  (∀ a : HostAccess, a.word &&& 0xFC#8 = 0x80#8 →
    decode (.host a) = .op (.rdout a.addr.toNat)) ∧
  (∀ (a : Nat) (s : State), s.done = true → s.err = none → a < s.outlen.toNat →
    exec (.rdout a) s = .next { s with answer := .byte (outByte Config.chip s a) }) ∧
  (∀ (a : Nat) (s : State), (s.done = false ∨ s.err ≠ none ∨ s.outlen.toNat ≤ a) →
    exec (.rdout a) s = .next { s with answer := .byte 0x00 })

/-- Reads have no side effects and repeat with the same value; the three stores are idempotent; and
START is the only host operation that touches anything but the value it stores: a WRENV touches IN
alone, a WRLEN ENVLEN alone, a WRKEY the key slot and its KEYV alone (20 R66). -/
def Obligations.ReadsHaveNoSideEffectsAndStoresAreIdempotent : Prop :=
  (∀ i ∈ [Instr.rdstatus, .rdlen, .rdoutlen], ∀ s : State, ∃ t,
    exec i s = .next t ∧ t = { s with answer := t.answer } ∧ exec i t = .next t) ∧
  (∀ a s, ∃ t, exec (.rdout a) s = .next t ∧ t = { s with answer := t.answer } ∧
    exec (.rdout a) t = .next t) ∧
  (∀ a v s, ∃ t, exec (.wrenv a v) s = .next t ∧ exec (.wrenv a v) t = .next t ∧
    t = { s with inMem := t.inMem } ∧
    ∀ b, b ≠ a → inByte Config.chip t b = inByte Config.chip s b) ∧
  (∀ v s, ∃ t, exec (.wrlen v) s = .next t ∧ exec (.wrlen v) t = .next t ∧
    t = { s with envlen := t.envlen }) ∧
  (∀ k s, ∃ t, exec (.wrkey k) s = .next t ∧ exec (.wrkey k) t = .next t ∧
    t = { s with sk := t.sk, keyv := t.keyv })

/-- While BUSY the four host writes are ignored, and no step of any agent but reset changes the
envelope, its length or the key, nor does the START that begins the call: a call reads them as they
were when its START was accepted (20 R68). -/
def Obligations.InputsAreLockedDuringACall : Prop :=
  (∀ s : State, s.busy = true → (∀ a v, exec (.wrenv a v) s = .next s) ∧
    (∀ v, exec (.wrlen v) s = .next s) ∧ (∀ k, exec (.wrkey k) s = .next s) ∧
    (∀ d, exec (.start d) s = .next s)) ∧
  (∀ s t : State, s.busy = true → (∀ rest, s.agenda ≠ .reset :: rest) → step s = .next t →
    (∀ a, inByte Config.chip t a = inByte Config.chip s a) ∧ t.envlen = s.envlen ∧
    t.sk = s.sk ∧ t.keyv = s.keyv) ∧
  (∀ d (s t : State), exec (.start d) s = .next t →
    (∀ a, inByte Config.chip t a = inByte Config.chip s a) ∧ t.envlen = s.envlen ∧
    t.sk = s.sk ∧ t.keyv = s.keyv)

/-- A host turn while BUSY changes nothing of the block: whatever the host does during a call, the call
goes on from the same state (20 R71 (b), 30 R104). -/
def Obligations.HostTurnsDoNotDisturbACall : Prop :=
  ∀ s a rest, s.busy = true → s.agenda = .host a :: rest → accessDefined a = true →
    ∃ v, step s = .next { s with agenda := rest, answer := v }

/-! ### Errors -/

/-- `raise K`, one atomic step (60 R226): every transient register invalid, OUTLEN 0, the kind's code,
BUSY 0, DONE 1, PHASE 0, and nothing else; the codes are 1 to 4 in the order of the kinds. -/
def Obligations.RaiseIsOneAtomicStep : Prop :=
  (∀ (s : State) (k : ErrKind), s.raise k =
    { s with
      tr := ⟨none, none, none, none, none, none, none, none, none, none, none, none, none⟩
      outlen := 0
      err := some k
      busy := false
      done := true
      phase := .idle }) ∧
  errCode (some .invalidEnvelope) = 1#3 ∧ errCode (some .invalidPublicKey) = 2#3 ∧
  errCode (some .keyAgreementFailure) = 3#3 ∧ errCode (some .macMismatch) = 4#3

/-- Only UNPACK, AGREE and DISCARD raise, each its own kinds, and a stage that raises has written
nothing but what `raise` writes and the requests it made (60 R220, R221, R227). -/
def Obligations.ErrorsArePreciseAndHaveTheirStage : Prop :=
  ∀ (i : Instr) s t k, i.format = .stage → exec i s = .next t → t.phase = .idle →
    t.err = some k →
    t = { s.raise k with trace := t.trace } ∧
    ((i = .unpack ∧ k = .invalidEnvelope) ∨
      (i = .agree ∧ (k = .invalidPublicKey ∨ k = .keyAgreementFailure)) ∨
      (i = .discard ∧ k = .macMismatch))

/-- A stage that would read a register that holds `invalid` stops, whichever one operand is missing and
whatever the others hold (00 R15, 10 R22: the spec gives such a read no meaning). That it stops
with a fault of that register's name, and that with several missing it names the first the stage
comes to, is the model's choice (log 9). AGREE reads SK only after a successful parse; that clause
is over any parameters, since the machine's own EC.parse is open. -/
def Obligations.InvalidRegistersAreNotRead : Prop :=
  ∀ s : State,
    (s.tr.epk = none → exec .agree s = .fault (.invalidRegister .epk)) ∧
    (∀ (cfg : Config) (epk : BytesN 65) p, s.tr.epk = some epk →
      requestParse cfg epk.val = some p → s.sk = none →
      execWith cfg .agree s = .fault (.invalidRegister .sk)) ∧
    (s.tr.epk = none → exec .derive s = .fault (.invalidRegister .epk)) ∧
    (s.tr.epk ≠ none → s.tr.z = none → exec .derive s = .fault (.invalidRegister .z)) ∧
    (s.tr.epk ≠ none → s.tr.z ≠ none → s.tr.ctlen = none →
      exec .derive s = .fault (.invalidRegister .ctlen)) ∧
    (s.tr.km = none → exec .split s = .fault (.invalidRegister .km)) ∧
    (s.tr.km ≠ none → s.tr.ctlen = none → exec .split s = .fault (.invalidRegister .ctlen)) ∧
    (s.tr.ctlen = none → exec .xordec s = .fault (.invalidRegister .ctlen)) ∧
    (s.tr.ctlen ≠ none → s.tr.k1 = none → exec .xordec s = .fault (.invalidRegister .k1)) ∧
    (s.tr.k2 = none → exec .macchk s = .fault (.invalidRegister .k2)) ∧
    (s.tr.k2 ≠ none → s.tr.ctlen = none → exec .macchk s = .fault (.invalidRegister .ctlen)) ∧
    (s.tr.k2 ≠ none → s.tr.ctlen ≠ none → s.tr.tag = none →
      exec .macchk s = .fault (.invalidRegister .tag)) ∧
    (s.tr.ctlen = none → exec .release s = .fault (.invalidRegister .ctlen)) ∧
    (s.tr.ctlen ≠ none → s.tr.pt = none → exec .release s = .fault (.invalidRegister .pt))

/-! ### The stages -/

/-- UNPACK (40 R121): with `97 <= ENVLEN <= MAX_ENV_LEN` it slices the key region, the ciphertext length
and the tag, and nothing else changes but PHASE; else it raises InvalidEnvelope. No request on
either path, and no byte's value decides. The conditions are those of R121's pseudocode; at
MAX_ENV_LEN = 2^32 - 1 its corner case for ENVLEN = 0xFFFFFFFF says otherwise, and the pseudocode
is the model's choice there (log 33). -/
def Obligations.UnpackSlicesTheEnvelope : Prop :=
  decode (.stage 1#4) = .op .unpack ∧
  (∀ s : State, 97 ≤ s.envlen.toNat → s.envlen.toNat ≤ Config.chip.maxEnvLen →
    ∃ (epk : BytesN 65) (n : Word32) (tag : BytesN 32),
      exec .unpack s =
        .next { s with
          phase := .agree
          tr := { s.tr with epk := some epk, ctlen := some n, tag := some tag } } ∧
      (∀ i < 65, epk.val[i]? = some (inByte Config.chip s i)) ∧
      n.toNat = s.envlen.toNat - 97 ∧
      (∀ i < 32, tag.val[i]? = some (inByte Config.chip s (s.envlen.toNat - 32 + i)))) ∧
  (∀ s : State, (s.envlen.toNat < 97 ∨ Config.chip.maxEnvLen < s.envlen.toNat) →
    exec .unpack s = .next (s.raise .invalidEnvelope))

/-- After a successful UNPACK the three regions are disjoint, adjacent, in order, and cover the envelope
exactly (40 R122). -/
def Obligations.UnpackedRegionsCoverTheEnvelope : Prop :=
  ∀ s t : State, exec .unpack s = .next t → t.phase = .agree →
    ∃ (epk : BytesN 65) (n : Word32) (tag : BytesN 32),
      t.tr.epk = some epk ∧ t.tr.ctlen = some n ∧ t.tr.tag = some tag ∧
      epk.val.length = 65 ∧ tag.val.length = 32 ∧
      n.toNat = s.envlen.toNat - 97 ∧ 65 + n.toNat + 32 = s.envlen.toNat ∧
      (inBytes Config.chip t 65 n.toNat).length = n.toNat ∧
      epk.val ++ inBytes Config.chip t 65 n.toNat ++ tag.val =
        inBytes Config.chip s 0 s.envlen.toNat

/-- AGREE (41 R133): EC.parse of the received bytes, then EC.ecdh if and only if the parse succeeded;
Invalid raises InvalidPublicKey, Fail raises KeyAgreementFailure, else PK and Z are written. A tag
byte other than 0x04 is Invalid whatever the delegate (30 R105). The success is said apart, for
the block over any parameters. -/
def Obligations.AgreeAsksTheDelegateInOrder : Prop :=
  decode (.stage 2#4) = .op .agree ∧
  (∀ (cfg : Config) (s : State) (epk : BytesN 65) k p z, s.tr.epk = some epk → s.sk = some k →
    requestParse cfg epk.val = some p → requestEcdh cfg k p = some z →
    execWith cfg .agree s =
      .next { s with
        phase := .derive
        trace := s.trace ++ [Request.ecParse epk.val, Request.ecEcdh k p]
        tr := { s.tr with pk := some p, z := some z } }) ∧
  (∀ (s : State) (epk : BytesN 65) k, s.tr.epk = some epk → s.sk = some k →
    exec .agree s =
      match requestParse Config.chip epk.val with
      | none =>
        .next ({ s with trace := s.trace ++ [Request.ecParse epk.val] }.raise .invalidPublicKey)
      | some p =>
        match requestEcdh Config.chip k p with
        | none =>
          .next ({ s with
            trace := s.trace ++ [Request.ecParse epk.val, Request.ecEcdh k p] }.raise .keyAgreementFailure)
        | some z =>
          .next { s with
            phase := .derive
            trace := s.trace ++ [Request.ecParse epk.val, Request.ecEcdh k p]
            tr := { s.tr with pk := some p, z := some z } }) ∧
  (∀ (s : State) (epk : BytesN 65) k, s.tr.epk = some epk → s.sk = some k →
    epk.val.head? ≠ some 0x04#8 →
    exec .agree s =
      .next ({ s with trace := s.trace ++ [Request.ecParse epk.val] }.raise .invalidPublicKey))

/-- DERIVE (42 R150): SEED = EPK ‖ Z; one SHA256 request per block with counters 1, 2, ..., blockCount
(the least b with 32 * b >= CTLEN + 16); KM the first CTLEN + 16 bytes of the digests; CTR one
more than the last counter, modulo 2^32. -/
def Obligations.DeriveRunsTheKdf : Prop :=
  decode (.stage 3#4) = .op .derive ∧
  ∀ (s : State) (epk : BytesN 65) (z : BytesN 32) (n : Word32) (b : Nat),
    s.tr.epk = some epk → s.tr.z = some z → s.tr.ctlen = some n →
    n.toNat + 16 ≤ 32 * b → 32 * b < n.toNat + 16 + 32 →
    ∃ sd : BytesN 97, sd.val = epk.val ++ z.val ∧
      exec .derive s =
        .next { s with
          phase := .split
          trace := s.trace ++ (List.range b).map fun i =>
            .sha256 (sd.val ++ be32 (BitVec.ofNat 32 (i + 1)))
          tr := { s.tr with
            seed := some sd
            ctr := some (BitVec.ofNat 32 (b + 1))
            km := some (((List.range b).map fun i =>
              (requestSha256 Config.chip (sd.val ++ be32 (BitVec.ofNat 32 (i + 1)))).val
              ).flatten.take (n.toNat + 16)) } }

/-- Laws of the KDF for any hash function (42 R151 (a), (c), (d), (e), (f)): length, prefix, block
structure with the counter modulo 2^32 (R148), the empty output, and the period after the wrap. -/
def Obligations.KdfLaws : Prop :=
  ∀ (cfg : Config) (seed : Bytes),
    (∀ L, (kdf cfg seed L).length = L) ∧
    (∀ n k, k ≤ n → (kdf cfg seed n).take k = kdf cfg seed k) ∧
    (∀ L i, 1 ≤ i → 32 * (i - 1) < L →
      sliceBytes (kdf cfg seed L) (32 * (i - 1)) (min (32 * i) L) <+:
        (requestSha256 cfg (seed ++ be32 (BitVec.ofNat 32 (i % 2 ^ 32)))).val) ∧
    kdf cfg seed 0 = [] ∧
    (∀ L j, j + 32 * 2 ^ 32 < L →
      (kdf cfg seed L)[j + 32 * 2 ^ 32]? = (kdf cfg seed L)[j]?)

/-- Truncation (42 R149): the last block gives its first L - 32 (blockCount - 1) bytes, from 1 to 32 of
them, the earlier ones all theirs; nothing is cut when 32 divides L; for L = 0 there is no request
and no byte. -/
def Obligations.KdfTruncatesTheLastBlockAtItsEnd : Prop :=
  ∀ (cfg : Config) (seed : Bytes),
    (∀ L b, 1 ≤ L → L ≤ 32 * b → 32 * b < L + 32 →
      1 ≤ L - 32 * (b - 1) ∧ L - 32 * (b - 1) ≤ 32 ∧
      kdf cfg seed L =
        ((List.range (b - 1)).map fun i =>
          (requestSha256 cfg (seed ++ be32 (BitVec.ofNat 32 (i + 1)))).val).flatten ++
        (requestSha256 cfg (seed ++ be32 (BitVec.ofNat 32 b))).val.take (L - 32 * (b - 1))) ∧
    (∀ b, kdf cfg seed (32 * b) =
      ((List.range b).map fun i =>
        (requestSha256 cfg (seed ++ be32 (BitVec.ofNat 32 (i + 1)))).val).flatten) ∧
    (kdfRun cfg seed 0).requests = [] ∧ kdf cfg seed 0 = []

/-- SPLIT (42 R153): K2 the FIRST 16 bytes of KM, K1 the remaining CTLEN; nothing else changes but
PHASE. -/
def Obligations.SplitPutsTheMacKeyFirst : Prop :=
  decode (.stage 4#4) = .op .split ∧
  ∀ (s : State) (km : Bytes) (n : Word32), s.tr.km = some km → s.tr.ctlen = some n →
    km.length = n.toNat + 16 →
    ∃ (k2 : BytesN 16) (k1 : Bytes),
      exec .split s =
        .next { s with phase := .xordec, tr := { s.tr with k2 := some k2, k1 := some k1 } } ∧
      (∀ j < 16, k2.val[j]? = km[j]?) ∧ k1.length = n.toNat ∧
      (∀ j < n.toNat, k1[j]? = km[16 + j]?)

/-- Laws of SPLIT (42 R154): K2 ‖ K1 = KM; the lengths; K2 = KDF(SEED, 16) whatever the ciphertext
length; and K1[j] does not depend on the ciphertext length. -/
def Obligations.SplitKeysDoNotDependOnTheLength : Prop :=
  ∀ s t (sd : Bytes) (n : Word32), s.tr.ctlen = some n →
    s.tr.km = some (kdf Config.chip sd (n.toNat + 16)) → exec .split s = .next t →
    ∃ (k2 : BytesN 16) (k1 : Bytes), t.tr.k2 = some k2 ∧ t.tr.k1 = some k1 ∧
      k2.val ++ k1 = kdf Config.chip sd (n.toNat + 16) ∧
      k2.val.length = 16 ∧ k1.length = n.toNat ∧
      (inBytes Config.chip s 65 n.toNat).length = k1.length ∧
      k2.val = kdf Config.chip sd 16 ∧
      (∀ j m, j < n.toNat → 16 + j < m → k1[j]? = (kdf Config.chip sd m)[16 + j]?)

/-- XORDEC (43 R166): PT[j] = CT[j] xor K1[j] for every j below CTLEN, the ciphertext read from IN at
65; nothing else changes but PHASE. The region is inside the buffer and K1 has CTLEN bytes, as
they are after the stages before. -/
def Obligations.XordecIsBytewise : Prop :=
  decode (.stage 5#4) = .op .xordec ∧
  ∀ (s : State) (k1 : Bytes) (n : Word32), s.tr.k1 = some k1 → s.tr.ctlen = some n →
    k1.length = n.toNat → 65 + n.toNat ≤ Config.chip.maxEnvLen →
    ∃ pt : Bytes,
      exec .xordec s = .next { s with phase := .macchk, tr := { s.tr with pt := some pt } } ∧
      pt.length = n.toNat ∧
      (∀ j < n.toNat, pt[j]? = some (inByte Config.chip s (65 + j) ^^^ k1.getD j 0))

/-- A key stream of another length than the ciphertext is refused, never truncated, padded or cycled
(43 R165, U7, log 10). -/
def Obligations.UnequalKeyStreamIsRefused : Prop :=
  ∀ (s : State) (k1 : Bytes) (n : Word32), s.tr.k1 = some k1 → s.tr.ctlen = some n →
    k1.length ≠ n.toNat → 65 + n.toNat ≤ Config.chip.maxEnvLen →
    exec .xordec s = .refused (.lengthContract .k1)

/-- Laws of the stream cipher (43 R167), which is typed over sequences of one length (43 R165): length,
self-inverse, the zero key, slices, and one flipped bit flips the same bit and nothing else. -/
def Obligations.StreamCipherLaws : Prop :=
  ∀ (n : Nat) (c k : BytesN n),
    (applyStream c k).val.length = n ∧
    applyStream (applyStream c k) k = c ∧
    (∀ z : BytesN n, z.val = zeros n → applyStream c z = c) ∧
    (∀ (a b : Nat) (c' k' : BytesN (b - a)), a ≤ b → b ≤ n → c'.val = sliceBytes c.val a b →
      k'.val = sliceBytes k.val a b →
      sliceBytes (applyStream c k).val a b = (applyStream c' k').val) ∧
    (∀ (j t : Nat) (c' : BytesN n), j < n → t < 8 →
      c'.val = c.val.set j (c.val.getD j 0 ^^^ (1#8 <<< t)) →
      (applyStream c' k).val =
        (applyStream c k).val.set j ((applyStream c k).val.getD j 0 ^^^ (1#8 <<< t)))

/-- MACCHK (44 R179): one HMAC request with key K2 over the ciphertext as received and eight zero bytes;
MATCH is equality of all 32 bytes; PHASE becomes 8 or 7 accordingly; nothing else changes. -/
def Obligations.MacchkComparesTheWholeTag : Prop :=
  decode (.stage 6#4) = .op .macchk ∧
  ∀ (s : State) (k2 : BytesN 16) (n : Word32) (tag : BytesN 32), s.tr.k2 = some k2 →
    s.tr.ctlen = some n → s.tr.tag = some tag → 65 + n.toNat ≤ Config.chip.maxEnvLen →
    ∃ (ct : Bytes) (tagc : BytesN 32), ct.length = n.toNat ∧
      (∀ j < n.toNat, ct[j]? = some (inByte Config.chip s (65 + j))) ∧
      tagc = requestHmac Config.chip k2.val (ct ++ List.replicate 8 0#8) ∧
      exec .macchk s =
        .next { s with
          phase := if tagc = tag then .release else .discard
          trace := s.trace ++ [.hmac k2.val (ct ++ List.replicate 8 0#8)]
          tr := { s.tr with tagc := some tagc, matched := some (decide (tagc = tag)) } }

/-- XORDEC and MACCHK read disjoint keys and neither reads the other's output: in either order they
leave the same registers, requests and memories (44 R180 (d), 90 C3). -/
def Obligations.XordecAndMacchkCommute : Prop :=
  ∀ (s : State) (k1 : Bytes) (k2 : BytesN 16) (n : Word32) (tag : BytesN 32),
    s.tr.k1 = some k1 → s.tr.k2 = some k2 → s.tr.ctlen = some n → s.tr.tag = some tag → k1.length = n.toNat →
    65 + n.toNat ≤ Config.chip.maxEnvLen →
    ∃ t u t' u', exec .xordec s = .next t ∧ exec .macchk t = .next u ∧
      exec .macchk s = .next t' ∧ exec .xordec t' = .next u' ∧
      { u' with phase := u.phase } = u

/-- DISCARD (45 R201): `raise MacMismatch`, always; OUT storage is not written. -/
def Obligations.DiscardRaisesMacMismatch : Prop :=
  decode (.stage 7#4) = .op .discard ∧
  ∀ s : State, exec .discard s = .next (s.raise .macMismatch) ∧
    (s.raise .macMismatch).outMem = s.outMem ∧ (s.raise .macMismatch).trace = s.trace ∧
    ∀ a, exec (.rdout a) (s.raise .macMismatch) =
      .next { s.raise .macMismatch with answer := .byte 0 }

/-- RELEASE (45 R199): PT to OUT at 0, every OUT byte at and above CTLEN as before, OUTLEN <- CTLEN,
every transient register invalid, ERR 0, BUSY 0, DONE 1, PHASE 0, in one step. Said for the
machine, and for the block over any parameters. -/
def Obligations.ReleaseWritesThePlaintext : Prop :=
  decode (.stage 8#4) = .op .release ∧
  (∀ (s : State) (pt : Bytes) (n : Word32), s.tr.pt = some pt → s.tr.ctlen = some n →
    pt.length = n.toNat → n.toNat ≤ Config.chip.outSize →
    ∃ m, exec .release s =
        .next { s with
          outMem := m
          outlen := n
          tr := ⟨none, none, none, none, none, none, none, none, none, none, none, none, none⟩
          err := none
          busy := false
          done := true
          phase := .idle } ∧
      (∀ a < n.toNat, pt[a]? = some (outByte Config.chip { s with outMem := m } a)) ∧
      (∀ a, n.toNat ≤ a →
        outByte Config.chip { s with outMem := m } a = outByte Config.chip s a)) ∧
  (∀ (cfg : Config) (s : State) (pt : Bytes) (n : Word32), s.tr.pt = some pt →
    s.tr.ctlen = some n → pt.length = n.toNat → n.toNat ≤ cfg.outSize →
    ∃ m, execWith cfg .release s =
        .next { s with
          outMem := m
          outlen := n
          tr := ⟨none, none, none, none, none, none, none, none, none, none, none, none, none⟩
          err := none
          busy := false
          done := true
          phase := .idle } ∧
      (∀ a < n.toNat, pt[a]? = some (outByte cfg { s with outMem := m } a)) ∧
      (∀ a, n.toNat ≤ a → outByte cfg { s with outMem := m } a = outByte cfg s a))

/-- Stage order (45 R192, 10 R35): what a turn of the sequencer makes of PHASE, in every state. -/
def Obligations.StagesRunInOrder : Prop :=
  ∀ s t : State, (s.agenda = [] ∨ ∃ rest, s.agenda = .sequencer :: rest) → step s = .next t →
    match s.phase with
    | .idle => t.phase = .idle
    | .unpack => t.phase = .agree ∨ (t.phase = .idle ∧ t.err = some .invalidEnvelope)
    | .agree => t.phase = .derive ∨
        (t.phase = .idle ∧
          (t.err = some .invalidPublicKey ∨ t.err = some .keyAgreementFailure))
    | .derive => t.phase = .split
    | .split => t.phase = .xordec
    | .xordec => t.phase = .macchk
    | .macchk => (t.phase = .release ∧ t.tr.matched = some true) ∨
        (t.phase = .discard ∧ t.tr.matched = some false)
    | .discard => t.phase = .idle ∧ t.err = some .macMismatch
    | .release => t.phase = .idle ∧ t.err = none

/-! ### Invariants -/

/-- The state after reset is good, whatever turns are to come. -/
def Obligations.ResetStateIsGood : Prop :=
  ∀ l, Good Config.chip { State.reset with agenda := l }

/-- Every step keeps the invariant: the state invariants of 10 R51, the canonical memories inside their
spaces, and the datapath holding exactly what the stages so far wrote. -/
def Obligations.StepKeepsGoodStates : Prop :=
  ∀ s t : State, Good Config.chip s → step s = .next t → Good Config.chip t

/-- The invariants of 10 R51 hold in every reachable state: after any number of steps from reset,
whatever the host, the sequencer and the reset input do. -/
def Obligations.ReachableStatesKeepTheInvariants : Prop :=
  ∀ (l : List Turn) (n : Nat) (t : State),
    Host.Core.run Sys2Proof.core n { State.reset with agenda := l } = .next t →
    (t.busy = true ↔ t.phase ≠ .idle) ∧
    ¬(t.busy = true ∧ t.done = true) ∧
    (t.err ≠ none → t.done = true ∧ t.outlen = 0) ∧
    (t.done = false → t.err = none ∧ t.outlen = 0) ∧
    (t.phase = .idle → t.tr = Transients.invalid) ∧
    (t.busy = true → t.keyv = true) ∧
    t.outlen.toNat ≤ Config.chip.maxEnvLen - 97

/-- In a good state only an undefined host access stops the block: no stage reads an invalid register,
leaves its space or breaks a length contract (10 R22, 20 R69, 42 R154). -/
def Obligations.GoodStatesDoNotStop : Prop :=
  ∀ s : State, Good Config.chip s →
    (∀ a rest, s.agenda = .host a :: rest → accessDefined a = true) →
    ∃ t, step s = .next t

/-- Every step keeps both memories in canonical form, in every state. -/
def Obligations.StepKeepsMemoriesCanonical : Prop :=
  ∀ s t : State, MemoriesCanonical s → step s = .next t → MemoriesCanonical t

/-! ### The whole call -/

/-- Refinement (45 R204): from an idle state with a key, an accepted START followed by the stages ends
with the result of `decrypt` on the envelope in the buffer, the inputs untouched. -/
def Obligations.CallRefinesDecrypt : Prop :=
  ∀ (s : State) (k : PrivKey) (d : Word32),
    s.busy = false → s.keyv = true → s.sk = some k → d.getLsbD 0 = true →
    ∃ t, Host.Core.run Sys2Proof.core 8 { s with agenda := [turnOf (.start d)] } = .next t ∧
      callResult Config.chip t = some (decrypt Config.chip (envelope Config.chip s) k) ∧
      (t.err ≠ none → t.outlen = 0) ∧ t.phase = .idle ∧ t.busy = false ∧ t.tr = Transients.invalid ∧ t.agenda = [] ∧
      t.inMem = s.inMem ∧ t.envlen = s.envlen ∧ t.sk = s.sk ∧ t.keyv = s.keyv

/-- The request trace of a call, by outcome (45 R203): what the call asks of the delegates, in order,
no request repeated and none speculative. Said of the block over any parameters. -/
def Obligations.CallMakesTheseRequests : Prop :=
  ∀ (cfg : Config) (s : State) (k : PrivKey) (d : Word32),
    s.busy = false → s.keyv = true → s.sk = some k → d.getLsbD 0 = true →
    ∃ t, runWith cfg 8 { s with agenda := [turnOf (.start d)] } = .next t ∧ t.done = true ∧
      t.trace = callRequests cfg (envelope cfg s) k ∧
      (t.err = some .invalidEnvelope → t.trace = []) ∧
      (t.err = some .invalidPublicKey → t.trace = [.ecParse (envEpk cfg s).val]) ∧
      (t.err = some .keyAgreementFailure → ∃ p,
        requestParse cfg (envEpk cfg s).val = some p ∧
        t.trace = [.ecParse (envEpk cfg s).val, .ecEcdh k p]) ∧
      ((t.err = some .macMismatch ∨ t.err = none) → ∃ p z,
        requestParse cfg (envEpk cfg s).val = some p ∧ requestEcdh cfg k p = some z ∧
        t.trace = [.ecParse (envEpk cfg s).val, .ecEcdh k p] ++
          ((List.range (ceilDiv (s.envlen.toNat - 97 + 16) 32)).map fun i =>
            .sha256 ((envEpk cfg s).val ++ z.val ++ be32 (BitVec.ofNat 32 (i + 1)))) ++
          [.hmac (kdf cfg ((envEpk cfg s).val ++ z.val) 16)
            ((envCt cfg s).val ++ List.replicate 8 0#8)])

/-- Every call ends (45 R192, 70 R281): from a good busy state, whatever the host does in between, DONE
= 1 after at most seven steps more than there are turns to come. The delegates answer, log 17. -/
def Obligations.EveryCallEnds : Prop :=
  ∀ s : State, Good Config.chip s → s.busy = true →
    (∀ u ∈ s.agenda, turnDefined u = true ∧ turnNotReset u = true) →
    ∃ n t, n ≤ s.agenda.length + 7 ∧ Host.Core.run Sys2Proof.core n s = .next t ∧
      t.done = true ∧ t.phase = .idle

/-- The result of a call stands until the next accepted START or reset (45 R202): no other step of any
agent changes BUSY, DONE, ERR, OUTLEN or the plaintext, though the host may store a new envelope,
length or key meanwhile. -/
def Obligations.ResultStandsUntilTheNextCall : Prop :=
  ∀ s t : State, Good Config.chip s → s.done = true → step s = .next t →
    (∀ rest, s.agenda ≠ .reset :: rest) →
    (∀ a rest d, s.agenda = .host a :: rest → decode (.host a) = .op (.start d) →
      startAccepted d s = false) →
    t.busy = false ∧ t.done = true ∧ t.err = s.err ∧ t.outlen = s.outlen ∧
      (∀ a < s.outlen.toNat, outByte Config.chip t a = outByte Config.chip s a) ∧
      callResult Config.chip t = callResult Config.chip s

/-- A whole host script (30 R108, 45 R204): the operations of DECRYPT B, k before WAIT and the stages
give `decrypt(B, k)`, from any state that is not BUSY: LOADENV B, WRKEY k, START for an envelope
that fits the buffer, and for a longer one its length alone, WRKEY k, START. ENVLEN must be able to
hold the length (log 31). -/
def Obligations.LoadedEnvelopeIsDecrypted : Prop :=
  ∀ (s : State) (b : Bytes) (k : PrivKey), s.busy = false → b.length < 2 ^ 32 →
    ∃ t, Host.Core.run Sys2Proof.core (b.length + 10)
        { s with agenda := script (decryptScript Config.chip b k) } = .next t ∧
      callResult Config.chip t = some (decrypt Config.chip b k) ∧
      t.trace = callRequests Config.chip b k

/-- Independence of calls (45 R205): the result and the requests depend on ENV[0..ENVLEN) and SK alone,
not on an earlier call, the OUT space, IN bytes beyond ENVLEN, or the free draws behind them. -/
def Obligations.CallsAreIndependent : Prop :=
  ∀ (s s' : State) (k : PrivKey) (d : Word32),
    s.busy = false → s'.busy = false → s.keyv = true → s'.keyv = true →
    s.sk = some k → s'.sk = some k → d.getLsbD 0 = true → s'.envlen = s.envlen →
    (∀ a < s.envlen.toNat, inByte Config.chip s' a = inByte Config.chip s a) →
    ∃ t t', Host.Core.run Sys2Proof.core 8 { s with agenda := [turnOf (.start d)] } = .next t ∧
      Host.Core.run Sys2Proof.core 8 { s' with agenda := [turnOf (.start d)] } = .next t' ∧
      callResult Config.chip t' = callResult Config.chip t ∧ t'.trace = t.trace

/-- Nothing between START and DONE is visible but BUSY (00 R12, 20 R65): a turn of the sequencer that
does not end the call changes nothing a host read returns, and during a call STATUS reads 0x05,
OUTLEN 0 and OUT zeros. -/
def Obligations.NothingIsVisibleDuringACall : Prop :=
  (∀ s t : State, s.busy = true → t.busy = true →
    (s.agenda = [] ∨ ∃ rest, s.agenda = .sequencer :: rest) → step s = .next t →
    hostView Config.chip t = hostView Config.chip s) ∧
  (∀ s : State, Good Config.chip s → s.busy = true →
    exec .rdstatus s = .next { s with answer := .word 0x00000005 } ∧
    exec .rdoutlen s = .next { s with answer := .word 0 } ∧
    ∀ a, exec (.rdout a) s = .next { s with answer := .byte 0 })

/-- What is never released (45 R200): over any parameters, in a good state a step changes the OUT space
only at reset or in RELEASE, and then the tag matched and what becomes readable is the plaintext
of `decrypt` on the envelope in the buffer. -/
def Obligations.OnlyVerifiedPlaintextIsReleased : Prop :=
  ∀ (cfg : Config) s t a, Good cfg s → stepWith cfg s = .next t →
    memoryFind t.outMem a ≠ memoryFind s.outMem a →
    (∃ rest, s.agenda = .reset :: rest) ∨
    (s.phase = .release ∧ s.tr.matched = some true ∧
      ∃ k p, s.sk = some k ∧ decrypt cfg (envelope cfg s) k = .ok p ∧
        callResult cfg t = some (.ok p) ∧ t.outMem = memoryPutAll s.outMem 0 p)

/-- The error path exposes nothing (45 R200, R201; 10 R45): after any error every host read of OUT is
0x00, OUTLEN is 0, no working register holds a value, and the next step makes no byte of OUT
readable. In every good state, over any parameters, the only step that makes an unreadable byte of
OUT readable is the sequencer's turn at PHASE RELEASE, with MATCH = 1. -/
def Obligations.ErrorsExposeNothing : Prop :=
  (∀ s : State, Good Config.chip s → s.err ≠ none →
    s.tr = Transients.invalid ∧ s.outlen = 0 ∧
    (∀ a, exec (.rdout a) s = .next { s with answer := .byte 0 }) ∧
    (∀ t a, step s = .next t → outReadable t a = false)) ∧
  (∀ (cfg : Config) s t a, Good cfg s → stepWith cfg s = .next t →
    outReadable s a = false → outReadable t a = true →
    (s.agenda = [] ∨ ∃ rest, s.agenda = .sequencer :: rest) ∧
      s.phase = .release ∧ s.tr.matched = some true)

/-! ### Laws of decrypt -/

/-- Correctness against a conformant encryptor (45 R206), for any delegates. -/
def Obligations.ConformantEnvelopesDecrypt : Prop :=
  ∀ (cfg : Config) (k : PrivKey) (p v c t : Bytes), conformant cfg k p v c t →
    (v ++ c ++ t).length ≤ cfg.maxEnvLen → decrypt cfg (v ++ c ++ t) k = .ok p

/-- Short envelopes (45 R207): InvalidEnvelope, and no request of any kind. -/
def Obligations.ShortEnvelopesMakeNoRequest : Prop :=
  (∀ (cfg : Config) (b : Bytes) (k : PrivKey), b.length < 97 →
    decrypt cfg b k = .error .invalidEnvelope ∧ callRequests cfg b k = []) ∧
  (∀ s : State, s.envlen.toNat < 97 → exec .unpack s = .next (s.raise .invalidEnvelope) ∧
    (s.raise .invalidEnvelope).trace = s.trace)

/-- Wrong private key (45 R208): with a key region that decodes, the call ends with plaintext,
KeyAgreementFailure or MacMismatch and with nothing else, and with plaintext only if the tag is
the HMAC under the key derived from the secret agreed. -/
def Obligations.ValidPointEndsInOneOfThreeWays : Prop :=
  ∀ (cfg : Config) (b : Bytes) (k : PrivKey) (p : Point), 97 ≤ b.length →
    b.length ≤ cfg.maxEnvLen → requestParse cfg (sliceBytes b 0 65) = some p →
    decrypt cfg b k = .error .keyAgreementFailure ∨
    ∃ z, requestEcdh cfg k p = some z ∧
      (decrypt cfg b k = .error .macMismatch ∨
        (∃ m, decrypt cfg b k = .ok m) ∧
        sliceBytes b (b.length - 32) b.length =
          (requestHmac cfg
            (macKey cfg (sliceBytes b 0 65) z.val (sliceBytes b 65 (b.length - 32)))
            (sliceBytes b 65 (b.length - 32) ++ zeros 8)).val)

/-- Tampering (45 R209): (a) a change inside the MAC region alone always gives MacMismatch; (b) a change
inside the ciphertext region alone gives MacMismatch unless the HMACs of the two ciphertexts
under K2 agree; (c) a key region that no longer decodes gives InvalidPublicKey. -/
def Obligations.TamperedEnvelopesAreRejected : Prop :=
  ∀ (cfg : Config) (b b' : Bytes) (k : PrivKey) (m : Bytes), decrypt cfg b k = .ok m →
    b'.length = b.length → b' ≠ b →
    (sliceBytes b' 0 (b.length - 32) = sliceBytes b 0 (b.length - 32) →
      decrypt cfg b' k = .error .macMismatch) ∧
    (sliceBytes b' 0 65 = sliceBytes b 0 65 →
      sliceBytes b' (b.length - 32) b.length = sliceBytes b (b.length - 32) b.length →
      decrypt cfg b' k = .error .macMismatch ∨
      ∃ z, agreeOf cfg k (sliceBytes b 0 65) = .ok z ∧
        requestHmac cfg (kdf cfg (sliceBytes b 0 65 ++ z.val) 16)
            (sliceBytes b' 65 (b.length - 32) ++ zeros 8) =
          requestHmac cfg (kdf cfg (sliceBytes b 0 65 ++ z.val) 16)
            (sliceBytes b 65 (b.length - 32) ++ zeros 8)) ∧
    (requestParse cfg (sliceBytes b' 0 65) = none →
      decrypt cfg b' k = .error .invalidPublicKey)

/-! ### Instances -/

/-- Instances share nothing (10 R49, 20 R76): a step of one is a step of its own state, leaves every
other one as it is, and steps of two instances commute. After reset there are N_INST of them, each
in the reset state under its own number, which no step changes and which indexes its own free
draws (log 30). That all run over one set of parameters is the model's choice (log 32). -/
def Obligations.InstancesShareNothing : Prop :=
  (∀ (y z : System) i, y.stepAt i = some z →
    z.instances.length = y.instances.length ∧
    (∀ j, j ≠ i → z.instances[j]? = y.instances[j]?) ∧
    ∃ s t, y.instances[i]? = some s ∧ step s = .next t ∧ z.instances[i]? = some t ∧
      t.unit = s.unit) ∧
  (∀ (y z z' : System) i j, i ≠ j → y.stepAt i = some z → y.stepAt j = some z' →
    ∃ w, z.stepAt j = some w ∧ z'.stepAt i = some w) ∧
  System.reset.instances.length = Config.chip.instances ∧
  (∀ i, i < Config.chip.instances → ∃ s, System.reset.instances[i]? = some s ∧
    s = { State.reset with unit := i } ∧
    ∀ a, inByte Config.chip s a = Config.chip.inDraw i s.epoch a)

/-! ### The pseudo-operation DECRYPT -/

/-- DECRYPT B, k -> r (30 R108): over any parameters, from an idle state, wherever turns of the
sequencer fall between the host's operations, the whole expansion (LOADENV or, beyond the buffer,
the length alone; WRKEY; START; WAIT; RDSTATUS; READOUT or the error code) never stops, can return
nothing but the result of `decrypt(B, k)`, Ok with the plaintext or Err with the code of 60 R221,
and leaves that result and the call's requests in the block. It does return once the sequencer has
had seven turns after START within `n` polls of WAIT and the host has had its turns for the rest.
The schedule is the model's (log 31), as is the trace (log 8). -/
def Obligations.DecryptPseudoOperationReturnsDecrypt : Prop :=
  ∀ (cfg : Config) (s : State) (b : Bytes) (k : PrivKey) (sched : Schedule),
    s.phase = .idle → s.busy = false → b.length < 2 ^ 32 →
    (∀ gap ∈ sched, ∀ u ∈ gap, u = .sequencer) →
    ((∃ t, decryptCall cfg b k sched s = .pending t) ∨
      ∃ later t, decryptCall cfg b k sched s =
          .returned (hostResult (decrypt cfg b k)) later t ∧
        callResult cfg t = some (decrypt cfg b k) ∧ t.trace = callRequests cfg b k ∧
        t.agenda = s.agenda) ∧
    (∀ n, 7 ≤ ((sched.drop (decryptScript cfg b k).length).take n).flatten.length →
      (decryptScript cfg b k).length + n + 2 + (b.length - 97) ≤ sched.length →
      ∃ later t, decryptCall cfg b k sched s =
        .returned (hostResult (decrypt cfg b k)) later t)
end

