-- ==== Sys2Proof/Laws/Decode.lean ====
section
/-! SUPPORT. The fields of a naming word (30 R100). -/

namespace Sys2Proof

@[simp] theorem wordSpace_namingWord (sp : BitVec 2) (w : Bool) (r : BitVec 3) :
    wordSpace (namingWord sp w r) = sp := by
  revert sp w r; decide

@[simp] theorem wordIsWrite_namingWord (sp : BitVec 2) (w : Bool) (r : BitVec 3) :
    wordIsWrite (namingWord sp w r) = w := by
  revert sp w r; decide

@[simp] theorem wordReg_namingWord (sp : BitVec 2) (w : Bool) (r : BitVec 3) :
    wordReg (namingWord sp w r) = r := by
  revert sp w r; decide

/-- The fields stand in the six bits of the table's mask 0xFC. -/
theorem word_fields_of_mask (w : BitVec 8) :
    wordSpace w = wordSpace (w &&& 0xFC#8) ∧ wordIsWrite w = wordIsWrite (w &&& 0xFC#8) ∧
      wordReg w = wordReg (w &&& 0xFC#8) := by
  revert w; decide +kernel

/-- A word is its fields, up to the bits 1:0. -/
theorem word_mask_eq_namingWord (w : BitVec 8) :
    w &&& 0xFC#8 = namingWord (wordSpace w) (wordIsWrite w) (wordReg w) := by
  revert w; decide +kernel

end Sys2Proof
end

