-- ==== Sys2Proof/Laws/Memory.lean ====
section
/-! SUPPORT. The memory: every operation keeps the canonical form, a read after a write gives the value
written, a write leaves every other address alone. -/

namespace Sys2Proof.Machine

theorem memoryWf_tail {c : Host.Cell} {m : List Host.Cell} (h : memoryWf (c :: m) = true) :
    memoryWf m = true := by
  cases m with
  | nil => rfl
  | cons d m => simp only [memoryWf, Bool.and_eq_true] at h; exact h.2

/-- In a canonical memory every later address is above the first. -/
theorem memoryWf_above {c : Host.Cell} {m : List Host.Cell} (h : memoryWf (c :: m) = true) :
    ∀ d ∈ m, c.1 < d.1 := by
  induction m generalizing c with
  | nil => simp
  | cons e m ih =>
    have he : c.1 < e.1 := by simpa [memoryWf] using (by simpa [memoryWf] using h : _ ∧ _).1
    intro d hd
    rcases List.mem_cons.mp hd with rfl | hd
    · exact he
    · exact he.trans (ih (memoryWf_tail h) d hd)

theorem memoryWf_cons {c : Host.Cell} {m : List Host.Cell} (hm : memoryWf m = true)
    (h : ∀ d ∈ m, c.1 < d.1) : memoryWf (c :: m) = true := by
  cases m with
  | nil => rfl
  | cons d m => simp [memoryWf, hm, h d (by simp)]

/-- The addresses of a memory after a write: the old ones and the one written. -/
theorem mem_memoryPut {m : List Host.Cell} {a : Nat} {v : Byte} {d : Host.Cell}
    (h : d ∈ memoryPut m a v) : d = (a, v) ∨ d ∈ m := by
  induction m with
  | nil => simpa [memoryPut] using h
  | cons c m ih =>
    simp only [memoryPut] at h
    split at h
    · rcases List.mem_cons.mp h with rfl | h
      · simp
      · rcases ih h with h | h <;> simp [h]
    · split at h <;> simp only [List.mem_cons] at h ⊢ <;> tauto

/-- A write keeps the canonical form. -/
theorem memoryPut_wf {m : List Host.Cell} (a : Nat) (v : Byte) (h : memoryWf m = true) :
    memoryWf (memoryPut m a v) = true := by
  induction m with
  | nil => rfl
  | cons c m ih =>
    have above := memoryWf_above h
    have tail := memoryWf_tail h
    simp only [memoryPut]
    split
    · rename_i hlt
      refine memoryWf_cons (ih tail) fun d hd => ?_
      rcases mem_memoryPut hd with rfl | hd
      · exact hlt
      · exact above d hd
    · split
      · rename_i heq
        exact memoryWf_cons tail fun d hd => heq ▸ above d hd
      · refine memoryWf_cons h fun d hd => ?_
        rcases List.mem_cons.mp hd with rfl | hd
        · simp; omega
        · exact lt_trans (by simp; omega) (above d hd)

/-- A write of several bytes keeps the canonical form. -/
theorem memoryPutAll_wf {m : List Host.Cell} (a : Nat) (bs : Bytes) (h : memoryWf m = true) :
    memoryWf (memoryPutAll m a bs) = true := by
  induction bs generalizing m a with
  | nil => exact h
  | cons b bs ih => exact ih (a + 1) (memoryPut_wf a b h)

theorem memoryFind_none_of_above {m : List Host.Cell} {a : Nat} (h : ∀ d ∈ m, a < d.1) :
    memoryFind m a = none := by
  induction m with
  | nil => rfl
  | cons c m ih =>
    have hc := h c (by simp)
    have hne : c.1 ≠ a := by omega
    simp [memoryFind, hne, ih fun d hd => h d (by simp [hd])]

/-- Read after write at the same address. -/
@[simp] theorem memoryFind_memoryPut_same (m : List Host.Cell) (a : Nat) (v : Byte) :
    memoryFind (memoryPut m a v) a = some v := by
  induction m with
  | nil => simp [memoryPut, memoryFind]
  | cons c m ih =>
    simp only [memoryPut]
    split
    · rename_i h
      have hne : c.1 ≠ a := by omega
      simp [memoryFind, hne, ih]
    · split <;> simp [memoryFind]

/-- A write leaves every other address alone. -/
theorem memoryFind_memoryPut_other (m : List Host.Cell) {a b : Nat} (v : Byte) (h : b ≠ a) :
    memoryFind (memoryPut m a v) b = memoryFind m b := by
  induction m with
  | nil => simp [memoryPut, memoryFind, Ne.symm h]
  | cons c m ih =>
    simp only [memoryPut]
    split
    · simp [memoryFind, ih]
    · split
      · rename_i heq
        have hc : ¬ c.1 = b := by omega
        simp [memoryFind, Ne.symm h, hc]
      · simp [memoryFind, Ne.symm h]

/-- What a write of several bytes leaves at each address: the byte written inside the region, the old
one outside. -/
theorem memoryFind_memoryPutAll (m : List Host.Cell) (a : Nat) (bs : Bytes) (x : Nat) :
    memoryFind (memoryPutAll m a bs) x =
      if a ≤ x ∧ x < a + bs.length then bs[x - a]? else memoryFind m x := by
  induction bs generalizing m a with
  | nil => simp only [memoryPutAll, List.length_nil, Nat.add_zero]; rw [if_neg (by omega)]
  | cons b bs ih =>
    simp only [memoryPutAll, ih, List.length_cons]
    by_cases hx : x = a
    · subst hx
      simp
    · rw [memoryFind_memoryPut_other _ _ hx]
      by_cases hin : a + 1 ≤ x ∧ x < a + 1 + bs.length
      · rw [if_pos hin, if_pos (by omega)]
        have : x - a = (x - (a + 1)) + 1 := by omega
        rw [this, List.getElem?_cons_succ]
      · rw [if_neg hin, if_neg (by omega)]

/-- A write below `n` keeps every address below `n`. -/
theorem memoryPut_below {m : List Host.Cell} {n a : Nat} (v : Byte) (ha : a < n)
    (h : memoryBelow n m = true) : memoryBelow n (memoryPut m a v) = true := by
  simp only [memoryBelow, List.all_eq_true, decide_eq_true_eq] at h ⊢
  intro d hd
  rcases mem_memoryPut hd with rfl | hd
  · exact ha
  · exact h d hd

theorem memoryPutAll_below {m : List Host.Cell} {n a : Nat} (bs : Bytes) (ha : a + bs.length ≤ n)
    (h : memoryBelow n m = true) : memoryBelow n (memoryPutAll m a bs) = true := by
  induction bs generalizing m a with
  | nil => exact h
  | cons b bs ih =>
    simp only [List.length_cons] at ha
    exact ih (by omega) (memoryPut_below b (by omega) h)

end Sys2Proof.Machine
end

