-- ==== Sys2Proof/Laws/State.lean ====
section
/-! SUPPORT. One lemma per field per update of the state, each true by rfl: no later proof unfolds a
record update. -/

namespace Sys2Proof.Machine

/-! ### State.setAnswer -/

@[simp] theorem State.setAnswer_busy (s : State) (v : HostAnswer) : (s.setAnswer v).busy = s.busy := rfl
@[simp] theorem State.setAnswer_done (s : State) (v : HostAnswer) : (s.setAnswer v).done = s.done := rfl
@[simp] theorem State.setAnswer_keyv (s : State) (v : HostAnswer) : (s.setAnswer v).keyv = s.keyv := rfl
@[simp] theorem State.setAnswer_err (s : State) (v : HostAnswer) : (s.setAnswer v).err = s.err := rfl
@[simp] theorem State.setAnswer_envlen (s : State) (v : HostAnswer) : (s.setAnswer v).envlen = s.envlen := rfl
@[simp] theorem State.setAnswer_outlen (s : State) (v : HostAnswer) : (s.setAnswer v).outlen = s.outlen := rfl
@[simp] theorem State.setAnswer_sk (s : State) (v : HostAnswer) : (s.setAnswer v).sk = s.sk := rfl
@[simp] theorem State.setAnswer_inMem (s : State) (v : HostAnswer) : (s.setAnswer v).inMem = s.inMem := rfl
@[simp] theorem State.setAnswer_outMem (s : State) (v : HostAnswer) : (s.setAnswer v).outMem = s.outMem := rfl
@[simp] theorem State.setAnswer_phase (s : State) (v : HostAnswer) : (s.setAnswer v).phase = s.phase := rfl
@[simp] theorem State.setAnswer_tr (s : State) (v : HostAnswer) : (s.setAnswer v).tr = s.tr := rfl
@[simp] theorem State.setAnswer_agenda (s : State) (v : HostAnswer) : (s.setAnswer v).agenda = s.agenda := rfl
@[simp] theorem State.setAnswer_answer (s : State) (v : HostAnswer) : (s.setAnswer v).answer = v := rfl
@[simp] theorem State.setAnswer_trace (s : State) (v : HostAnswer) : (s.setAnswer v).trace = s.trace := rfl
@[simp] theorem State.setAnswer_epoch (s : State) (v : HostAnswer) : (s.setAnswer v).epoch = s.epoch := rfl
@[simp] theorem State.setAnswer_unit (s : State) (v : HostAnswer) : (s.setAnswer v).unit = s.unit := rfl

/-! ### State.setEnvlen -/

@[simp] theorem State.setEnvlen_busy (s : State) (v : Word32) : (s.setEnvlen v).busy = s.busy := rfl
@[simp] theorem State.setEnvlen_done (s : State) (v : Word32) : (s.setEnvlen v).done = s.done := rfl
@[simp] theorem State.setEnvlen_keyv (s : State) (v : Word32) : (s.setEnvlen v).keyv = s.keyv := rfl
@[simp] theorem State.setEnvlen_err (s : State) (v : Word32) : (s.setEnvlen v).err = s.err := rfl
@[simp] theorem State.setEnvlen_envlen (s : State) (v : Word32) : (s.setEnvlen v).envlen = v := rfl
@[simp] theorem State.setEnvlen_outlen (s : State) (v : Word32) : (s.setEnvlen v).outlen = s.outlen := rfl
@[simp] theorem State.setEnvlen_sk (s : State) (v : Word32) : (s.setEnvlen v).sk = s.sk := rfl
@[simp] theorem State.setEnvlen_inMem (s : State) (v : Word32) : (s.setEnvlen v).inMem = s.inMem := rfl
@[simp] theorem State.setEnvlen_outMem (s : State) (v : Word32) : (s.setEnvlen v).outMem = s.outMem := rfl
@[simp] theorem State.setEnvlen_phase (s : State) (v : Word32) : (s.setEnvlen v).phase = s.phase := rfl
@[simp] theorem State.setEnvlen_tr (s : State) (v : Word32) : (s.setEnvlen v).tr = s.tr := rfl
@[simp] theorem State.setEnvlen_agenda (s : State) (v : Word32) : (s.setEnvlen v).agenda = s.agenda := rfl
@[simp] theorem State.setEnvlen_answer (s : State) (v : Word32) : (s.setEnvlen v).answer = s.answer := rfl
@[simp] theorem State.setEnvlen_trace (s : State) (v : Word32) : (s.setEnvlen v).trace = s.trace := rfl
@[simp] theorem State.setEnvlen_epoch (s : State) (v : Word32) : (s.setEnvlen v).epoch = s.epoch := rfl
@[simp] theorem State.setEnvlen_unit (s : State) (v : Word32) : (s.setEnvlen v).unit = s.unit := rfl

/-! ### State.loadKey -/

@[simp] theorem State.loadKey_busy (s : State) (k : PrivKey) : (s.loadKey k).busy = s.busy := rfl
@[simp] theorem State.loadKey_done (s : State) (k : PrivKey) : (s.loadKey k).done = s.done := rfl
@[simp] theorem State.loadKey_keyv (s : State) (k : PrivKey) : (s.loadKey k).keyv = true := rfl
@[simp] theorem State.loadKey_err (s : State) (k : PrivKey) : (s.loadKey k).err = s.err := rfl
@[simp] theorem State.loadKey_envlen (s : State) (k : PrivKey) : (s.loadKey k).envlen = s.envlen := rfl
@[simp] theorem State.loadKey_outlen (s : State) (k : PrivKey) : (s.loadKey k).outlen = s.outlen := rfl
@[simp] theorem State.loadKey_sk (s : State) (k : PrivKey) : (s.loadKey k).sk = some k := rfl
@[simp] theorem State.loadKey_inMem (s : State) (k : PrivKey) : (s.loadKey k).inMem = s.inMem := rfl
@[simp] theorem State.loadKey_outMem (s : State) (k : PrivKey) : (s.loadKey k).outMem = s.outMem := rfl
@[simp] theorem State.loadKey_phase (s : State) (k : PrivKey) : (s.loadKey k).phase = s.phase := rfl
@[simp] theorem State.loadKey_tr (s : State) (k : PrivKey) : (s.loadKey k).tr = s.tr := rfl
@[simp] theorem State.loadKey_agenda (s : State) (k : PrivKey) : (s.loadKey k).agenda = s.agenda := rfl
@[simp] theorem State.loadKey_answer (s : State) (k : PrivKey) : (s.loadKey k).answer = s.answer := rfl
@[simp] theorem State.loadKey_trace (s : State) (k : PrivKey) : (s.loadKey k).trace = s.trace := rfl
@[simp] theorem State.loadKey_epoch (s : State) (k : PrivKey) : (s.loadKey k).epoch = s.epoch := rfl
@[simp] theorem State.loadKey_unit (s : State) (k : PrivKey) : (s.loadKey k).unit = s.unit := rfl

/-! ### State.putIn -/

@[simp] theorem State.putIn_busy (s : State) (a : Nat) (v : Byte) : (s.putIn a v).busy = s.busy := rfl
@[simp] theorem State.putIn_done (s : State) (a : Nat) (v : Byte) : (s.putIn a v).done = s.done := rfl
@[simp] theorem State.putIn_keyv (s : State) (a : Nat) (v : Byte) : (s.putIn a v).keyv = s.keyv := rfl
@[simp] theorem State.putIn_err (s : State) (a : Nat) (v : Byte) : (s.putIn a v).err = s.err := rfl
@[simp] theorem State.putIn_envlen (s : State) (a : Nat) (v : Byte) : (s.putIn a v).envlen = s.envlen := rfl
@[simp] theorem State.putIn_outlen (s : State) (a : Nat) (v : Byte) : (s.putIn a v).outlen = s.outlen := rfl
@[simp] theorem State.putIn_sk (s : State) (a : Nat) (v : Byte) : (s.putIn a v).sk = s.sk := rfl
@[simp] theorem State.putIn_inMem (s : State) (a : Nat) (v : Byte) : (s.putIn a v).inMem = memoryPut s.inMem a v := rfl
@[simp] theorem State.putIn_outMem (s : State) (a : Nat) (v : Byte) : (s.putIn a v).outMem = s.outMem := rfl
@[simp] theorem State.putIn_phase (s : State) (a : Nat) (v : Byte) : (s.putIn a v).phase = s.phase := rfl
@[simp] theorem State.putIn_tr (s : State) (a : Nat) (v : Byte) : (s.putIn a v).tr = s.tr := rfl
@[simp] theorem State.putIn_agenda (s : State) (a : Nat) (v : Byte) : (s.putIn a v).agenda = s.agenda := rfl
@[simp] theorem State.putIn_answer (s : State) (a : Nat) (v : Byte) : (s.putIn a v).answer = s.answer := rfl
@[simp] theorem State.putIn_trace (s : State) (a : Nat) (v : Byte) : (s.putIn a v).trace = s.trace := rfl
@[simp] theorem State.putIn_epoch (s : State) (a : Nat) (v : Byte) : (s.putIn a v).epoch = s.epoch := rfl
@[simp] theorem State.putIn_unit (s : State) (a : Nat) (v : Byte) : (s.putIn a v).unit = s.unit := rfl

/-! ### State.advance -/

@[simp] theorem State.advance_busy (s : State) (p : Phase) (t : Transients) : (s.advance p t).busy = s.busy := rfl
@[simp] theorem State.advance_done (s : State) (p : Phase) (t : Transients) : (s.advance p t).done = s.done := rfl
@[simp] theorem State.advance_keyv (s : State) (p : Phase) (t : Transients) : (s.advance p t).keyv = s.keyv := rfl
@[simp] theorem State.advance_err (s : State) (p : Phase) (t : Transients) : (s.advance p t).err = s.err := rfl
@[simp] theorem State.advance_envlen (s : State) (p : Phase) (t : Transients) : (s.advance p t).envlen = s.envlen := rfl
@[simp] theorem State.advance_outlen (s : State) (p : Phase) (t : Transients) : (s.advance p t).outlen = s.outlen := rfl
@[simp] theorem State.advance_sk (s : State) (p : Phase) (t : Transients) : (s.advance p t).sk = s.sk := rfl
@[simp] theorem State.advance_inMem (s : State) (p : Phase) (t : Transients) : (s.advance p t).inMem = s.inMem := rfl
@[simp] theorem State.advance_outMem (s : State) (p : Phase) (t : Transients) : (s.advance p t).outMem = s.outMem := rfl
@[simp] theorem State.advance_phase (s : State) (p : Phase) (t : Transients) : (s.advance p t).phase = p := rfl
@[simp] theorem State.advance_tr (s : State) (p : Phase) (t : Transients) : (s.advance p t).tr = t := rfl
@[simp] theorem State.advance_agenda (s : State) (p : Phase) (t : Transients) : (s.advance p t).agenda = s.agenda := rfl
@[simp] theorem State.advance_answer (s : State) (p : Phase) (t : Transients) : (s.advance p t).answer = s.answer := rfl
@[simp] theorem State.advance_trace (s : State) (p : Phase) (t : Transients) : (s.advance p t).trace = s.trace := rfl
@[simp] theorem State.advance_epoch (s : State) (p : Phase) (t : Transients) : (s.advance p t).epoch = s.epoch := rfl
@[simp] theorem State.advance_unit (s : State) (p : Phase) (t : Transients) : (s.advance p t).unit = s.unit := rfl

/-! ### State.request -/

@[simp] theorem State.request_busy (s : State) (rs : List Request) : (s.request rs).busy = s.busy := rfl
@[simp] theorem State.request_done (s : State) (rs : List Request) : (s.request rs).done = s.done := rfl
@[simp] theorem State.request_keyv (s : State) (rs : List Request) : (s.request rs).keyv = s.keyv := rfl
@[simp] theorem State.request_err (s : State) (rs : List Request) : (s.request rs).err = s.err := rfl
@[simp] theorem State.request_envlen (s : State) (rs : List Request) : (s.request rs).envlen = s.envlen := rfl
@[simp] theorem State.request_outlen (s : State) (rs : List Request) : (s.request rs).outlen = s.outlen := rfl
@[simp] theorem State.request_sk (s : State) (rs : List Request) : (s.request rs).sk = s.sk := rfl
@[simp] theorem State.request_inMem (s : State) (rs : List Request) : (s.request rs).inMem = s.inMem := rfl
@[simp] theorem State.request_outMem (s : State) (rs : List Request) : (s.request rs).outMem = s.outMem := rfl
@[simp] theorem State.request_phase (s : State) (rs : List Request) : (s.request rs).phase = s.phase := rfl
@[simp] theorem State.request_tr (s : State) (rs : List Request) : (s.request rs).tr = s.tr := rfl
@[simp] theorem State.request_agenda (s : State) (rs : List Request) : (s.request rs).agenda = s.agenda := rfl
@[simp] theorem State.request_answer (s : State) (rs : List Request) : (s.request rs).answer = s.answer := rfl
@[simp] theorem State.request_trace (s : State) (rs : List Request) : (s.request rs).trace = s.trace ++ rs := rfl
@[simp] theorem State.request_epoch (s : State) (rs : List Request) : (s.request rs).epoch = s.epoch := rfl
@[simp] theorem State.request_unit (s : State) (rs : List Request) : (s.request rs).unit = s.unit := rfl

/-! ### State.setAgenda -/

@[simp] theorem State.setAgenda_busy (s : State) (l : List Turn) : (s.setAgenda l).busy = s.busy := rfl
@[simp] theorem State.setAgenda_done (s : State) (l : List Turn) : (s.setAgenda l).done = s.done := rfl
@[simp] theorem State.setAgenda_keyv (s : State) (l : List Turn) : (s.setAgenda l).keyv = s.keyv := rfl
@[simp] theorem State.setAgenda_err (s : State) (l : List Turn) : (s.setAgenda l).err = s.err := rfl
@[simp] theorem State.setAgenda_envlen (s : State) (l : List Turn) : (s.setAgenda l).envlen = s.envlen := rfl
@[simp] theorem State.setAgenda_outlen (s : State) (l : List Turn) : (s.setAgenda l).outlen = s.outlen := rfl
@[simp] theorem State.setAgenda_sk (s : State) (l : List Turn) : (s.setAgenda l).sk = s.sk := rfl
@[simp] theorem State.setAgenda_inMem (s : State) (l : List Turn) : (s.setAgenda l).inMem = s.inMem := rfl
@[simp] theorem State.setAgenda_outMem (s : State) (l : List Turn) : (s.setAgenda l).outMem = s.outMem := rfl
@[simp] theorem State.setAgenda_phase (s : State) (l : List Turn) : (s.setAgenda l).phase = s.phase := rfl
@[simp] theorem State.setAgenda_tr (s : State) (l : List Turn) : (s.setAgenda l).tr = s.tr := rfl
@[simp] theorem State.setAgenda_agenda (s : State) (l : List Turn) : (s.setAgenda l).agenda = l := rfl
@[simp] theorem State.setAgenda_answer (s : State) (l : List Turn) : (s.setAgenda l).answer = s.answer := rfl
@[simp] theorem State.setAgenda_trace (s : State) (l : List Turn) : (s.setAgenda l).trace = s.trace := rfl
@[simp] theorem State.setAgenda_epoch (s : State) (l : List Turn) : (s.setAgenda l).epoch = s.epoch := rfl
@[simp] theorem State.setAgenda_unit (s : State) (l : List Turn) : (s.setAgenda l).unit = s.unit := rfl

/-! ### State.startCall -/

@[simp] theorem State.startCall_busy (s : State) : (s.startCall).busy = true := rfl
@[simp] theorem State.startCall_done (s : State) : (s.startCall).done = false := rfl
@[simp] theorem State.startCall_keyv (s : State) : (s.startCall).keyv = s.keyv := rfl
@[simp] theorem State.startCall_err (s : State) : (s.startCall).err = none := rfl
@[simp] theorem State.startCall_envlen (s : State) : (s.startCall).envlen = s.envlen := rfl
@[simp] theorem State.startCall_outlen (s : State) : (s.startCall).outlen = 0 := rfl
@[simp] theorem State.startCall_sk (s : State) : (s.startCall).sk = s.sk := rfl
@[simp] theorem State.startCall_inMem (s : State) : (s.startCall).inMem = s.inMem := rfl
@[simp] theorem State.startCall_outMem (s : State) : (s.startCall).outMem = s.outMem := rfl
@[simp] theorem State.startCall_phase (s : State) : (s.startCall).phase = .unpack := rfl
@[simp] theorem State.startCall_tr (s : State) : (s.startCall).tr = s.tr := rfl
@[simp] theorem State.startCall_agenda (s : State) : (s.startCall).agenda = s.agenda := rfl
@[simp] theorem State.startCall_answer (s : State) : (s.startCall).answer = s.answer := rfl
@[simp] theorem State.startCall_trace (s : State) : (s.startCall).trace = [] := rfl
@[simp] theorem State.startCall_epoch (s : State) : (s.startCall).epoch = s.epoch := rfl
@[simp] theorem State.startCall_unit (s : State) : (s.startCall).unit = s.unit := rfl

/-! ### State.raise -/

@[simp] theorem State.raise_busy (s : State) (k : ErrKind) : (s.raise k).busy = false := rfl
@[simp] theorem State.raise_done (s : State) (k : ErrKind) : (s.raise k).done = true := rfl
@[simp] theorem State.raise_keyv (s : State) (k : ErrKind) : (s.raise k).keyv = s.keyv := rfl
@[simp] theorem State.raise_err (s : State) (k : ErrKind) : (s.raise k).err = some k := rfl
@[simp] theorem State.raise_envlen (s : State) (k : ErrKind) : (s.raise k).envlen = s.envlen := rfl
@[simp] theorem State.raise_outlen (s : State) (k : ErrKind) : (s.raise k).outlen = 0 := rfl
@[simp] theorem State.raise_sk (s : State) (k : ErrKind) : (s.raise k).sk = s.sk := rfl
@[simp] theorem State.raise_inMem (s : State) (k : ErrKind) : (s.raise k).inMem = s.inMem := rfl
@[simp] theorem State.raise_outMem (s : State) (k : ErrKind) : (s.raise k).outMem = s.outMem := rfl
@[simp] theorem State.raise_phase (s : State) (k : ErrKind) : (s.raise k).phase = .idle := rfl
@[simp] theorem State.raise_tr (s : State) (k : ErrKind) : (s.raise k).tr = Transients.invalid := rfl
@[simp] theorem State.raise_agenda (s : State) (k : ErrKind) : (s.raise k).agenda = s.agenda := rfl
@[simp] theorem State.raise_answer (s : State) (k : ErrKind) : (s.raise k).answer = s.answer := rfl
@[simp] theorem State.raise_trace (s : State) (k : ErrKind) : (s.raise k).trace = s.trace := rfl
@[simp] theorem State.raise_epoch (s : State) (k : ErrKind) : (s.raise k).epoch = s.epoch := rfl
@[simp] theorem State.raise_unit (s : State) (k : ErrKind) : (s.raise k).unit = s.unit := rfl

/-! ### State.endCall -/

@[simp] theorem State.endCall_busy (s : State) (n : Word32) (pt : Bytes) : (s.endCall n pt).busy = false := rfl
@[simp] theorem State.endCall_done (s : State) (n : Word32) (pt : Bytes) : (s.endCall n pt).done = true := rfl
@[simp] theorem State.endCall_keyv (s : State) (n : Word32) (pt : Bytes) : (s.endCall n pt).keyv = s.keyv := rfl
@[simp] theorem State.endCall_err (s : State) (n : Word32) (pt : Bytes) : (s.endCall n pt).err = none := rfl
@[simp] theorem State.endCall_envlen (s : State) (n : Word32) (pt : Bytes) : (s.endCall n pt).envlen = s.envlen := rfl
@[simp] theorem State.endCall_outlen (s : State) (n : Word32) (pt : Bytes) : (s.endCall n pt).outlen = n := rfl
@[simp] theorem State.endCall_sk (s : State) (n : Word32) (pt : Bytes) : (s.endCall n pt).sk = s.sk := rfl
@[simp] theorem State.endCall_inMem (s : State) (n : Word32) (pt : Bytes) : (s.endCall n pt).inMem = s.inMem := rfl
@[simp] theorem State.endCall_outMem (s : State) (n : Word32) (pt : Bytes) : (s.endCall n pt).outMem = memoryPutAll s.outMem 0 pt := rfl
@[simp] theorem State.endCall_phase (s : State) (n : Word32) (pt : Bytes) : (s.endCall n pt).phase = .idle := rfl
@[simp] theorem State.endCall_tr (s : State) (n : Word32) (pt : Bytes) : (s.endCall n pt).tr = Transients.invalid := rfl
@[simp] theorem State.endCall_agenda (s : State) (n : Word32) (pt : Bytes) : (s.endCall n pt).agenda = s.agenda := rfl
@[simp] theorem State.endCall_answer (s : State) (n : Word32) (pt : Bytes) : (s.endCall n pt).answer = s.answer := rfl
@[simp] theorem State.endCall_trace (s : State) (n : Word32) (pt : Bytes) : (s.endCall n pt).trace = s.trace := rfl
@[simp] theorem State.endCall_epoch (s : State) (n : Word32) (pt : Bytes) : (s.endCall n pt).epoch = s.epoch := rfl
@[simp] theorem State.endCall_unit (s : State) (n : Word32) (pt : Bytes) : (s.endCall n pt).unit = s.unit := rfl

/-! ### State.afterReset -/

@[simp] theorem State.afterReset_busy (s : State) : (s.afterReset).busy = false := rfl
@[simp] theorem State.afterReset_done (s : State) : (s.afterReset).done = false := rfl
@[simp] theorem State.afterReset_keyv (s : State) : (s.afterReset).keyv = false := rfl
@[simp] theorem State.afterReset_err (s : State) : (s.afterReset).err = none := rfl
@[simp] theorem State.afterReset_envlen (s : State) : (s.afterReset).envlen = 0 := rfl
@[simp] theorem State.afterReset_outlen (s : State) : (s.afterReset).outlen = 0 := rfl
@[simp] theorem State.afterReset_sk (s : State) : (s.afterReset).sk = none := rfl
@[simp] theorem State.afterReset_inMem (s : State) : (s.afterReset).inMem = [] := rfl
@[simp] theorem State.afterReset_outMem (s : State) : (s.afterReset).outMem = [] := rfl
@[simp] theorem State.afterReset_phase (s : State) : (s.afterReset).phase = .idle := rfl
@[simp] theorem State.afterReset_tr (s : State) : (s.afterReset).tr = Transients.invalid := rfl
@[simp] theorem State.afterReset_agenda (s : State) : (s.afterReset).agenda = s.agenda := rfl
@[simp] theorem State.afterReset_answer (s : State) : (s.afterReset).answer = .none := rfl
@[simp] theorem State.afterReset_trace (s : State) : (s.afterReset).trace = [] := rfl
@[simp] theorem State.afterReset_epoch (s : State) : (s.afterReset).epoch = s.epoch + 1 := rfl
@[simp] theorem State.afterReset_unit (s : State) : (s.afterReset).unit = s.unit := rfl

/-! ### The state after reset (10 R50) -/

@[simp] theorem State.reset_busy : State.reset.busy = false := rfl
@[simp] theorem State.reset_done : State.reset.done = false := rfl
@[simp] theorem State.reset_keyv : State.reset.keyv = false := rfl
@[simp] theorem State.reset_err : State.reset.err = none := rfl
@[simp] theorem State.reset_envlen : State.reset.envlen = 0 := rfl
@[simp] theorem State.reset_outlen : State.reset.outlen = 0 := rfl
@[simp] theorem State.reset_sk : State.reset.sk = none := rfl
@[simp] theorem State.reset_inMem : State.reset.inMem = [] := rfl
@[simp] theorem State.reset_outMem : State.reset.outMem = [] := rfl
@[simp] theorem State.reset_phase : State.reset.phase = .idle := rfl
@[simp] theorem State.reset_tr : State.reset.tr = Transients.invalid := rfl
@[simp] theorem State.reset_agenda : State.reset.agenda = [] := rfl
@[simp] theorem State.reset_answer : State.reset.answer = .none := rfl
@[simp] theorem State.reset_trace : State.reset.trace = [] := rfl
@[simp] theorem State.reset_epoch : State.reset.epoch = 0 := rfl
@[simp] theorem State.reset_unit : State.reset.unit = 0 := rfl

end Sys2Proof.Machine
end

