-- ==== Sys2Proof/Laws/Ops.lean ====
section
/-! SUPPORT. One lemma for each shared operation that says what it can do. -/

namespace Sys2Proof.Machine

/-! ### Byte strings -/

@[simp] theorem be32_length (v : Word32) : (be32 v).length = 4 := rfl

@[simp] theorem zeros_length (n : Nat) : (zeros n).length = n := by simp [zeros]

/-- ceil_div(a, 32) blocks of 32 cover `a`, and one block fewer does not. -/
theorem ceilDiv_spec (a : Nat) :
    a ≤ 32 * ceilDiv a 32 ∧ 32 * ceilDiv a 32 < a + 32 := by
  unfold ceilDiv; omega

/-- The number of blocks is the only one with that property. -/
theorem ceilDiv_unique {a b : Nat} (h1 : a ≤ 32 * b) (h2 : 32 * b < a + 32) :
    ceilDiv a 32 = b := by
  have := ceilDiv_spec a; omega

theorem sliceBytes_length (l : Bytes) {a b : Nat} (h : b ≤ l.length) :
    (sliceBytes l a b).length = b - a := by
  simp [sliceBytes, h]

/-- Two adjacent slices are the slice of the whole. -/
theorem sliceBytes_append (l : Bytes) {a b c : Nat} (hab : a ≤ b) (hbc : b ≤ c) :
    sliceBytes l a b ++ sliceBytes l b c = sliceBytes l a c := by
  apply List.ext_getElem?
  intro i
  simp only [sliceBytes, List.getElem?_append, List.length_drop, List.length_take,
    List.getElem?_drop, List.getElem?_take]
  by_cases hl : l.length ≤ a + i
  · have h1 : l[a + i]? = none := List.getElem?_eq_none hl
    have h2 : l[b + (i - (min b l.length - a))]? = none := List.getElem?_eq_none (by omega)
    simp [h1, h2]
  · split
    · rw [if_pos (by omega), if_pos (by omega)]
    · have : b + (i - (min b l.length - a)) = a + i := by omega
      rw [this]

/-- The whole sequence as a slice. -/
@[simp] theorem sliceBytes_whole (l : Bytes) : sliceBytes l 0 l.length = l := by
  simp [sliceBytes]

/-! ### The key derivation -/

/-- The hash inputs of blocks `c`, `c + 1`, ... (30 R94). -/
theorem kdfBlocks_spec (cfg : Config) (seed : Bytes) (n : Nat) (w : KdfLoop) :
    kdfBlocks cfg seed n w =
      ⟨w.out ++ ((List.range n).map fun i =>
          (requestSha256 cfg (kdfInput seed (w.ctr + BitVec.ofNat 32 i))).val).flatten,
        w.ctr + BitVec.ofNat 32 n,
        w.requests ++ (List.range n).map fun i =>
          .sha256 (kdfInput seed (w.ctr + BitVec.ofNat 32 i))⟩ := by
  induction n generalizing w with
  | zero => simp [kdfBlocks]
  | succ n ih =>
    have hc : ∀ i : Nat, w.ctr + 1 + BitVec.ofNat 32 i = w.ctr + BitVec.ofNat 32 (i + 1) := by
      intro i
      rw [show (i + 1) = 1 + i from Nat.add_comm _ _, BitVec.ofNat_add]
      simp [BitVec.add_assoc]
    rw [kdfBlocks, ih]
    simp only [kdfBlock, hc, List.range_succ_eq_map, List.map_cons, List.map_map,
      List.flatten_cons, List.append_assoc, Function.comp_def, Nat.succ_eq_add_one,
      List.singleton_append]
    simp

/-- Every block of digests has 32 bytes, so `n` of them have `32 * n`. -/
theorem digests_length (f : Nat → BytesN 32) (n : Nat) :
    ((List.range n).map fun i => (f i).val).flatten.length = 32 * n := by
  induction n with
  | zero => rfl
  | succ n ih =>
    rw [List.range_succ, List.map_append, List.flatten_append, List.length_append, ih]
    simp [(f n).property]
    omega

/-- Byte `j` of the digests is byte `j mod 32` of digest `j / 32`. -/
theorem digests_getElem? (f : Nat → BytesN 32) {n j : Nat} (h : j < 32 * n) :
    (((List.range n).map fun i => (f i).val).flatten)[j]? = (f (j / 32)).val[j % 32]? := by
  induction n with
  | zero => omega
  | succ n ih =>
    rw [List.range_succ, List.map_append, List.flatten_append, List.getElem?_append,
      digests_length]
    split
    · exact ih ‹_›
    · have : j / 32 = n := by omega
      simp [this]
      congr 1
      omega

/-- The loop from its start (42 R147). -/
theorem kdfRun_spec (cfg : Config) (seed : Bytes) (len : Nat) :
    kdfRun cfg seed len =
      ⟨((List.range (ceilDiv len 32)).map fun i =>
          (requestSha256 cfg (kdfInput seed (BitVec.ofNat 32 (i + 1)))).val).flatten,
        BitVec.ofNat 32 (ceilDiv len 32 + 1),
        (List.range (ceilDiv len 32)).map fun i =>
          .sha256 (kdfInput seed (BitVec.ofNat 32 (i + 1)))⟩ := by
  have hc : ∀ i : Nat, (1 : Word32) + BitVec.ofNat 32 i = BitVec.ofNat 32 (i + 1) := by
    intro i; rw [Nat.add_comm i 1, BitVec.ofNat_add]; rfl
  simp only [kdfRun, kdfBlocks_spec, hc, List.nil_append]

/-- Byte `j` of the derived material: byte `j mod 32` of the block with counter `j / 32 + 1`, whatever
the length. -/
theorem kdf_getElem? (cfg : Config) (seed : Bytes) {len j : Nat} (h : j < len) :
    (kdf cfg seed len)[j]? =
      (requestSha256 cfg (kdfInput seed (BitVec.ofNat 32 (j / 32 + 1)))).val[j % 32]? := by
  have := ceilDiv_spec len
  simp only [kdf, kdfRun_spec]
  rw [List.getElem?_take, if_pos h, digests_getElem?
    (fun i => requestSha256 cfg (kdfInput seed (BitVec.ofNat 32 (i + 1)))) (by omega)]

/-! ### The stream cipher -/

/-- The cipher looks at the bytes alone: equal bytes give equal bytes, under any name for the length. -/
theorem applyStream_val_congr {m n : Nat} {c k : BytesN m} {c' k' : BytesN n}
    (hc : c.val = c'.val) (hk : k.val = k'.val) :
    (applyStream c k).val = (applyStream c' k').val := by
  simp [applyStream, hc, hk]

theorem applyStream_getElem? {n : Nat} (c k : BytesN n) {j : Nat} (hj : j < n) :
    (applyStream c k).val[j]? = some (c.val.getD j 0 ^^^ k.val.getD j 0) := by
  have hc : j < c.val.length := c.property.symm ▸ hj
  have hk : j < k.val.length := k.property.symm ▸ hj
  simp [applyStream, List.getElem?_zipWith, List.getD, List.getElem?_eq_getElem hc,
    List.getElem?_eq_getElem hk]

/-! ### The delegates -/

/-- EC.parse answers Invalid for a wrong length or a wrong leading byte (41 R131, 30 R105). -/
theorem requestParse_some {cfg : Config} {b : Bytes} {p : Point}
    (h : requestParse cfg b = some p) :
    b.length = 65 ∧ b.head? = some 0x04#8 ∧ cfg.decodePoint b = some p := by
  unfold requestParse at h
  split at h
  · rename_i hc; exact ⟨hc.1, hc.2, h⟩
  · cases h

/-! ### Reads of the spaces -/

@[simp] theorem inBytes_length (cfg : Config) (s : State) (a n : Nat) :
    (inBytes cfg s a n).length = n := by simp [inBytes]

@[simp] theorem inBytesN_val (cfg : Config) (s : State) (a n : Nat) :
    (inBytesN cfg s a n).val = inBytes cfg s a n := rfl

theorem inBytes_getElem? (cfg : Config) (s : State) (a : Nat) {n j : Nat} (h : j < n) :
    (inBytes cfg s a n)[j]? = some (inByte cfg s (a + j)) := by
  simp [inBytes, h]

/-- Reads of adjacent regions join. -/
theorem inBytes_append (cfg : Config) (s : State) (a m n : Nat) :
    inBytes cfg s a m ++ inBytes cfg s (a + m) n = inBytes cfg s a (m + n) := by
  simp [inBytes, List.range_add, Function.comp_def, Nat.add_assoc]

/-- A slice of a read is a read. -/
theorem sliceBytes_inBytes (cfg : Config) (s : State) {a b n : Nat} (hab : a ≤ b) (hb : b ≤ n) :
    sliceBytes (inBytes cfg s 0 n) a b = inBytes cfg s a (b - a) := by
  apply List.ext_getElem?
  intro i
  by_cases hi : i < b - a
  · rw [inBytes_getElem? cfg s a hi]
    simp only [sliceBytes, List.getElem?_drop, List.getElem?_take]
    rw [if_pos (by omega), inBytes_getElem? cfg s 0 (by omega)]
    simp
  · have hl : (sliceBytes (inBytes cfg s 0 n) a b).length = b - a :=
      sliceBytes_length _ (by rw [inBytes_length]; exact hb)
    rw [List.getElem?_eq_none (by rw [hl]; omega),
      List.getElem?_eq_none (by rw [inBytes_length]; omega)]

/-- Reads of the IN space look at its cells and the draw, and at nothing else. -/
theorem inByte_congr {cfg : Config} {s t : State} (hm : t.inMem = s.inMem)
    (he : t.epoch = s.epoch) (hu : t.unit = s.unit) (a : Nat) :
    inByte cfg t a = inByte cfg s a := by
  simp [inByte, hm, he, hu]

theorem inBytes_congr {cfg : Config} {s t : State} (hm : t.inMem = s.inMem)
    (he : t.epoch = s.epoch) (hu : t.unit = s.unit) (a n : Nat) :
    inBytes cfg t a n = inBytes cfg s a n := by
  simp [inBytes, inByte_congr hm he hu]

/-- WRENV's store: the byte written, every other byte as before. -/
theorem inByte_putIn (cfg : Config) (s : State) (a : Nat) (v : Byte) (x : Nat) :
    inByte cfg (s.putIn a v) x = if x = a then v else inByte cfg s x := by
  split
  · rename_i h; subst h; simp [inByte]
  · rename_i h; simp [inByte, memoryFind_memoryPut_other _ _ h]

/-! ### Operands -/

theorem regionsExist_iff (cfg : Config) (len : Nat) :
    regionsExist cfg len = true ↔ 97 ≤ len ∧ len ≤ cfg.maxEnvLen := by
  simp [regionsExist]

theorem regionsExist_false_iff (cfg : Config) (len : Nat) :
    regionsExist cfg len = false ↔ len < 97 ∨ cfg.maxEnvLen < len := by
  rw [← Bool.not_eq_true, regionsExist_iff]; omega

@[simp] theorem withReg_some {α : Type} (r : RegName) (x : α) (k : α → Result) :
    withReg r (some x) k = k x := rfl

@[simp] theorem withReg_none {α : Type} (r : RegName) (k : α → Result) :
    withReg r none k = .fault (.invalidRegister r) := rfl

/-- A stage that goes on found the register valid. -/
theorem withReg_next {α : Type} {r : RegName} {v : Option α} {k : α → Result} {t : State}
    (h : withReg r v k = .next t) : ∃ x, v = some x ∧ k x = .next t := by
  cases v with
  | none => simp at h
  | some x => exact ⟨x, rfl, h⟩

/-- On a value of the contract's length the stage goes on. -/
@[simp] theorem withLength_val (r : RegName) {n : Nat} (v : BytesN n) (k : BytesN n → Result) :
    withLength r v.val n k = k v := dif_pos v.property

theorem withLength_next {r : RegName} {v : Bytes} {n : Nat} {k : BytesN n → Result} {t : State}
    (h : withLength r v n k = .next t) : ∃ x : BytesN n, v = x.val ∧ k x = .next t := by
  unfold withLength at h
  split at h
  · exact ⟨⟨v, ‹_›⟩, rfl, h⟩
  · cases h

theorem withCiphertext_next {cfg : Config} {s : State} {n : Nat} {k : BytesN n → Result}
    {t : State} (h : withCiphertext cfg s n k = .next t) :
    ctStart + n ≤ cfg.maxEnvLen ∧ k (inBytesN cfg s ctStart n) = .next t := by
  unfold withCiphertext at h
  split at h
  · exact ⟨‹_›, h⟩
  · cases h

theorem withOutRegion_next {cfg : Config} {n : Nat} {k : Result} {t : State}
    (h : withOutRegion cfg n k = .next t) : n ≤ cfg.outSize ∧ k = .next t := by
  unfold withOutRegion at h
  split at h
  · exact ⟨‹_›, h⟩
  · cases h

/-! ### Flags -/

theorem startAccepted_iff (d : Word32) (s : State) :
    startAccepted d s = true ↔ d.getLsbD 0 = true ∧ s.busy = false ∧ s.keyv = true := by
  simp [startAccepted, and_assoc]

theorem outReadable_iff (s : State) (a : Nat) :
    outReadable s a = true ↔ s.done = true ∧ s.err = none ∧ a < s.outlen.toNat := by
  simp [outReadable, and_assoc]

theorem tagsMatch_iff (x y : BytesN 32) : tagsMatch x y = true ↔ x = y := by
  simp [tagsMatch, Subtype.ext_iff]

@[simp] theorem phaseOfCode_phaseCode (p : Phase) : phaseOfCode (phaseCode p) = some p := by
  cases p <;> rfl

end Sys2Proof.Machine
end

