-- ==== Sys2Proof/Laws/PerInstr.lean ====
section
/-! SUPPORT. The families of statements made per operation (LAWS.json). `TableWord` says of each
operation that its encoded form has the format of its row of spec/opcode_table.json and that its
naming word, or its PHASE code, has the row's match value under the row's mask (30 R100, R101). -/

namespace Sys2Proof

/-- The match value of the operation's row of the opcode table. -/
def Instr.tableMatch : Instr → Nat
  | .start _ => 0x20
  | .rdstatus => 0x04
  | .wrlen _ => 0x28
  | .rdlen => 0x08
  | .rdoutlen => 0x0C
  | .wrkey _ => 0x30
  | .wrenv _ _ => 0x60
  | .rdout _ => 0x80
  | .unpack => 1
  | .agree => 2
  | .derive => 3
  | .split => 4
  | .xordec => 5
  | .macchk => 6
  | .discard => 7
  | .release => 8

/-- The encoded form matches the row `m` of the format `f`: mask 0xFC for a HOST row, 0xF for a STAGE
row. The bits that the mask leaves out are 00 (30 R100). -/
def encodedMatches (f : Format) (m : Nat) : Encoded → Prop
  | .host a => f = .host ∧ (a.word &&& 0xFC#8).toNat = m ∧ a.word &&& 0x03#8 = 0
  | .stage code => f = .stage ∧ (code &&& 0xF#4).toNat = m

/-- A host access matches by its naming word alone. -/
theorem encodedMatches_host {a : HostAccess} {m : Nat} (w : BitVec 8) (hw : a.word = w)
    (h : (w &&& 0xFC#8).toNat = m ∧ w &&& 0x03#8 = 0) : encodedMatches .host m (.host a) :=
  ⟨rfl, hw ▸ h⟩

end Sys2Proof

namespace Sys2Proof.Laws

/-- The operation's encoded form is that of its row of the opcode table. -/
def TableWord.Statement (i : Instr) : Prop := encodedMatches i.format i.tableMatch (encode i)

theorem TableWord.start (data : Word32) : TableWord.Statement (.start data) :=
  encodedMatches_host (m := 0x20) (namingWord 0 true 0) rfl (by decide)
theorem TableWord.rdstatus : TableWord.Statement .rdstatus :=
  encodedMatches_host (m := 0x04) (namingWord 0 false 1) rfl (by decide)
theorem TableWord.wrlen (data : Word32) : TableWord.Statement (.wrlen data) :=
  encodedMatches_host (m := 0x28) (namingWord 0 true 2) rfl (by decide)
theorem TableWord.rdlen : TableWord.Statement .rdlen :=
  encodedMatches_host (m := 0x08) (namingWord 0 false 2) rfl (by decide)
theorem TableWord.rdoutlen : TableWord.Statement .rdoutlen :=
  encodedMatches_host (m := 0x0C) (namingWord 0 false 3) rfl (by decide)
theorem TableWord.wrkey (key : PrivKey) : TableWord.Statement (.wrkey key) :=
  encodedMatches_host (m := 0x30) (namingWord 0 true 4) rfl (by decide)
theorem TableWord.wrenv (addr : Nat) (data : Byte) : TableWord.Statement (.wrenv addr data) :=
  encodedMatches_host (m := 0x60) (namingWord 1 true 0) rfl (by decide)
theorem TableWord.rdout (addr : Nat) : TableWord.Statement (.rdout addr) :=
  encodedMatches_host (m := 0x80) (namingWord 2 false 0) rfl (by decide)
theorem TableWord.unpack : TableWord.Statement .unpack := ⟨rfl, by decide⟩
theorem TableWord.agree : TableWord.Statement .agree := ⟨rfl, by decide⟩
theorem TableWord.derive : TableWord.Statement .derive := ⟨rfl, by decide⟩
theorem TableWord.split : TableWord.Statement .split := ⟨rfl, by decide⟩
theorem TableWord.xordec : TableWord.Statement .xordec := ⟨rfl, by decide⟩
theorem TableWord.macchk : TableWord.Statement .macchk := ⟨rfl, by decide⟩
theorem TableWord.discard : TableWord.Statement .discard := ⟨rfl, by decide⟩
theorem TableWord.release : TableWord.Statement .release := ⟨rfl, by decide⟩

end Sys2Proof.Laws
end

