-- ==== Sys2Proof/Laws/Safety.lean ====
section
/-! SUPPORT. The regions of the envelope in the buffer (20 R67), as the predicates of Safety.lean use
them. -/

namespace Sys2Proof.Machine

/-- CTLEN holds the ciphertext length: it fits in 32 bits. -/
theorem envCtLen_toNat (s : State) : (BitVec.ofNat 32 (envCtLen s)).toNat = envCtLen s := by
  have := s.envlen.isLt
  simp [envCtLen, envLength, ciphertextLength]
  omega

@[simp] theorem envelope_length (cfg : Config) (s : State) :
    (envelope cfg s).length = envLength s := by simp [envelope]

/-- The three slices of the whole envelope are the three regions in the buffer. -/
theorem envelope_slices (cfg : Config) (s : State) (h : 97 ≤ envLength s) :
    sliceBytes (envelope cfg s) 0 65 = (envEpk cfg s).val ∧
    sliceBytes (envelope cfg s) 65 (envLength s - 32) = (envCt cfg s).val ∧
    sliceBytes (envelope cfg s) (envLength s - 32) (envLength s) = (envTag cfg s).val := by
  unfold envelope
  refine ⟨?_, ?_, ?_⟩
  · rw [sliceBytes_inBytes _ _ (by omega) (by omega)]; rfl
  · rw [sliceBytes_inBytes _ _ (by omega) (by omega)]
    unfold envCt envCtLen ciphertextLength ctStart
    congr 1
  · rw [sliceBytes_inBytes _ _ (by omega) (by omega),
      show envLength s - (envLength s - 32) = 32 by omega]
    rfl

end Sys2Proof.Machine
end

