-- ==== Sys2Proof/Laws/Step.lean ====
section
/-! SUPPORT. What a turn can do: the stage of each PHASE, and the cases of a step. `ex` is what executes
an operation. -/

namespace Sys2Proof.Machine

variable {ex : Instr → State → Result} {s t : State}

/-! ### The sequencer's turn, by PHASE -/

theorem sequencerTurn_idle (h : s.phase = .idle) : sequencerTurn ex s = .next s := by
  simp only [sequencerTurn, h]; rfl

theorem sequencerTurn_unpack (h : s.phase = .unpack) : sequencerTurn ex s = ex .unpack s := by
  simp only [sequencerTurn, h]; rfl

theorem sequencerTurn_agree (h : s.phase = .agree) : sequencerTurn ex s = ex .agree s := by
  simp only [sequencerTurn, h]; rfl

theorem sequencerTurn_derive (h : s.phase = .derive) : sequencerTurn ex s = ex .derive s := by
  simp only [sequencerTurn, h]; rfl

theorem sequencerTurn_split (h : s.phase = .split) : sequencerTurn ex s = ex .split s := by
  simp only [sequencerTurn, h]; rfl

theorem sequencerTurn_xordec (h : s.phase = .xordec) : sequencerTurn ex s = ex .xordec s := by
  simp only [sequencerTurn, h]; rfl

theorem sequencerTurn_macchk (h : s.phase = .macchk) : sequencerTurn ex s = ex .macchk s := by
  simp only [sequencerTurn, h]; rfl

theorem sequencerTurn_discard (h : s.phase = .discard) : sequencerTurn ex s = ex .discard s := by
  simp only [sequencerTurn, h]; rfl

theorem sequencerTurn_release (h : s.phase = .release) : sequencerTurn ex s = ex .release s := by
  simp only [sequencerTurn, h]; rfl

/-! ### A turn, by the agenda -/

theorem takeTurn_nil (h : s.agenda = []) : takeTurn ex s = sequencerTurn ex s := by
  simp only [takeTurn, h]

theorem takeTurn_host {a : HostAccess} {rest : List Turn} (h : s.agenda = .host a :: rest) :
    takeTurn ex s = hostTurn ex a (s.setAgenda rest) := by
  simp only [takeTurn, h]

theorem takeTurn_sequencer {rest : List Turn} (h : s.agenda = .sequencer :: rest) :
    takeTurn ex s = sequencerTurn ex (s.setAgenda rest) := by
  simp only [takeTurn, h]

theorem takeTurn_reset {rest : List Turn} (h : s.agenda = .reset :: rest) :
    takeTurn ex s = .next (s.setAgenda rest).afterReset := by
  simp only [takeTurn, h]

/-- What the host's turn can be: one of the eight operations, a read of CTRL or KEY, an ignored write,
or no move at all (30 R100, R105). -/
theorem hostTurn_next {a : HostAccess} (h : hostTurn ex a s = .next t) :
    (∃ i, decode (.host a) = .op i ∧ i.format = .host ∧ ex i s = .next t) ∨
      t = s.setAnswer (.word 0) ∨ t = s := by
  unfold hostTurn takeUp at h
  generalize hd : decode (.host a) = d at h
  cases d with
  | op i =>
    refine .inl ⟨i, rfl, ?_, h⟩
    simp only [decode, decodeHost, decodeReg] at hd
    (repeat' split at hd) <;> simp at hd <;> subst hd <;> rfl
  | readsZero => simp at h; exact .inr (.inl h.symm)
  | ignored => simp at h; exact .inr (.inr h.symm)
  | idle => simp at h; exact .inr (.inr h.symm)
  | undefinedRegister => simp at h
  | undefinedDirection => simp at h
  | undefinedSpace => simp at h
  | undefinedStage => simp at h

/-- What the sequencer's turn can be: waiting at PHASE 0, or a stage. -/
theorem sequencerTurn_next (h : sequencerTurn ex s = .next t) :
    (s.phase = .idle ∧ t = s) ∨
      ∃ i, i.format = .stage ∧ decode (.stage (phaseCode s.phase)) = .op i ∧
        ex i s = .next t := by
  cases hp : s.phase with
  | idle => rw [sequencerTurn_idle hp] at h; simp at h; exact .inl ⟨rfl, h.symm⟩
  | unpack => rw [sequencerTurn_unpack hp] at h; exact .inr ⟨.unpack, rfl, rfl, h⟩
  | agree => rw [sequencerTurn_agree hp] at h; exact .inr ⟨.agree, rfl, rfl, h⟩
  | derive => rw [sequencerTurn_derive hp] at h; exact .inr ⟨.derive, rfl, rfl, h⟩
  | split => rw [sequencerTurn_split hp] at h; exact .inr ⟨.split, rfl, rfl, h⟩
  | xordec => rw [sequencerTurn_xordec hp] at h; exact .inr ⟨.xordec, rfl, rfl, h⟩
  | macchk => rw [sequencerTurn_macchk hp] at h; exact .inr ⟨.macchk, rfl, rfl, h⟩
  | discard => rw [sequencerTurn_discard hp] at h; exact .inr ⟨.discard, rfl, rfl, h⟩
  | release => rw [sequencerTurn_release hp] at h; exact .inr ⟨.release, rfl, rfl, h⟩

/-- What a turn can be: the sequencer's (the agenda is empty, or gives it the turn), the host's, or
reset. -/
theorem takeTurn_next (h : takeTurn ex s = .next t) :
    (∃ rest, (s.agenda = [] ∧ rest = [] ∨ s.agenda = .sequencer :: rest) ∧
        sequencerTurn ex (s.setAgenda rest) = .next t) ∨
      (∃ a rest, s.agenda = .host a :: rest ∧ hostTurn ex a (s.setAgenda rest) = .next t) ∨
      ∃ rest, s.agenda = .reset :: rest ∧ t = (s.setAgenda rest).afterReset := by
  cases ha : s.agenda with
  | nil =>
    rw [takeTurn_nil ha] at h
    have : s.setAgenda [] = s := by simp [State.setAgenda, ← ha]
    exact .inl ⟨[], .inl ⟨rfl, rfl⟩, by rw [this]; exact h⟩
  | cons u rest =>
    cases u with
    | host a => rw [takeTurn_host ha] at h; exact .inr (.inl ⟨a, rest, rfl, h⟩)
    | sequencer => rw [takeTurn_sequencer ha] at h; exact .inl ⟨rest, .inr rfl, h⟩
    | reset =>
      rw [takeTurn_reset ha] at h; simp at h
      exact .inr (.inr ⟨rest, rfl, h.symm⟩)

end Sys2Proof.Machine
end

