-- ==== Sys2Proof/Laws/Script.lean ====
section
/-! SUPPORT. What the runs of Machine/Script.lean can do: turns one after another, one operation of the
host, and WAIT. -/

namespace Sys2Proof.Machine

variable {cfg : Config} {s t : State}

/-! ### Turns -/

@[simp] theorem takeTurns_nil : takeTurns cfg [] s = .next s := rfl

/-- Turns one after another: the second list starts where the first one ended. -/
theorem takeTurns_append {us vs : List Turn} (h : takeTurns cfg us s = .next t) :
    takeTurns cfg (us ++ vs) s = takeTurns cfg vs t := by
  induction us generalizing s with
  | nil => cases h; rfl
  | cons u us ih =>
    simp only [takeTurns, List.cons_append] at h ⊢
    cases hs : stepWith cfg (s.setAgenda (u :: s.agenda)) with
    | next m => rw [hs] at h; exact ih h
    | fault f => rw [hs] at h; cases h
    | refused r => rw [hs] at h; cases h

/-- A turn of the sequencer is the stage that PHASE selects, on the state as it is. -/
theorem takeTurns_sequencer :
    takeTurns cfg [.sequencer] s = sequencerTurn (execWith cfg) s := by
  have h : stepWith cfg (s.setAgenda (.sequencer :: s.agenda)) =
      sequencerTurn (execWith cfg) s := by
    unfold stepWith; rw [takeTurn_sequencer (rest := s.agenda) rfl]; rfl
  simp only [takeTurns, h]
  cases sequencerTurn (execWith cfg) s <;> rfl

/-- At PHASE 0 any number of turns of the sequencer changes nothing. -/
theorem takeTurns_idle {gap : List Turn} (hp : s.phase = .idle) (hg : ∀ u ∈ gap, u = .sequencer) :
    takeTurns cfg gap s = .next s := by
  induction gap with
  | nil => rfl
  | cons u us ih =>
    obtain rfl := hg u (by simp)
    have h1 : takeTurns cfg [.sequencer] s = .next s := by
      rw [takeTurns_sequencer, sequencerTurn_idle hp]
    exact (takeTurns_append (vs := us) h1).trans (ih fun v hv => hg v (by simp [hv]))

/-- The turn of a host operation that decodes to itself is the operation, on the state as it is. -/
theorem takeTurns_op {i : Instr} {a : HostAccess} (he : encode i = .host a)
    (hd : decode (.host a) = .op i) : takeTurns cfg [turnOf i] s = execWith cfg i s := by
  have h : stepWith cfg (s.setAgenda (turnOf i :: s.agenda)) = execWith cfg i s := by
    unfold stepWith
    rw [takeTurn_host (a := a) (rest := s.agenda) (by simp only [turnOf, he]; rfl)]
    simp only [hostTurn, hd, takeUp]; rfl
  simp only [takeTurns, h]
  cases execWith cfg i s <;> rfl

/-! ### One operation of the host -/

@[simp] theorem issue_nil {i : Instr} : issue cfg i [] s = .pending s := rfl

theorem issue_cons {i : Instr} {gap : List Turn} {later : Schedule}
    (h : takeTurns cfg (gap ++ [turnOf i]) s = .next t) :
    issue cfg i (gap :: later) s = .returned t.answer later t := by simp only [issue, h]

/-- An operation that was performed took exactly one entry of the schedule. -/
theorem issue_returned {i : Instr} {sched later : Schedule} {v : HostAnswer}
    (h : issue cfg i sched s = .returned v later t) :
    ∃ gap, sched = gap :: later ∧ takeTurns cfg (gap ++ [turnOf i]) s = .next t ∧
      v = t.answer := by
  unfold issue at h
  split at h
  · cases h
  · rename_i gap rest
    split at h <;> cases h
    exact ⟨gap, rfl, by assumption, rfl⟩

/-! ### Runs one after the other -/

@[simp] theorem HostRun.andThen_returned {α β : Type} (r : α) (later : Schedule) (s : State)
    (f : α → Schedule → State → HostRun β) :
    (HostRun.returned r later s).andThen f = f r later s := rfl

@[simp] theorem HostRun.andThen_pending {α β : Type} (s : State)
    (f : α → Schedule → State → HostRun β) :
    (HostRun.pending s : HostRun α).andThen f = .pending s := rfl

/-- A composed run returns only where its first part did. -/
theorem HostRun.returned_of_andThen {α β : Type} {x : HostRun α} {r : β} {later : Schedule}
    {f : α → Schedule → State → HostRun β} (h : x.andThen f = .returned r later t) :
    ∃ a mid u, x = .returned a mid u ∧ f a mid u = .returned r later t := by
  cases x with
  | returned a mid u => exact ⟨a, mid, u, rfl, h⟩
  | pending u => cases h
  | faulted e => cases h
  | refused e => cases h

/-! ### STATUS as the host reads it -/

/-- v[1] of STATUS is DONE. -/
@[simp] theorem wordDone_statusWord (s : State) : wordDone (statusWord s) = s.done := by
  unfold wordDone statusWord
  cases s.done <;> cases s.busy <;> cases s.keyv <;> cases s.err with
  | none => decide
  | some e => cases e <;> decide

/-- v[6:4] of STATUS is the code of ERR. -/
@[simp] theorem wordErr_statusWord (s : State) : wordErr (statusWord s) = errCode s.err := by
  unfold wordErr statusWord
  cases s.done <;> cases s.busy <;> cases s.keyv <;> cases s.err with
  | none => decide
  | some e => cases e <;> decide

/-- WAIT ends with a STATUS in which DONE is set, after at least one poll. -/
theorem waitDone_returned {sched later : Schedule} {u : Unit}
    (h : waitDone cfg sched s = .returned u later t) :
    wordDone (answerWord t.answer) = true ∧ ∃ polls, polls ≠ [] ∧ sched = polls ++ later := by
  induction sched generalizing s with
  | nil => cases h
  | cons gap rest ih =>
    obtain ⟨v, mid, m, hi, hk⟩ := HostRun.returned_of_andThen h
    obtain ⟨g, hg, -, hv⟩ := issue_returned hi
    split at hk
    · rename_i hd
      cases hk
      exact ⟨hv ▸ hd, [gap], by simp, rfl⟩
    · obtain ⟨hd, polls, -, hp⟩ := ih hk
      exact ⟨hd, gap :: polls, by simp, by simp [hp]⟩

end Sys2Proof.Machine
end

