-- ==== Sys2Proof/Laws/Stages.lean ====
section
/-! SUPPORT. One lemma for each stage that says once everything it can do when it answers a next
state. -/

namespace Sys2Proof.Machine

/-- UNPACK (40 R121): the regions are sliced, or InvalidEnvelope is raised. -/
theorem unpackWith_next {cfg : Config} {s t : State} (h : unpackWith cfg s = .next t) :
    (regionsExist cfg s.envlen.toNat = true ∧
      t = s.advance .agree
        { s.tr with
          epk := some (inBytesN cfg s 0 65)
          ctlen := some (BitVec.ofNat 32 (ciphertextLength s.envlen.toNat))
          tag := some (inBytesN cfg s (tagStart s.envlen.toNat) 32) }) ∨
    (regionsExist cfg s.envlen.toNat = false ∧ t = s.raise .invalidEnvelope) := by
  unfold unpackWith at h
  split at h <;> simp at h
  · exact .inl ⟨‹_›, h.symm⟩
  · rename_i hr; exact .inr ⟨by simpa using hr, h.symm⟩

/-- AGREE (41 R133): Invalid, Fail, or the secret. -/
theorem agreeWith_next {cfg : Config} {s t : State} (h : agreeWith cfg s = .next t) :
    ∃ epk, s.tr.epk = some epk ∧
      ((requestParse cfg epk.val = none ∧
          t = (s.request [.ecParse epk.val]).raise .invalidPublicKey) ∨
        ∃ p k, requestParse cfg epk.val = some p ∧ s.sk = some k ∧
          ((requestEcdh cfg k p = none ∧
              t = (s.request [.ecParse epk.val, .ecEcdh k p]).raise .keyAgreementFailure) ∨
            ∃ z, requestEcdh cfg k p = some z ∧
              t = (s.request [.ecParse epk.val, .ecEcdh k p]).advance .derive
                { s.tr with pk := some p, z := some z })) := by
  obtain ⟨epk, he, h⟩ := withReg_next h
  refine ⟨epk, he, ?_⟩
  split at h
  · simp at h; exact .inl ⟨‹_›, h.symm⟩
  · obtain ⟨k, hk, h⟩ := withReg_next h
    refine .inr ⟨_, k, ‹_›, hk, ?_⟩
    split at h <;> simp at h
    · exact .inl ⟨‹_›, h.symm⟩
    · exact .inr ⟨_, ‹_›, h.symm⟩

/-- DERIVE (42 R150). -/
theorem deriveWith_next {cfg : Config} {s t : State} (h : deriveWith cfg s = .next t) :
    ∃ epk z n, s.tr.epk = some epk ∧ s.tr.z = some z ∧ s.tr.ctlen = some n ∧
      t = (s.request (kdfRun cfg (seedOf epk z).val (n.toNat + 16)).requests).advance .split
        { s.tr with
          seed := some (seedOf epk z)
          ctr := some (kdfRun cfg (seedOf epk z).val (n.toNat + 16)).ctr
          km := some (kdf cfg (seedOf epk z).val (n.toNat + 16)) } := by
  obtain ⟨epk, he, h⟩ := withReg_next h
  obtain ⟨z, hz, h⟩ := withReg_next h
  obtain ⟨n, hn, h⟩ := withReg_next h
  simp at h
  exact ⟨epk, z, n, he, hz, hn, h.symm⟩

/-- SPLIT (42 R153). -/
theorem execSplit_next {s t : State} (h : execSplit s = .next t) :
    ∃ (km : Bytes) (n : Word32) (k2 : BytesN 16),
      s.tr.km = some km ∧ s.tr.ctlen = some n ∧ 16 + n.toNat ≤ km.length ∧
      k2.val = sliceBytes km 0 16 ∧
      t = s.advance .xordec
        { s.tr with k2 := some k2, k1 := some (sliceBytes km 16 (16 + n.toNat)) } := by
  obtain ⟨km, hk, h⟩ := withReg_next h
  obtain ⟨n, hn, h⟩ := withReg_next h
  split at h <;> simp at h
  exact ⟨km, n, _, hk, hn, ‹_›, rfl, h.symm⟩

/-- XORDEC (43 R166). -/
theorem xordecWith_next {cfg : Config} {s t : State} (h : xordecWith cfg s = .next t) :
    ∃ (n : Word32) (k1 : BytesN n.toNat), s.tr.ctlen = some n ∧ s.tr.k1 = some k1.val ∧
      ctStart + n.toNat ≤ cfg.maxEnvLen ∧
      t = s.advance .macchk
        { s.tr with pt := some (applyStream (inBytesN cfg s ctStart n.toNat) k1).val } := by
  obtain ⟨n, hn, h⟩ := withReg_next h
  obtain ⟨k1, hk, h⟩ := withReg_next h
  obtain ⟨hr, h⟩ := withCiphertext_next h
  obtain ⟨ks, rfl, h⟩ := withLength_next h
  simp at h
  exact ⟨n, ks, hn, hk, hr, h.symm⟩

/-- XORDEC goes on with a K1 of the ciphertext's length, under any name `m` for that length. -/
theorem xordecWith_eq {cfg : Config} {s : State} {n : Word32} {m : Nat} {k1 : BytesN m}
    (hn : s.tr.ctlen = some n) (hm : n.toNat = m) (hk : s.tr.k1 = some k1.val)
    (hr : ctStart + m ≤ cfg.maxEnvLen) :
    xordecWith cfg s = .next (s.advance .macchk
      { s.tr with pt := some (applyStream (inBytesN cfg s ctStart m) k1).val }) := by
  subst hm
  simp only [xordecWith, hn, hk, withReg_some, withCiphertext, if_pos hr, withLength_val]

/-- MACCHK (44 R179). -/
theorem macchkWith_next {cfg : Config} {s t : State} (h : macchkWith cfg s = .next t) :
    ∃ (k2 : BytesN 16) (n : Word32) (tag tagc : BytesN 32),
      s.tr.k2 = some k2 ∧ s.tr.ctlen = some n ∧ s.tr.tag = some tag ∧
      ctStart + n.toNat ≤ cfg.maxEnvLen ∧
      tagc = computeTag cfg k2.val (inBytes cfg s ctStart n.toNat) ∧
      t = (s.request [.hmac k2.val (macMessage (inBytes cfg s ctStart n.toNat))]).advance
        (phaseAfterCheck (tagsMatch tagc tag))
        { s.tr with tagc := some tagc, matched := some (tagsMatch tagc tag) } := by
  obtain ⟨k2, hk, h⟩ := withReg_next h
  obtain ⟨n, hn, h⟩ := withReg_next h
  obtain ⟨tag, ht, h⟩ := withReg_next h
  obtain ⟨hr, h⟩ := withCiphertext_next h
  simp only [Host.Outcome.next.injEq] at h
  exact ⟨k2, n, tag, _, hk, hn, ht, hr, rfl, h.symm⟩

/-- RELEASE (45 R199). -/
theorem releaseWith_next {cfg : Config} {s t : State} (h : releaseWith cfg s = .next t) :
    ∃ (n : Word32) (pt : Bytes), s.tr.ctlen = some n ∧ s.tr.pt = some pt ∧
      n.toNat ≤ cfg.outSize ∧ pt.length = n.toNat ∧ t = s.endCall n pt := by
  obtain ⟨n, hn, h⟩ := withReg_next h
  obtain ⟨pt, hk, h⟩ := withReg_next h
  obtain ⟨hr, h⟩ := withOutRegion_next h
  obtain ⟨p, rfl, h⟩ := withLength_next h
  simp at h
  exact ⟨n, p.val, hn, hk, hr, p.property, h.symm⟩

end Sys2Proof.Machine
end

