-- ==== Sys2Proof/Tests/Standard.lean ====
section
/-! SUPPORT. The standard instances of the delegates (93 G1 to G3), which the spec supplies from
general knowledge so that the numeric vectors of 95_test_vectors.md can be run (PRESUMED, log 26).
No meaning and no statement of the model uses them: the machine's delegates stay open. -/

namespace Sys2Proof.Tests

open Sys2Proof

/-! ### SHA-256, 93 G1 -/

/-- 2^32: words are numbers below it, and sums are taken modulo it. -/
def word32 : Nat := 4294967296

/-- `n` words from the number whose hexadecimal digits are theirs, first word first: a row of 93 G1. -/
def wordRow : Nat → Nat → List Nat
  | 0, _ => []
  | n + 1, x => wordRow n (x / word32) ++ [x % word32]

/-- H before the first block, the row of 93 G1. -/
def startWords : List Nat :=
  wordRow 8 0x6a09e667bb67ae853c6ef372a54ff53a510e527f9b05688c1f83d9ab5be0cd19

/-- K, the eight rows of 93 G1. -/
def constantRows : List Nat :=
  [0x428a2f9871374491b5c0fbcfe9b5dba53956c25b59f111f1923f82a4ab1c5ed5,
   0xd807aa9812835b01243185be550c7dc372be5d7480deb1fe9bdc06a7c19bf174,
   0xe49b69c1efbe47860fc19dc6240ca1cc2de92c6f4a7484aa5cb0a9dc76f988da,
   0x983e5152a831c66db00327c8bf597fc7c6e00bf3d5a7914706ca635114292967,
   0x27b70a852e1b21384d2c6dfc53380d13650a7354766a0abb81c2c92e92722c85,
   0xa2bfe8a1a81a664bc24b8b70c76c51a3d192e819d6990624f40e3585106aa070,
   0x19a4c1161e376c082748774c34b0bcb5391c0cb34ed8aa4a5b9cca4f682e6ff3,
   0x748f82ee78a5636f84c878148cc7020890befffaa4506cebbef9a3f7c67178f2]

def constantWords : List Nat := (constantRows.map (wordRow 8)).flatten

/-- The word rotated right by `k`. -/
def rotated (x k : Nat) : Nat := (x * 2 ^ (32 - k)) % word32 + x / 2 ^ k

/-- The exclusive-or of the word rotated right by each of `ks`. -/
def rotations (ks : List Nat) (x : Nat) : Nat := (ks.map (rotated x)).foldl Nat.xor 0

/-- T1 without its constant and schedule word: h + S1(e) + Ch(e, f, g). -/
def partialT1 (e f g h : Nat) : Nat :=
  h + rotations [6, 11, 25] e + ((e &&& f) ^^^ ((word32 - 1 - e) &&& g))

/-- T2: S0(a) + Maj(a, b, c). -/
def valueT2 (a b c : Nat) : Nat :=
  rotations [2, 13, 22] a + ((a &&& b) ^^^ (a &&& c) ^^^ (b &&& c))

/-- One of the 64 steps on the list of working variables, `kw` the sum of its constant and schedule
word. -/
def mixStep (kw : Nat) : List Nat → List Nat
  | [a, b, c, d, e, f, g, h] =>
    [(partialT1 e f g h + kw + valueT2 a b c) % word32, a, b, c,
      (d + (partialT1 e f g h + kw)) % word32, e, f, g]
  | _ => []

/-- The schedule word sixteen places on from the first of `ws`: s1(W[t-2]) + W[t-7] + s0(W[t-15]) +
W[t-16]. -/
def nextWord (ws : List Nat) : Nat :=
  ((rotations [17, 19] (ws.getD 14 0) ^^^ (ws.getD 14 0 / 2 ^ 10)) + ws.getD 9 0 +
    (rotations [7, 18] (ws.getD 1 0) ^^^ (ws.getD 1 0 / 2 ^ 3)) + ws.getD 0 0) % word32

/-- The steps for the constants `ks`, over a window of the next sixteen schedule words. -/
def mixBlock : List Nat → List Nat → List Nat → List Nat
  | [], _, v => v
  | k :: ks, ws, v => mixBlock ks (ws.tail ++ [nextWord ws]) (mixStep (k + ws.getD 0 0) v)

/-- H after a block: word by word the sum of what it was and the working variables. -/
def addWords (v w : List Nat) : List Nat := List.zipWith (fun x y => (x + y) % word32) v w

/-- Big-endian words of a byte sequence. -/
def wordsOf : List Nat → List Nat
  | a :: b :: c :: d :: r => (a * 16777216 + b * 65536 + c * 256 + d) :: wordsOf r
  | _ => []

/-- All blocks of sixteen words; `n` bounds their number. -/
def hashBlocks : Nat → List Nat → List Nat → List Nat
  | 0, _, v => v
  | n + 1, ws, v =>
    hashBlocks n (ws.drop 16) (addWords v (mixBlock constantWords (ws.take 16) v))

/-- Big-endian bytes of a number, `n` of them. -/
def bytesBE : Nat → Nat → List Nat
  | 0, _ => []
  | n + 1, x => bytesBE n (x / 256) ++ [x % 256]

def padded (m : List Nat) : List Nat :=
  m ++ [0x80] ++ List.replicate ((119 - m.length % 64) % 64) 0 ++ bytesBE 8 (8 * m.length)

def sha256Nat (m : List Nat) : List Nat :=
  ((hashBlocks ((m.length + 72) / 64) (wordsOf (padded m)) startWords).map (bytesBE 4)).flatten

/-! ### HMAC-SHA256, 93 G2 -/

def hmacNat (k m : List Nat) : List Nat :=
  let k' := if k.length > 64 then sha256Nat k else k
  let k0 := k' ++ List.replicate (64 - k'.length) 0
  sha256Nat (k0.map (· ^^^ 0x5c) ++ sha256Nat (k0.map (· ^^^ 0x36) ++ m))

/-! ### P-256 in projective coordinates, 93 G3 -/

def prime : Nat := 0xffffffff00000001000000000000000000000000ffffffffffffffffffffffff
def curveB : Nat := 0x5ac635d8aa3a93e7b3ebbd55769886bc651d06b0cc53b0f63bce3c3e27d2604b

/-- A point `(X : Y : Z)` in Jacobian coordinates; Z = 0 is the point at infinity. -/
structure Jac where
  x : Nat
  y : Nat
  z : Nat

def subP (a b : Nat) : Nat := (a + (prime - b % prime)) % prime

/-- Square and multiply over the low `n` bits of the exponent, from the low bit up. -/
def powP : Nat → Nat → Nat → Nat → Nat
  | 0, _, _, acc => acc
  | n + 1, b, e, acc =>
    if e % 2 = 1 then powP n (b * b % prime) (e / 2) (acc * b % prime)
    else powP n (b * b % prime) (e / 2) acc

def invP (a : Nat) : Nat := powP 256 (a % prime) (prime - 2) 1

def jacOf (x y z : Nat) : Jac := ⟨x, y, z⟩

/-- Doubling on a curve with a = -3. -/
def dblWith (p : Jac) (yy s m : Nat) : Jac :=
  let x' := subP (m * m) (2 * s)
  jacOf x' (subP (m * subP s x') (8 * (yy * yy % prime))) (2 * p.y * p.z % prime)

def dblP (p : Jac) : Jac :=
  let yy := p.y * p.y % prime
  let zz := p.z * p.z % prime
  dblWith p yy (4 * p.x * yy % prime) (3 * (subP p.x zz * ((p.x + zz) % prime)) % prime)

/-- Addition of distinct points neither of which is the negative of the other. -/
def addWith (p q : Jac) (u1 u2 s1 s2 : Nat) : Jac :=
  let h := subP u2 u1
  let r := subP s2 s1
  let hh := h * h % prime
  let hhh := h * hh % prime
  let v := u1 * hh % prime
  let x' := subP (r * r) (hhh + 2 * v)
  jacOf x' (subP (r * subP v x') (s1 * hhh)) (h * (p.z * q.z % prime) % prime)

def addP (p q : Jac) : Jac :=
  if p.z = 0 then q else if q.z = 0 then p
  else
    let z1 := p.z * p.z % prime
    let z2 := q.z * q.z % prime
    let u1 := p.x * z2 % prime
    let u2 := q.x * z1 % prime
    let s1 := p.y * (z2 * q.z % prime) % prime
    let s2 := q.y * (z1 * p.z % prime) % prime
    if u1 = u2 then (if s1 = s2 then dblP p else jacOf 1 1 0) else addWith p q u1 u2 s1 s2

/-- Double and add over the low `n` bits of the scalar, from the low bit up. -/
def mulP : Nat → Nat → Jac → Jac → Jac
  | 0, _, _, acc => acc
  | n + 1, d, p, acc => mulP n (d / 2) (dblP p) (if d % 2 = 1 then addP acc p else acc)

def natOfBE (l : List Nat) : Nat := l.foldl (fun acc b => acc * 256 + b) 0

def natsOf (l : Bytes) : List Nat := l.map (·.toNat)
def bytesOfNats (l : List Nat) : Bytes := l.map (BitVec.ofNat 8)
def bytes32 (l : List Nat) : BytesN 32 := Config.bytesOf 32 fun i => BitVec.ofNat 8 (l.getD i 0)

/-- A point as a token: `x * 2^256 + y`. -/
def pointToken (x y : Nat) : Point := ⟨x * 2 ^ 256 + y⟩

def standardPoint (b : List Nat) : Option Point :=
  let x := natOfBE ((b.drop 1).take 32)
  let y := natOfBE (b.drop 33)
  if x < prime ∧ y < prime ∧ y * y % prime = (x * x * x + (prime - 3) * x + curveB) % prime
  then some (pointToken x y) else none

def standardEcdh (k : PrivKey) (p : Point) : Option (BytesN 32) :=
  let s := mulP 256 k.token (jacOf (p.token / 2 ^ 256) (p.token % 2 ^ 256) 1) (jacOf 1 1 0)
  if s.z = 0 then none
  else some (bytes32 (bytesBE 32 (s.x * invP (s.z * s.z % prime) % prime)))

/-- The block with the standard delegates and MAX_ENV_LEN = 4096, as the vectors of 95 use it. -/
def standard : Config where
  capacityAboveMin := 3999
  decodePoint b := standardPoint (natsOf b)
  ecdh := standardEcdh
  sha256 m := bytes32 (sha256Nat (natsOf m))
  hmac k m := bytes32 (hmacNat (natsOf k) (natsOf m))
  inDraw _ _ _ := 0
  outDraw _ _ _ := 0
  base := 0
  inBase := 0
  outBase := 0
  otherInstances := 0

end Sys2Proof.Tests
end

