-- ==== Sys2Proof/Tests/Slice0.lean ====
section
/-! SUPPORT. Tests of the model, each with the source of its expected value (a vector of
95_test_vectors.md or a rule), and for every obligation with hypotheses a state and operands that
meet them. -/

namespace Sys2Proof.Tests

open Sys2Proof Sys2Proof.Machine

/-! ### Helpers -/

/-- `n` bytes of a hexadecimal number, first byte first. -/
def hex (n x : Nat) : Bytes := bytesOfNats (bytesBE n x)

def hexN (n x : Nat) : BytesN n := Config.bytesOf n fun i => (hex n x).getD i 0

/-- The state of a result that is a next state. -/
def after (r : Result) : Option State :=
  match r with
  | .next s => some s
  | .fault _ => none
  | .refused _ => none

/-- The fault of a result that is one. -/
def faultOf (r : Result) : Option Fault :=
  match r with
  | .next _ => none
  | .fault f => some f
  | .refused _ => none

/-- The refusal of a result that is one. -/
def refusalOf (r : Result) : Option Refusal :=
  match r with
  | .next _ => none
  | .fault _ => none
  | .refused x => some x

/-- Idle with the key `k`, the envelope `env` in the buffer and ENVLEN its length. -/
def loaded (k : PrivKey) (env : Bytes) : State :=
  { State.reset with
    keyv := true
    sk := some k
    envlen := BitVec.ofNat 32 env.length
    inMem := memoryPutAll [] 0 env }

/-- A call in progress at the stage `p` with the registers `tr`. -/
def inCall (p : Phase) (tr : Transients) (s : State) : State :=
  { s with busy := true, phase := p, tr := tr }

/-- Idle with a key. -/
def ready : State := loaded ⟨7⟩ []

/-- A call that has just been accepted, with ENVLEN = `n`. -/
def started (n : Word32) : State :=
  { inCall .unpack Transients.invalid ready with envlen := n }

/-- A host access with its naming word, address and data. -/
def access (w : BitVec 8) (addr data : Word32) : HostAccess := ⟨w, addr, data, ⟨0⟩⟩

/-! ### Well-formedness: one check, and an ill-formed term for it (40 R123) -/

theorem test_wellFormed_wrenv_refuses_wide_address :
    (Instr.wrenv 4294967296 0).wellFormed = false := by decide
theorem test_wellFormed_rdout_refuses_wide_address :
    (Instr.rdout 4294967296).wellFormed = false := by decide

/-! ### Decoding: every constructor from its encoding written out (30 R100, R101) -/

theorem test_decode_start : decode (.host (access 0b00100000#8 0 0xFFFFFFFE)) =
    .op (.start 0xFFFFFFFE) := by decide
theorem test_decode_rdstatus : decode (.host (access 0b00000100#8 0 0)) = .op .rdstatus := by
  decide
theorem test_decode_wrlen : decode (.host (access 0b00101000#8 0 113)) = .op (.wrlen 113) := by
  decide
theorem test_decode_rdlen : decode (.host (access 0b00001000#8 0 0)) = .op .rdlen := by decide
theorem test_decode_rdoutlen : decode (.host (access 0b00001100#8 0 0)) = .op .rdoutlen := by
  decide
theorem test_decode_wrkey : decode (.host ⟨0b00110000#8, 0, 0, ⟨5⟩⟩) = .op (.wrkey ⟨5⟩) := by
  decide
theorem test_decode_wrenv : decode (.host (access 0b01100000#8 4095 0xAA)) =
    .op (.wrenv 4095 0xAA) := by decide
theorem test_decode_rdout : decode (.host (access 0b10000000#8 15 0)) = .op (.rdout 15) := by
  decide
theorem test_decode_stages :
    [0b0001#4, 0b0010#4, 0b0011#4, 0b0100#4, 0b0101#4, 0b0110#4, 0b0111#4, 0b1000#4].map
        (fun c => decode (.stage c)) =
      [.op .unpack, .op .agree, .op .derive, .op .split, .op .xordec, .op .macchk, .op .discard,
        .op .release] := by decide
/-- 30 R105: the accesses and codes that are no row of the table. -/
theorem test_decode_outside_the_table :
    [0x00#8, 0x10#8, 0x24#8, 0x2C#8, 0x14#8, 0x40#8, 0xA0#8, 0x44#8, 0xC0#8].map
        (fun w => decode (.host (access w 0 0))) =
      [.readsZero, .readsZero, .ignored, .ignored, .undefinedRegister, .undefinedDirection,
        .undefinedDirection, .undefinedSpace, .undefinedSpace] ∧
    [0#4, 9#4, 15#4].map (fun c => decode (.stage c)) =
      [.idle, .undefinedStage, .undefinedStage] := by decide
/-- The match values of the opcode table, but for SPLIT and RELEASE, whose values are also those of
RDSTATUS and RDLEN (log 14). -/
theorem test_table_words :
    [0x20, 0x04, 0x28, 0x08, 0x0C, 0x30, 0x60, 0x80, 1, 2, 3, 5, 6, 7].map (decodeTableWord 8) =
      [some (.start 0), some .rdstatus, some (.wrlen 0), some .rdlen, some .rdoutlen,
        some (.wrkey ⟨0⟩), some (.wrenv 0 0), some (.rdout 0), some .unpack, some .agree,
        some .derive, some .xordec, some .macchk, some .discard] ∧
    [4, 8].map (decodeTableWord 4) = [some .split, some .release] := by decide
theorem test_withFetchWord_runs_the_word :
    (after (step (State.reset.withFetchWord 8 0x04))).map (·.answer) = some (.word 0) ∧
    (after (step (State.reset.withFetchWord 8 7))).map (·.err) = some (some .macMismatch) := by
  decide

/-! ### The key and the envelopes of 95 section 0 and 2.7 -/

def scalarD : PrivKey := ⟨0x0102030405060708090a0b0c0d0e0f101112131415161718191a1b1c1d1e1f20⟩
def epkV : BytesN 65 := hexN 65
  0x041f140146bfb1b251f84f4ddbe0d4cdcfd77afd984a9520e35794021f8312bb9eec995a08b1fa7704df3dcc0b50a9665263fb7711f95f9f8a449c5096e47c892b
def secretZ : BytesN 32 :=
  hexN 32 0x4fe243908f378aa1c2a69538822e6ed908c3225d8692575507c649901245150a
def ciphertextV1 : Bytes := hex 16 0x3dd4b9f4f53c6334aacf86cfaf26716a
def tagV1 : BytesN 32 :=
  hexN 32 0xbe0b9fcbd4662f9ee35ea79028676c9c4113cd017cc536d01c14a3c4297e45ab
def macKeyK2 : BytesN 16 := hexN 16 0x67477594481102ef3c80dc85d443fa74
def plaintextV1 : Bytes := hex 16 0x6162636465666768696a6b6c6d6e6f70
def envelopeV1 : Bytes := epkV.val ++ ciphertextV1 ++ tagV1.val
def stateV1 : State := loaded scalarD envelopeV1

/-- The registers after UNPACK of V1. -/
def unpackedV1 : Transients :=
  { Transients.invalid with epk := some epkV, ctlen := some 16, tag := some tagV1 }

/-! ### Host operations (95 section 2.6) -/

/-- H8: every bit set is a START; STATUS then reads 0x05. -/
theorem test_start_ignores_other_bits :
    (after (exec (.start 0xFFFFFFFF) ready)).map (fun s => (s.phase, statusWord s)) =
      some (.unpack, 0x05) := by decide
/-- H7: bit 0 clear, so nothing happens. -/
theorem test_start_needs_bit0 : after (exec (.start 0xFFFFFFFE) ready) = some ready := by decide
/-- H10: STATUS after InvalidEnvelope. -/
theorem test_rdstatus_after_error :
    (after (exec .rdstatus (ready.raise .invalidEnvelope))).map (·.answer) =
      some (.word 0x16) := by decide
/-- V5: STATUS after MacMismatch. -/
theorem test_rdstatus_after_mismatch :
    (after (exec .rdstatus (ready.raise .macMismatch))).map (·.answer) = some (.word 0x46) := by
  decide
/-- H5. -/
theorem test_wrlen_stores : (after (exec (.wrlen 96) ready)).map (·.envlen) = some 96 := by decide
/-- P5 step 4: ignored while BUSY. -/
theorem test_wrlen_ignored_while_busy :
    (after (exec (.wrlen 0) (started 113))).map (·.envlen) = some 113 := by decide
/-- P5 step 4: RDLEN is allowed while BUSY. -/
theorem test_rdlen_while_busy :
    (after (exec .rdlen (started 113))).map (·.answer) = some (.word 113) := by decide
/-- H2. -/
theorem test_rdoutlen_after_reset :
    (after (exec .rdoutlen State.reset)).map (·.answer) = some (.word 0) := by decide
/-- H4: STATUS reads 0x04. -/
theorem test_wrkey_sets_keyv :
    (after (exec (.wrkey ⟨9⟩) State.reset)).map (fun s => (s.sk, statusWord s)) =
      some (some ⟨9⟩, 0x04) := by decide
/-- H14: the result of the finished call stands. -/
theorem test_wrkey_keeps_the_result :
    (after (exec (.wrkey ⟨9⟩) (ready.raise .invalidEnvelope))).map statusWord = some 0x16 := by
  decide
/-- W2 and W3 with MAX_ENV_LEN = 4096: the last address, and the first beyond it. -/
theorem test_wrenv_range :
    (after (execWith standard (.wrenv 4095 0xAA) ready)).map (·.inMem) = some [(4095, 0xAA)] ∧
    (after (execWith standard (.wrenv 4096 0xAA) ready)).map (·.inMem) = some [] := by decide
/-- W6: the later byte stays. -/
theorem test_wrenv_overwrites :
    (after (execWith standard (.wrenv 7 0x22) (ready.putIn 7 0x11))).map (·.inMem) =
      some [(7, 0x22)] := by decide
/-- V1: RDOUT 15 is 0x70, RDOUT 16 is 0x00. -/
theorem test_rdout_gate :
    (after (exec (.rdout 15) (ready.endCall 16 plaintextV1))).map (·.answer) =
      some (.byte 0x70) ∧
    (after (exec (.rdout 16) (ready.endCall 16 plaintextV1))).map (·.answer) =
      some (.byte 0x00) := by decide +kernel
/-- P2 step 8: OUT storage still holds the bytes, and reads are gated to 0x00. -/
theorem test_rdout_after_error :
    (after (exec (.rdout 0) ((ready.endCall 16 plaintextV1).raise .macMismatch))).map (·.answer) =
      some (.byte 0x00) := by decide +kernel

/-! ### Stages (95 sections 2.1 to 2.5, 2.7), over the standard delegates and MAX_ENV_LEN = 4096 -/

/-- V1, U8: the three regions of a 113-byte envelope. -/
theorem test_unpack_V1 :
    (after (execWith standard .unpack (inCall .unpack Transients.invalid stateV1))).map
      (fun s => (s.phase, s.tr)) = some (.agree, unpackedV1) := by decide +kernel
/-- U5 and U13: 96 and 4097 raise InvalidEnvelope. -/
theorem test_unpack_lengths :
    [96, 4097].map (fun n => (after (execWith standard .unpack (started n))).map statusWord) =
      [some 0x16, some 0x16] := by decide
/-- A1: the shared secret of V1. -/
theorem test_agree_V1 :
    (after (execWith standard .agree (inCall .agree unpackedV1 stateV1))).map
      (fun s => (s.phase, s.tr.z)) = some (.derive, some secretZ) := by decide +kernel
/-- A3: a tag byte of 0x02 is Invalid whatever the delegate, so for the machine itself. A11: the EC
delegate answers Fail. -/
theorem test_agree_errors :
    (after (exec .agree (inCall .agree
      { unpackedV1 with epk := some (hexN 65 (2 * 256 ^ 64)) } ready))).map
        (fun s => (statusWord s, s.trace.length)) = some (0x26, 1) ∧
    (after (execWith { standard with ecdh := fun _ _ => none } .agree
      (inCall .agree unpackedV1 stateV1))).map
        (fun s => (statusWord s, s.trace.length)) = some (0x36, 2) := by decide +kernel
/-- D4: KM of V2, two requests, 9 bytes of the second digest, CTR 3 at the end. -/
theorem test_derive_V2 :
    (after (execWith standard .derive (inCall .derive
      { unpackedV1 with ctlen := some 25, z := some secretZ } ready))).map
        (fun s => (s.tr.km, s.tr.ctr, s.trace.length)) =
      some (some (hex 41
        0x67477594481102ef3c80dc85d443fa745cb6da90905a045cc3a5eda3c2481e1afb826b6b6895e89d09),
        some 3, 2) := by decide +kernel
/-- D2: the MAC key comes first. -/
theorem test_split_V1 :
    (after (exec .split (inCall .split
      { unpackedV1 with
        km := some (hex 32 0x67477594481102ef3c80dc85d443fa745cb6da90905a045cc3a5eda3c2481e1a) }
      ready))).map (fun s => (s.tr.k2, s.tr.k1)) =
      some (some macKeyK2, some (hex 16 0x5cb6da90905a045cc3a5eda3c2481e1a)) := by decide +kernel
/-- X5 and X6. -/
theorem test_apply_lanes :
    applyStream (hexN 6 0x00ff55aa8001) (hexN 6 0xffff55558080) = hexN 6 0xff0000ff0081 ∧
    applyStream (hexN 6 0xff0000ff0081) (hexN 6 0xffff55558080) = hexN 6 0x00ff55aa8001 := by
  decide +kernel
/-- V1: the plaintext. -/
theorem test_xordec_V1 :
    (after (execWith standard .xordec (inCall .xordec
      { unpackedV1 with k1 := some (hex 16 0x5cb6da90905a045cc3a5eda3c2481e1a) } stateV1))).map
        (·.tr.pt) = some (some plaintextV1) := by decide +kernel
/-- X10: a key stream of another length is refused. -/
theorem test_xordec_refuses_unequal_lengths :
    refusalOf (execWith standard .xordec (inCall .xordec
      { unpackedV1 with ctlen := some 3, k1 := some [1, 2] } stateV1)) =
      some (.lengthContract .k1) := by decide +kernel
/-- M4, M6: the tag of V1 matches. -/
theorem test_macchk_V1 :
    (after (execWith standard .macchk (inCall .macchk
      { unpackedV1 with k2 := some macKeyK2 } stateV1))).map
        (fun s => (s.tr.tagc, s.tr.matched, s.phase)) =
      some (some tagV1, some true, .release) := by decide +kernel
/-- V5, M8: one bit of the last byte of the tag flipped. -/
theorem test_macchk_V5 :
    (after (execWith standard .macchk (inCall .macchk
      { unpackedV1 with
        k2 := some macKeyK2
        tag := some
          (hexN 32 0xbe0b9fcbd4662f9ee35ea79028676c9c4113cd017cc536d01c14a3c4297e45aa) }
      stateV1))).map (fun s => (s.tr.matched, s.phase)) = some (some false, .discard) := by
  decide +kernel
/-- V5: the end of the call. -/
theorem test_discard_V5 :
    (after (exec .discard (inCall .discard { unpackedV1 with pt := some plaintextV1 } ready))).map
      (fun s => (statusWord s, s.tr, s.outMem)) = some (0x46, Transients.invalid, []) := by
  decide
/-- V1: RELEASE. -/
theorem test_release_V1 :
    (after (execWith standard .release (inCall .release
      { unpackedV1 with pt := some plaintextV1 } ready))).map
        (fun s => (statusWord s, s.outlen, s.tr, releasedBytes standard s)) =
      some (0x06, 16, Transients.invalid, plaintextV1) := by decide +kernel
/-- P4 step 8: bytes of an earlier plaintext beyond the new one stay in storage. -/
theorem test_release_keeps_bytes_beyond :
    (after (execWith standard .release (inCall .release
      { Transients.invalid with pt := some [1], ctlen := some 1 }
      { ready with outMem := [(0, 8), (1, 9)] }))).map (·.outMem) =
      some [(0, 1), (1, 9)] := by decide

/-! ### Functions -/

/-- The counter encodings of 95 section 2.3. -/
theorem test_be32_carries :
    [1, 255, 256, 65536, 16777216, 4294967295, 4294967296].map
        (fun i => be32 (BitVec.ofNat 32 i)) =
      [hex 4 1, hex 4 0xff, hex 4 0x100, hex 4 0x10000, hex 4 0x1000000, hex 4 0xffffffff,
        hex 4 0] := by decide +kernel
/-- K5: 9 bytes of the second block. -/
theorem test_kdf_K5 : kdf standard (hex 3 0x616263) 41 =
    hex 41
      0x46c386ebccef82ba0bb0b095aaa5548b03cdff6951871c6fb505af68af688332f885d324a47d2145a3 := by
  decide +kernel
/-- M1: the MAC message of an empty ciphertext is L2 alone. -/
theorem test_computeTag_M1 :
    computeTag standard (hex 16 0x000102030405060708090a0b0c0d0e0f) [] =
      hexN 32 0xc6b0c5d1fb6453704bbc7024fa5bca77a7bf4b446651140d7be0b4e3218eb9de := by
  decide +kernel
/-- V1 as one call of `decrypt`. -/
theorem test_decrypt_V1 :
    (match decrypt standard envelopeV1 scalarD with
      | .ok p => decide (p = plaintextV1)
      | .error _ => false) = true := by decide +kernel

/-- What a run of the host returned. -/
def returnedOf {α : Type} (x : HostRun α) : Option α :=
  match x with
  | .returned r _ _ => some r
  | .pending _ => none
  | .faulted _ => none
  | .refused _ => none

/-- `n` entries of a schedule without turns of other agents, then `later`. -/
def hostAlone (n : Nat) (later : Schedule) : Schedule := List.replicate n [] ++ later

/-- P1: `DECRYPT ENV_V1, d -> Ok("abcdefghijklmnop")` from reset, with one RDSTATUS of WAIT between
AGREE and DERIVE (P1 step 9). -/
theorem test_decryptCall_P1 :
    returnedOf (decryptCall standard envelopeV1 scalarD
      (hostAlone 116 ([.sequencer, .sequencer] :: List.replicate 5 .sequencer :: hostAlone 18 []))
      State.reset) = some (.ok plaintextV1) := by decide +kernel

/-! ### Witnesses: for every obligation with hypotheses, a state and operands that meet them -/

/-- A toy block with MAX_ENV_LEN = 129, whose delegates are sums: every tag-4 key region is a point,
and the key 0 fails. -/
def toy : Config where
  capacityAboveMin := 32
  decodePoint b := some ⟨(natsOf b).sum⟩
  ecdh k p := if k.token = 0 then none else some (bytes32 (List.replicate 32 (k.token + p.token)))
  sha256 m := bytes32 ((List.range 32).map fun i => (natsOf m).sum + 7 * i)
  hmac k m := bytes32 ((List.range 32).map fun i => 3 * (natsOf k).sum + 5 * (natsOf m).sum + i)
  inDraw _ _ _ := 0xEE
  outDraw _ _ _ := 0xDD
  base := 0
  inBase := 64
  outBase := 256
  otherInstances := 1

def toyKey : PrivKey := ⟨1⟩
def toyEpk : Bytes := hex 65 (4 * 256 ^ 64 + 0x1234)
def toyPoint : Point := ⟨(natsOf toyEpk).sum⟩
def toyZ : BytesN 32 := bytes32 (List.replicate 32 (1 + (natsOf toyEpk).sum))
def toyPlain : Bytes := [0x61, 0x62]
def toyMaterial : Bytes := kdf toy (toyEpk ++ toyZ.val) 18
def toyK1 : BytesN 2 := Config.bytesOf 2 fun i => toyMaterial.getD (16 + i) 0
def toyCt : Bytes := (applyStream (n := 2) ⟨toyPlain, rfl⟩ toyK1).val
def toyTag : Bytes := (requestHmac toy (sliceBytes toyMaterial 0 16) (toyCt ++ zeros 8)).val
def toyEnv : Bytes := toyEpk ++ toyCt ++ toyTag

/-- A call of the toy block that is about to release: stages 1 to 6 have run. -/
def toyState : State := loaded toyKey toyEnv
def toyK2 : BytesN 16 := Config.bytesOf 16 fun i => toyMaterial.getD i 0
def toyReleasing : State :=
  inCall .release (checked toy toyState toyPoint toyZ toyK2 ⟨toyK1.val, by decide +kernel⟩) toyState

theorem good_idle (cfg : Config) (l : List Turn) : Good cfg { ready with agenda := l } where
  invariants := by constructor <;> simp [ready, loaded, State.reset]
  key_slot := rfl
  done_keyv := fun _ => rfl
  canonical := ⟨rfl, rfl⟩
  in_below := rfl
  out_below := rfl
  out_written := by simp [ready, loaded, State.reset]
  datapath := rfl

theorem good_started (cfg : Config) (n : Word32) (l : List Turn) :
    Good cfg { started n with agenda := l } where
  invariants := by constructor <;> simp [started, inCall, ready, loaded, State.reset]
  key_slot := rfl
  done_keyv := fun _ => rfl
  canonical := ⟨rfl, rfl⟩
  in_below := rfl
  out_below := rfl
  out_written := by simp [started, inCall, ready, loaded, State.reset]
  datapath := rfl

theorem good_failed (cfg : Config) (k : ErrKind) (l : List Turn) :
    Good cfg { ready.raise k with agenda := l } where
  invariants := by constructor <;> simp [ready, loaded, State.reset]
  key_slot := rfl
  done_keyv := fun _ => rfl
  canonical := ⟨rfl, rfl⟩
  in_below := rfl
  out_below := rfl
  out_written := by simp [ready, loaded, State.reset]
  datapath := rfl

theorem good_toyReleasing : Good toy toyReleasing where
  invariants := by
    constructor <;> simp [toyReleasing, inCall, toyState, loaded, State.reset]
  key_slot := rfl
  done_keyv := fun _ => rfl
  canonical := ⟨by decide +kernel, rfl⟩
  in_below := by decide +kernel
  out_below := rfl
  out_written := by simp [toyReleasing, inCall, toyState, loaded, State.reset]
  datapath := ⟨toyPoint, toyZ, toyK2, ⟨toyK1.val, by decide +kernel⟩,
    ⟨by decide +kernel, by decide +kernel, toyKey, rfl, by decide +kernel⟩,
    (by decide +kernel : toyK2.val ++ toyK1.val =
      kdf toy (seedOf (envEpk toy toyReleasing) toyZ).val (envCtLen toyReleasing + 16)),
    rfl, by decide +kernel⟩

/-- The bounds on MAX_ENV_LEN that hold whatever the open parameter is. -/
theorem chip_maxEnvLen_ge (n : Nat) (h : n ≤ 97) : n ≤ Config.chip.maxEnvLen := by
  unfold Config.maxEnvLen; omega

theorem witness_DecodeOfEncodeIsTheOperation :
    (Instr.wrenv 4294967295 0xFF).wellFormed = true ∧
      (Instr.rdout 4294967295).wellFormed = true ∧ (Instr.start 0).wellFormed = true := by decide

/-- One form for each kind of operand, with bits no operand has set. -/
theorem witness_DecodedOperationsAreWellFormed :
    decode (.host (access 0x63#8 5 0x1AB)) = .op (.wrenv 5 0xAB) ∧
    decode (.host (access 0x21#8 9 0xFFFFFFFE)) = .op (.start 0xFFFFFFFE) ∧
    decode (.host ⟨0x32#8, 1, 2, ⟨5⟩⟩) = .op (.wrkey ⟨5⟩) ∧
    decode (.host (access 0x83#8 0xFFFFFFFF 7)) = .op (.rdout 4294967295) ∧
    decode (.stage 8#4) = .op .release := by decide

theorem witness_TableRowsDecode :
    [0x20#8, 0x07#8, 0x29#8, 0x08#8, 0x0E#8, 0x33#8, 0x60#8, 0x81#8].map (· &&& 0xFC#8) =
      [0x20#8, 0x04#8, 0x28#8, 0x08#8, 0x0C#8, 0x30#8, 0x60#8, 0x80#8] := by decide

theorem witness_RegisterWindowAddresses : (0 < 5 ∧ 4 < 5) ∧ (0 < 1 ∧ 1 < 4) ∧ (0 < 3 ∧ 3 < 4) := by
  decide

theorem witness_StepRunsTheDecodedOperation :
    (∃ (s : State) (a : HostAccess) (rest : List Turn), s.agenda = .host a :: rest ∧ decode (.host a) = .op .rdstatus) ∧
    (∃ (s : State) (rest : List Turn), s.agenda = .sequencer :: rest ∧
      decode (.stage (phaseCode s.phase)) = .op .unpack) ∧
    (∃ s : State, s.agenda = [] ∧ decode (.stage (phaseCode s.phase)) = .op .unpack) :=
  ⟨⟨{ ready with agenda := [.host (access 0x04#8 0 0)] }, _, _, rfl, rfl⟩,
    ⟨{ started 97 with agenda := [.sequencer] }, _, rfl, rfl⟩, ⟨started 97, rfl, rfl⟩⟩

theorem witness_IdleSequencerWaits :
    (State.reset.phase = .idle ∧ State.reset.agenda = []) ∧
      ∃ (s : State) (rest : List Turn), s.phase = .idle ∧ s.agenda = .sequencer :: rest :=
  ⟨⟨rfl, rfl⟩, { ready with agenda := [.sequencer] }, _, rfl, rfl⟩

/-- One word for each clause, and the undefined words at the edges of the defined ones. -/
theorem witness_AccessesOutsideTheTable :
    (∀ a, ({ ready with agenda := [.host a] } : State).agenda = .host a :: []) ∧
    (access 0x02#8 0 0).word &&& 0xFC#8 = 0x00#8 ∧ (access 0x10#8 0 0).word &&& 0xFC#8 = 0x10#8 ∧
    (access 0x24#8 0 0).word &&& 0xFC#8 = 0x24#8 ∧ (access 0x2C#8 0 0).word &&& 0xFC#8 = 0x2C#8 ∧
    ∀ w ∈ [0x14#8, 0x34#8, 0x1C#8, 0x40#8, 0x64#8, 0xA0#8, 0x84#8, 0xC0#8, 0xFF#8],
      (access w 0 0).word &&& 0xFC#8 ∉ [0x00#8, 0x10#8, 0x24#8, 0x2C#8, 0x20#8, 0x04#8, 0x28#8,
        0x08#8, 0x0C#8, 0x30#8, 0x60#8, 0x80#8] :=
  ⟨fun _ => rfl, by decide⟩

theorem witness_ResetFiresInAnyState :
    ({ started 113 with agenda := [.reset, .sequencer] } : State).agenda =
      .reset :: [.sequencer] := rfl

theorem witness_ResetStateIsTheTable : (access 0x00#8 0 0).word = 0x00#8 ∧
    (access 0x10#8 0 0).word = 0x10#8 ∧
    ({ started 113 with agenda := [.reset] } : State).agenda = .reset :: [] := by decide

theorem witness_StartBeginsACallOrDoesNothing :
    (access 0x20#8 0 1).word &&& 0xFC#8 = 0x20#8 ∧
    ((1 : Word32).getLsbD 0 = true ∧ ready.busy = false ∧ ready.keyv = true) ∧
    (0xFFFFFFFE : Word32).getLsbD 0 = false ∧ (started 97).busy = true ∧
    State.reset.keyv = false := by decide

theorem witness_StatusReadsItsFields :
    (access 0x04#8 0 0).word &&& 0xFC#8 = 0x04#8 ∧ Good Config.chip ready ∧
      Good Config.chip (started 97) ∧ Good Config.chip (ready.raise .macMismatch) :=
  ⟨by decide, good_idle _ [], good_started _ 97 [], good_failed _ _ []⟩

theorem witness_WrlenStoresTheLength :
    (access 0x28#8 0 113).word &&& 0xFC#8 = 0x28#8 ∧ ready.busy = false ∧
      (started 97).busy = true := by decide

theorem witness_LengthReads :
    (access 0x08#8 0 0).word &&& 0xFC#8 = 0x08#8 ∧ (access 0x0C#8 0 0).word &&& 0xFC#8 = 0x0C#8 ∧
    (ready.busy = false ∧ exec (.wrlen 96) ready = .next (ready.setEnvlen 96)) ∧
    (∃ t, step { started 97 with agenda := [.reset] } = .next t) ∧
    ((∃ t, step { started 97 with agenda := [.host (access 0x28#8 0 5)] } = .next t) ∧
      decode (.host (access 0x28#8 0 5)) = .op (.wrlen 5) ∧ (started 97).busy = true) ∧
    (Good Config.chip (started 97) ∧ (started 97).busy = true) ∧
    (Good Config.chip (ready.raise .macMismatch) ∧ (ready.raise .macMismatch).err ≠ none) ∧
    (stateV1.busy = false ∧ stateV1.keyv = true ∧ stateV1.sk = some scalarD ∧
      (1 : Word32).getLsbD 0 = true) :=
  ⟨by decide, by decide, ⟨rfl, rfl⟩, ⟨_, rfl⟩, ⟨⟨_, rfl⟩, by decide, rfl⟩,
    ⟨good_started _ 97 [], rfl⟩, ⟨good_failed _ _ [], by simp⟩, rfl, rfl, rfl, rfl⟩

theorem witness_WrkeyLoadsTheSlot :
    (access 0x30#8 0 0).word &&& 0xFC#8 = 0x30#8 ∧ State.reset.busy = false ∧
      (started 97).busy = true := by decide

theorem witness_WrenvStoresOneByte :
    (access 0x60#8 96 0).word &&& 0xFC#8 = 0x60#8 ∧
    (ready.busy = false ∧ 0 < Config.chip.maxEnvLen ∧ 96 < Config.chip.maxEnvLen) ∧
    (started 97).busy = true ∧ Config.chip.maxEnvLen ≤ Config.chip.maxEnvLen :=
  ⟨by decide, ⟨rfl, chip_maxEnvLen_ge 1 (by omega), chip_maxEnvLen_ge 97 (by omega)⟩, rfl,
    Nat.le_refl _⟩

theorem witness_RdoutReadsThroughTheGate :
    (access 0x80#8 0 0).word &&& 0xFC#8 = 0x80#8 ∧
    ((ready.endCall 1 [5]).done = true ∧ (ready.endCall 1 [5]).err = none ∧
      0 < (ready.endCall 1 [5]).outlen.toNat) ∧
    (started 97).done = false ∧ (ready.raise .macMismatch).err ≠ none ∧
    (ready.endCall 1 [5]).outlen.toNat ≤ 1 := by decide

theorem witness_ReadsHaveNoSideEffectsAndStoresAreIdempotent :
    Instr.rdlen ∈ [Instr.rdstatus, .rdlen, .rdoutlen] ∧ (97 : Nat) ≠ 96 := by decide

theorem witness_InputsAreLockedDuringACall :
    (∃ s t : State, s.busy = true ∧ (∀ rest, s.agenda ≠ .reset :: rest) ∧ step s = .next t) ∧
      ∃ t, exec (.start 1) ready = .next t ∧ t.busy = true :=
  ⟨⟨{ started 97 with agenda := [.host (access 0x28#8 0 5)] }, _, rfl, by simp, rfl⟩, _, rfl,
    rfl⟩

theorem witness_HostTurnsDoNotDisturbACall :
    ∃ (s : State) (a : HostAccess) (rest : List Turn), s.busy = true ∧ s.agenda = .host a :: rest ∧ accessDefined a = true :=
  ⟨{ started 97 with agenda := [.host (access 0x28#8 0 5)] }, _, _, rfl, rfl, rfl⟩

theorem witness_ErrorsArePreciseAndHaveTheirStage :
    (Instr.discard.format = .stage ∧ ∃ t, exec .discard (started 97) = .next t ∧
      t.phase = .idle ∧ t.err = some .macMismatch) ∧
    (Instr.unpack.format = .stage ∧ ∃ t, exec .unpack (started 96) = .next t ∧
      t.phase = .idle ∧ t.err = some .invalidEnvelope) ∧
    (Instr.agree.format = .stage ∧
      ∃ t, exec .agree (inCall .agree { unpackedV1 with epk := some (hexN 65 0) } ready) =
        .next t ∧ t.phase = .idle ∧ t.err = some .invalidPublicKey) :=
  ⟨⟨rfl, _, rfl, rfl, rfl⟩, ⟨rfl, _, rfl, rfl, rfl⟩, rfl, _, rfl, rfl, rfl⟩

theorem witness_UnpackSlicesTheEnvelope :
    (97 ≤ (started 97).envlen.toNat ∧ (started 97).envlen.toNat ≤ Config.chip.maxEnvLen) ∧
      (started 96).envlen.toNat < 97 :=
  ⟨⟨by decide, chip_maxEnvLen_ge _ (by decide)⟩, by decide⟩

theorem witness_UnpackedRegionsCoverTheEnvelope :
    ∃ t, exec .unpack (started 97) = .next t ∧ t.phase = .agree := by
  simp only [exec, execUnpack, unpackWith]
  rw [if_pos ((regionsExist_iff _ _).2 ⟨by decide, chip_maxEnvLen_ge _ (by decide)⟩)]
  exact ⟨_, rfl, rfl⟩

theorem witness_AgreeAsksTheDelegateInOrder :
    unpackedV1.epk = some epkV ∧ ready.sk = some ⟨7⟩ ∧
      (hexN 65 0).val.head? ≠ some 0x04#8 ∧
      (toyReleasing.tr.epk = some (hexN 65 (4 * 256 ^ 64 + 0x1234)) ∧
        toyReleasing.sk = some toyKey ∧
        requestParse toy (hexN 65 (4 * 256 ^ 64 + 0x1234)).val = some toyPoint ∧
        requestEcdh toy toyKey toyPoint = some toyZ) := by decide +kernel

theorem witness_DeriveRunsTheKdf :
    ({ unpackedV1 with z := some secretZ } : Transients).epk = some epkV ∧
    ({ unpackedV1 with z := some secretZ } : Transients).z = some secretZ ∧
    ({ unpackedV1 with z := some secretZ } : Transients).ctlen = some 16 ∧
    ∀ nb ∈ [((0 : Word32), 1), (16, 1), (17, 2), (0xFFFFFFFF, 134217729)],
      nb.1.toNat + 16 ≤ 32 * nb.2 ∧ 32 * nb.2 < nb.1.toNat + 16 + 32 :=
  ⟨rfl, rfl, rfl, by decide⟩

theorem witness_KdfLaws : (32 ≤ 33 ∧ 0 ≤ 0) ∧ (1 ≤ 1 ∧ 32 * (1 - 1) < 1) ∧
    (1 ≤ 2 ∧ 32 * (2 - 1) < 33) ∧ 0 + 32 * 2 ^ 32 < 137438953473 := by decide

theorem witness_KdfTruncatesTheLastBlockAtItsEnd :
    ∀ lb ∈ [(1, 1), (32, 1), (33, 2), (64, 2)],
      1 ≤ lb.1 ∧ lb.1 ≤ 32 * lb.2 ∧ 32 * lb.2 < lb.1 + 32 := by decide

/-- With an empty ciphertext and with one byte. -/
theorem witness_SplitPutsTheMacKeyFirst :
    (zeros 16).length = (0 : Word32).toNat + 16 ∧ (zeros 17).length = (1 : Word32).toNat + 16 := by
  decide

/-- A state before SPLIT, with the key material of one byte of ciphertext. -/
def splitting : State :=
  inCall .split
    { Transients.invalid with
      ctlen := some 1, km := some (kdf Config.chip [3] ((1 : Word32).toNat + 16)) } ready

theorem witness_SplitKeysDoNotDependOnTheLength :
    splitting.tr.ctlen = some 1 ∧
      splitting.tr.km = some (kdf Config.chip [3] ((1 : Word32).toNat + 16)) ∧
      (∃ t, exec .split splitting = .next t) ∧ 0 < (1 : Word32).toNat ∧ 16 + 0 < 17 := by
  refine ⟨rfl, rfl, ?_, by decide, by decide⟩
  simp only [exec, execSplit, splitting, inCall, withReg_some]
  rw [dif_pos (by rw [kdf_length]; decide)]
  exact ⟨_, rfl⟩

/-- One byte of ciphertext, inside the buffer of every block. -/
def oneByte : State :=
  inCall .xordec
    { Transients.invalid with
      ctlen := some 1, k1 := some [0xA5], k2 := some (hexN 16 1), tag := some (hexN 32 2),
      pt := some [0x61] } ready

theorem witness_XordecIsBytewise :
    oneByte.tr.k1 = some [0xA5] ∧ oneByte.tr.ctlen = some 1 ∧
      [0xA5#8].length = (1 : Word32).toNat ∧ 65 + (1 : Word32).toNat ≤ Config.chip.maxEnvLen :=
  ⟨rfl, rfl, rfl, chip_maxEnvLen_ge _ (by decide)⟩

theorem witness_UnequalKeyStreamIsRefused :
    oneByte.tr.k1 = some [0xA5] ∧
      ({ oneByte.tr with ctlen := some 2 } : Transients).ctlen = some 2 ∧
      [0xA5#8].length ≠ (2 : Word32).toNat ∧ 65 + (2 : Word32).toNat ≤ Config.chip.maxEnvLen :=
  ⟨rfl, rfl, by decide, chip_maxEnvLen_ge _ (by decide)⟩

theorem witness_StreamCipherLaws :
    (⟨zeros 2, rfl⟩ : BytesN 2).val = zeros 2 ∧
    ((1 ≤ 2 ∧ 2 ≤ 2) ∧ (hexN (2 - 1) 0x5A).val = sliceBytes (hexN 2 0xA55A).val 1 2 ∧
      (hexN (2 - 1) 1).val = sliceBytes (hexN 2 1).val 1 2) ∧
    ((0 < 2 ∧ 0 < 8) ∧ (hexN 2 0xA45A).val =
      (hexN 2 0xA55A).val.set 0 ((hexN 2 0xA55A).val.getD 0 0 ^^^ (1#8 <<< 0))) ∧
    ((1 < 2 ∧ 7 < 8) ∧ (hexN 2 0xA5DA).val =
      (hexN 2 0xA55A).val.set 1 ((hexN 2 0xA55A).val.getD 1 0 ^^^ (1#8 <<< 7))) := by
  decide +kernel

theorem witness_MacchkComparesTheWholeTag :
    oneByte.tr.k2 = some (hexN 16 1) ∧ oneByte.tr.ctlen = some 1 ∧
      oneByte.tr.tag = some (hexN 32 2) ∧ 65 + (1 : Word32).toNat ≤ Config.chip.maxEnvLen :=
  ⟨rfl, rfl, rfl, chip_maxEnvLen_ge _ (by decide)⟩

theorem witness_XordecAndMacchkCommute :
    oneByte.tr.k1 = some [0xA5] ∧ oneByte.tr.k2 = some (hexN 16 1) ∧
      oneByte.tr.ctlen = some 1 ∧ oneByte.tr.tag = some (hexN 32 2) ∧
      [0xA5#8].length = (1 : Word32).toNat ∧ 65 + (1 : Word32).toNat ≤ Config.chip.maxEnvLen :=
  ⟨rfl, rfl, rfl, rfl, rfl, chip_maxEnvLen_ge _ (by decide)⟩

/-- The machine with an empty plaintext, which fits every OUT space, and the toy block with one
byte. -/
theorem witness_ReleaseWritesThePlaintext :
    (({ oneByte.tr with pt := some [], ctlen := some 0 } : Transients).pt = some [] ∧
      ([] : Bytes).length = (0 : Word32).toNat ∧ (0 : Word32).toNat ≤ Config.chip.outSize) ∧
    (oneByte.tr.pt = some [0x61] ∧ oneByte.tr.ctlen = some 1 ∧
      [0x61#8].length = (1 : Word32).toNat ∧ (1 : Word32).toNat ≤ toy.outSize) :=
  ⟨⟨rfl, rfl, Nat.zero_le _⟩, rfl, rfl, rfl, by decide⟩

/-- Every register a stage reads, for an empty ciphertext. -/
def allRegisters : Transients :=
  { unpackedV1 with
    ctlen := some 0
    epk := some (hexN 65 0)
    z := some secretZ
    km := some (hex 16 5)
    k2 := some macKeyK2
    k1 := some []
    pt := some [] }

/-- For each stage the registers with one operand missing, the others valid; and a key region that the
toy block decodes, with no key in the slot. -/
theorem witness_InvalidRegistersAreNotRead :
    State.reset.tr.epk = none ∧
    (requestParse toy (hexN 65 (4 * 256 ^ 64)).val = some ⟨4⟩ ∧ State.reset.sk = none) ∧
    ({ allRegisters with epk := none } : Transients).z ≠ none ∧
    (({ allRegisters with z := none } : Transients).epk ≠ none ∧
      ({ allRegisters with z := none } : Transients).z = none) ∧
    (({ allRegisters with ctlen := none } : Transients).epk ≠ none ∧
      ({ allRegisters with ctlen := none } : Transients).z ≠ none ∧
      ({ allRegisters with ctlen := none } : Transients).km ≠ none ∧
      ({ allRegisters with ctlen := none } : Transients).k2 ≠ none ∧
      ({ allRegisters with ctlen := none } : Transients).ctlen = none) ∧
    (({ allRegisters with k1 := none } : Transients).ctlen ≠ none ∧
      ({ allRegisters with tag := none } : Transients).k2 ≠ none ∧
      ({ allRegisters with tag := none } : Transients).ctlen ≠ none ∧
      ({ allRegisters with tag := none } : Transients).tag = none ∧
      ({ allRegisters with pt := none } : Transients).ctlen ≠ none) := by decide +kernel

/-- A call at the stage `p`, with all of them. -/
def atStage (p : Phase) : State := inCall p allRegisters { ready with envlen := 97 }

/-- Every PHASE has a state whose sequencer takes a step. -/
theorem witness_StagesRunInOrder (p : Phase) :
    (atStage p).agenda = [] ∧ (atStage p).phase = p ∧ ∃ t, step (atStage p) = .next t := by
  have hct : ctStart + (0 : Word32).toNat ≤ Config.chip.maxEnvLen :=
    chip_maxEnvLen_ge _ (by decide)
  refine ⟨rfl, rfl, ?_⟩
  cases p with
  | idle => exact ⟨_, rfl⟩
  | unpack =>
    unfold step
    rw [takeTurn_nil rfl, sequencerTurn_unpack rfl]
    simp only [exec, execUnpack, unpackWith]
    rw [if_pos ((regionsExist_iff _ _).2 ⟨by decide, chip_maxEnvLen_ge _ (by decide)⟩)]
    exact ⟨_, rfl⟩
  | agree => exact ⟨_, rfl⟩
  | derive => exact ⟨_, rfl⟩
  | split => exact ⟨_, rfl⟩
  | xordec =>
    unfold step
    rw [takeTurn_nil rfl, sequencerTurn_xordec rfl]
    simp only [exec, execXordec, xordecWith, atStage, inCall, allRegisters, withReg_some,
      withCiphertext]
    rw [if_pos hct]
    exact ⟨_, rfl⟩
  | macchk =>
    unfold step
    rw [takeTurn_nil rfl, sequencerTurn_macchk rfl]
    simp only [exec, execMacchk, macchkWith, atStage, inCall, allRegisters, unpackedV1,
      withReg_some, withCiphertext]
    rw [if_pos hct]
    exact ⟨_, rfl⟩
  | discard => exact ⟨_, rfl⟩
  | release => exact ⟨_, rfl⟩

theorem witness_StepKeepsGoodStates :
    ∃ s t, Good Config.chip s ∧ step s = .next t ∧ s.busy = true :=
  ⟨started 96, _, good_started _ 96 [], rfl, rfl⟩

/-- WRKEY, START and UNPACK of an envelope of length 0, from reset. -/
theorem witness_ReachableStatesKeepTheInvariants :
    ∃ t, Host.Core.run Sys2Proof.core 3
      { State.reset with agenda := [turnOf (.wrkey ⟨7⟩), turnOf (.start 1)] } = .next t ∧
      t.err = some .invalidEnvelope :=
  ⟨_, rfl, rfl⟩

theorem witness_GoodStatesDoNotStop :
    Good Config.chip { started 97 with agenda := [.host (access 0x04#8 0 0)] } ∧
      accessDefined (access 0x04#8 0 0) = true :=
  ⟨good_started _ _ _, rfl⟩

theorem witness_StepKeepsMemoriesCanonical :
    ∃ s t, MemoriesCanonical s ∧ s.inMem = [(3, 1), (5, 2)] ∧ step s = .next t :=
  ⟨{ ready with inMem := [(3, 1), (5, 2)] }, _, ⟨rfl, rfl⟩, rfl, rfl⟩

theorem witness_CallRefinesDecrypt :
    stateV1.busy = false ∧ stateV1.keyv = true ∧ stateV1.sk = some scalarD ∧
      (1 : Word32).getLsbD 0 = true := ⟨rfl, rfl, rfl, rfl⟩

/-- Each of the five outcomes happens for some block and envelope. -/
theorem witness_CallMakesTheseRequests :
    [(toy, toyKey, toyEnv.take 96), (toy, toyKey, 5 :: toyEnv.tail), (toy, ⟨0⟩, toyEnv),
        (toy, toyKey, toyEnv.set 98 0), (toy, toyKey, toyEnv)].map
      (fun x => (after (runWith x.1 8
        { loaded x.2.1 x.2.2 with agenda := [turnOf (.start 1)] })).map (·.err)) =
      [some (some .invalidEnvelope), some (some .invalidPublicKey),
        some (some .keyAgreementFailure), some (some .macMismatch), some none] := by
  decide +kernel

theorem witness_EveryCallEnds :
    Good Config.chip { started 97 with agenda := [turnOf .rdstatus, .sequencer] } ∧
      (started 97).busy = true ∧
      ∀ u ∈ [turnOf .rdstatus, Turn.sequencer], turnDefined u = true ∧ turnNotReset u = true :=
  ⟨good_started _ _ _, rfl, by decide⟩

theorem witness_ResultStandsUntilTheNextCall :
    ∃ s t, Good Config.chip s ∧ s.done = true ∧ step s = .next t ∧
      (∀ rest, s.agenda ≠ .reset :: rest) ∧
      (∀ a rest d, s.agenda = .host a :: rest → decode (.host a) = .op (.start d) →
        startAccepted d s = false) := by
  refine ⟨{ ready.raise .macMismatch with agenda := [.host (access 0x28#8 0 5)] }, _,
    good_failed _ _ _, rfl, rfl, by simp, ?_⟩
  intro a rest d h hd
  have ha : a = access 0x28#8 0 5 := by simp at h; exact h.1.symm
  have hw : decode (.host (access 0x28#8 0 5)) = .op (.wrlen 5) := by decide
  rw [ha, hw] at hd
  simp at hd

/-- An envelope that fits the buffer, and the empty one. -/
theorem witness_LoadedEnvelopeIsDecrypted :
    State.reset.busy = false ∧ (zeros 97).length < 2 ^ 32 ∧ ([] : Bytes).length < 2 ^ 32 ∧
      (zeros 97).length ≤ Config.chip.maxEnvLen :=
  ⟨rfl, by decide, by decide, chip_maxEnvLen_ge _ (by decide)⟩

/-- Two states that agree on the 97 bytes of the envelope and on nothing else of the two spaces. -/
theorem witness_CallsAreIndependent :
    ∃ s s' : State, s.busy = false ∧ s'.busy = false ∧ s.keyv = true ∧ s'.keyv = true ∧
      s.sk = some ⟨7⟩ ∧ s'.sk = some ⟨7⟩ ∧ (1 : Word32).getLsbD 0 = true ∧
      s'.envlen = s.envlen ∧
      (∀ a < s.envlen.toNat, inByte Config.chip s' a = inByte Config.chip s a) ∧
      s'.inMem ≠ s.inMem ∧ s'.outMem ≠ s.outMem := by
  refine ⟨loaded ⟨7⟩ (zeros 97), { loaded ⟨7⟩ (zeros 97) with
    inMem := memoryPut (memoryPutAll [] 0 (zeros 97)) 97 5, outMem := [(0, 1)] },
    rfl, rfl, rfl, rfl, rfl, rfl, rfl, rfl, ?_, by decide +kernel, by simp [loaded, State.reset]⟩
  intro a ha
  have ha' : a ≠ 97 := by
    have : (loaded ⟨7⟩ (zeros 97)).envlen.toNat = 97 := by decide +kernel
    omega
  simp only [inByte, loaded]
  rw [memoryFind_memoryPut_other _ _ ha']

theorem witness_NothingIsVisibleDuringACall :
    (∃ s t : State, s.busy = true ∧ t.busy = true ∧ s.agenda = [] ∧ step s = .next t) ∧
      Good Config.chip (started 97) ∧ (started 97).busy = true :=
  ⟨⟨inCall .derive allRegisters ready, _, rfl, rfl, rfl, rfl⟩, good_started _ 97 [], rfl⟩

/-- A release that changes OUT, and a reset that does. -/
theorem witness_OnlyVerifiedPlaintextIsReleased :
    (Good toy toyReleasing ∧ ∃ t, stepWith toy toyReleasing = .next t ∧
      memoryFind t.outMem 0 ≠ memoryFind toyReleasing.outMem 0) ∧
    ∃ s t, Good toy s ∧ stepWith toy s = .next t ∧
      memoryFind t.outMem 0 ≠ memoryFind s.outMem 0 := by
  refine ⟨⟨good_toyReleasing, ?_⟩, ?_⟩
  · have h : ((after (stepWith toy toyReleasing)).map fun t => memoryFind t.outMem 0) =
        some (some 0x61) := by decide +kernel
    cases hs : stepWith toy toyReleasing with
    | next t =>
      refine ⟨t, rfl, ?_⟩
      rw [hs] at h
      have h' : memoryFind t.outMem 0 = some 0x61 := by simpa [after] using h
      rw [h']
      decide +kernel
    | fault f => rw [hs] at h; simp [after] at h
    | refused r => rw [hs] at h; simp [after] at h
  · refine ⟨{ ready with agenda := [.reset], outMem := [(0, 1)] }, _, ?_, rfl, by decide⟩
    exact ⟨by constructor <;> simp [ready, loaded, State.reset], rfl, fun _ => rfl, ⟨rfl, rfl⟩,
      rfl, rfl, by simp [ready, loaded, State.reset], rfl⟩

/-- After an error; and a release of the toy block that makes byte 0 readable. -/
theorem witness_ErrorsExposeNothing :
    (∃ s t, Good Config.chip s ∧ s.err ≠ none ∧ step s = .next t) ∧
    Good toy toyReleasing ∧ outReadable toyReleasing 0 = false ∧
      (after (stepWith toy toyReleasing)).map (outReadable · 0) = some true :=
  ⟨⟨{ ready.raise .macMismatch with agenda := [turnOf (.start 1)] }, _, good_failed _ _ _,
    by simp, rfl⟩, good_toyReleasing, rfl, by decide +kernel⟩

theorem witness_ConformantEnvelopesDecrypt :
    conformant toy toyKey toyPlain toyEpk toyCt toyTag ∧
      (toyEpk ++ toyCt ++ toyTag).length ≤ toy.maxEnvLen :=
  ⟨⟨by decide +kernel, toyPoint, toyZ, by decide +kernel, by decide +kernel, by decide +kernel,
    by decide +kernel⟩, by decide +kernel⟩

theorem witness_ShortEnvelopesMakeNoRequest :
    (zeros 96).length < 97 ∧ ([] : Bytes).length < 97 ∧ (started 96).envlen.toNat < 97 := by decide

theorem witness_ValidPointEndsInOneOfThreeWays :
    97 ≤ toyEnv.length ∧ toyEnv.length ≤ toy.maxEnvLen ∧
      requestParse toy (sliceBytes toyEnv 0 65) = some toyPoint := by decide +kernel

/-- A changed tag byte, a changed ciphertext byte, and a key region that no longer decodes. -/
theorem witness_TamperedEnvelopesAreRejected :
    decrypt toy toyEnv toyKey = .ok toyPlain ∧
    ((toyEnv.set 98 0).length = toyEnv.length ∧ toyEnv.set 98 0 ≠ toyEnv ∧
      sliceBytes (toyEnv.set 98 0) 0 67 = sliceBytes toyEnv 0 67 ∧ toyEnv.length - 32 = 67) ∧
    ((toyEnv.set 65 0).length = toyEnv.length ∧ toyEnv.set 65 0 ≠ toyEnv ∧
      sliceBytes (toyEnv.set 65 0) 0 65 = sliceBytes toyEnv 0 65 ∧
      sliceBytes (toyEnv.set 65 0) 67 99 = sliceBytes toyEnv 67 99) ∧
    ((toyEnv.set 0 5).length = toyEnv.length ∧ toyEnv.set 0 5 ≠ toyEnv ∧
      requestParse toy (sliceBytes (toyEnv.set 0 5) 0 65) = none) :=
  ⟨by decide +kernel, by decide +kernel, by decide +kernel, by decide +kernel⟩

theorem witness_InstancesShareNothing :
    ((System.mk [ready, started 96]).stepAt 0 = some ⟨[ready, started 96]⟩ ∧
      ∃ z, (System.mk [ready, started 96]).stepAt 1 = some z) ∧
    (0 < Config.chip.instances ∧ Config.chip.instances - 1 < Config.chip.instances) :=
  ⟨⟨rfl, _, rfl⟩, Nat.succ_pos _, Nat.lt_succ_self _⟩

/-- A schedule for the toy envelope: the stages fall before the first three polls of WAIT. -/
def toySchedule : Schedule :=
  hostAlone 102 ([.sequencer] :: [.sequencer, .sequencer] :: List.replicate 4 .sequencer ::
    hostAlone 4 [])

/-- Three outcomes: Ok, a changed tag byte (`Err 4`), an envelope one byte too long for the buffer
(`Err 1`), by its length alone; and a schedule that ends before the host's first turn. -/
theorem witness_DecryptPseudoOperationReturnsDecrypt :
    State.reset.phase = .idle ∧ State.reset.busy = false ∧ toyEnv.length < 2 ^ 32 ∧
    (∀ gap ∈ toySchedule, ∀ u ∈ gap, u = Turn.sequencer) ∧
    (decryptScript toy toyEnv toyKey).length = 102 ∧
    7 ≤ ((toySchedule.drop 102).take 3).flatten.length ∧ 102 + 3 + 2 + 2 ≤ toySchedule.length ∧
    returnedOf (decryptCall toy toyEnv toyKey toySchedule State.reset) = some (.ok toyPlain) ∧
    returnedOf (decryptCall toy (toyEnv.set 98 0) toyKey toySchedule State.reset) =
      some (.error 4) ∧
    returnedOf (decryptCall toy (zeros 130) toyKey (hostAlone 3 ([.sequencer] :: hostAlone 1 []))
      State.reset) = some (.error 1) ∧
    returnedOf (decryptCall toy toyEnv toyKey [] State.reset) = none := by
  refine ⟨rfl, rfl, ?_, ?_, ?_, ?_, ?_, ?_, ?_, ?_, rfl⟩ <;> decide +kernel

end Sys2Proof.Tests
end

section
/-! PROOFS. The scope of the model (file 00): the machine is the block over any parameters taken at its
own (R10), and a stage stops at the first operand register that holds `invalid` (R15). -/

namespace Sys2Proof.Machine

/-! ### The machine at its own parameters -/

/-- Each arm of `exec` is the arm of `execWith` at the machine's parameters. -/
theorem exec_eq_execWith_chip (i : Instr) (s : State) : exec i s = execWith Config.chip i s := by
  cases i <;> rfl

/-- A step takes the same turn, and only the executor of operations could differ. -/
theorem step_eq_stepWith_chip (s : State) : step s = stepWith Config.chip s := by
  have hexec : exec = execWith Config.chip := funext₂ exec_eq_execWith_chip
  rw [step, stepWith, hexec]

/-- The host's run loop and `runWith` stop alike at the first fault or refusal. -/
theorem core_run_eq_runWith_chip (n : Nat) (s : State) :
    Host.Core.run Sys2Proof.core n s = runWith Config.chip n s := by
  induction n generalizing s with
  | zero => rfl
  | succ n ih =>
    have hstep : Sys2Proof.core.step s = stepWith Config.chip s := step_eq_stepWith_chip s
    simp only [Host.Core.run, runWith, hstep]
    cases stepWith Config.chip s with
    | next t => exact ih t
    | fault f => rfl
    | refused r => rfl

/-- Settles O11: arm by arm for `exec`, which carries over to a step, and by induction on the number
of steps to a run. -/
theorem machineIsTheBlockAtItsParameters : Obligations.MachineIsTheBlockAtItsParameters :=
  ⟨exec_eq_execWith_chip, step_eq_stepWith_chip, core_run_eq_runWith_chip⟩

/-! ### Operand registers that hold `invalid` -/

variable {cfg : Config} {s : State}

/-- A read of a register that holds `invalid` faults by its name, whatever would follow. -/
theorem withReg_of_eq_none {α : Type} {r : RegName} {v : Option α} {k : α → Result}
    (hv : v = none) : withReg r v k = .fault (.invalidRegister r) := by
  rw [hv, withReg_none]

/-- A read of a register that holds a value passes on the fault of what follows. -/
theorem withReg_of_ne_none {α : Type} {r : RegName} {v : Option α} {k : α → Result} {f : Fault}
    (hv : v ≠ none) (hk : ∀ x, k x = .fault f) : withReg r v k = .fault f := by
  obtain ⟨x, rfl⟩ := Option.ne_none_iff_exists'.mp hv
  exact hk x

theorem agreeWith_epk_invalid (hepk : s.tr.epk = none) :
    agreeWith cfg s = .fault (.invalidRegister .epk) :=
  withReg_of_eq_none hepk

/-- AGREE comes to SK only after a successful parse (41 R133). -/
theorem agreeWith_sk_invalid {epk : BytesN 65} {p : Point} (hepk : s.tr.epk = some epk)
    (hparse : requestParse cfg epk.val = some p) (hsk : s.sk = none) :
    agreeWith cfg s = .fault (.invalidRegister .sk) := by
  simp only [agreeWith, hepk, withReg_some, hparse, hsk, withReg_none]

theorem deriveWith_epk_invalid (hepk : s.tr.epk = none) :
    deriveWith cfg s = .fault (.invalidRegister .epk) :=
  withReg_of_eq_none hepk

theorem deriveWith_z_invalid (hepk : s.tr.epk ≠ none) (hz : s.tr.z = none) :
    deriveWith cfg s = .fault (.invalidRegister .z) :=
  withReg_of_ne_none hepk fun _ => withReg_of_eq_none hz

theorem deriveWith_ctlen_invalid (hepk : s.tr.epk ≠ none) (hz : s.tr.z ≠ none)
    (hctlen : s.tr.ctlen = none) : deriveWith cfg s = .fault (.invalidRegister .ctlen) :=
  withReg_of_ne_none hepk fun _ => withReg_of_ne_none hz fun _ => withReg_of_eq_none hctlen

theorem execSplit_km_invalid (hkm : s.tr.km = none) :
    execSplit s = .fault (.invalidRegister .km) :=
  withReg_of_eq_none hkm

theorem execSplit_ctlen_invalid (hkm : s.tr.km ≠ none) (hctlen : s.tr.ctlen = none) :
    execSplit s = .fault (.invalidRegister .ctlen) :=
  withReg_of_ne_none hkm fun _ => withReg_of_eq_none hctlen

theorem xordecWith_ctlen_invalid (hctlen : s.tr.ctlen = none) :
    xordecWith cfg s = .fault (.invalidRegister .ctlen) :=
  withReg_of_eq_none hctlen

theorem xordecWith_k1_invalid (hctlen : s.tr.ctlen ≠ none) (hk1 : s.tr.k1 = none) :
    xordecWith cfg s = .fault (.invalidRegister .k1) :=
  withReg_of_ne_none hctlen fun _ => withReg_of_eq_none hk1

theorem macchkWith_k2_invalid (hk2 : s.tr.k2 = none) :
    macchkWith cfg s = .fault (.invalidRegister .k2) :=
  withReg_of_eq_none hk2

theorem macchkWith_ctlen_invalid (hk2 : s.tr.k2 ≠ none) (hctlen : s.tr.ctlen = none) :
    macchkWith cfg s = .fault (.invalidRegister .ctlen) :=
  withReg_of_ne_none hk2 fun _ => withReg_of_eq_none hctlen

theorem macchkWith_tag_invalid (hk2 : s.tr.k2 ≠ none) (hctlen : s.tr.ctlen ≠ none)
    (htag : s.tr.tag = none) : macchkWith cfg s = .fault (.invalidRegister .tag) :=
  withReg_of_ne_none hk2 fun _ => withReg_of_ne_none hctlen fun _ => withReg_of_eq_none htag

theorem releaseWith_ctlen_invalid (hctlen : s.tr.ctlen = none) :
    releaseWith cfg s = .fault (.invalidRegister .ctlen) :=
  withReg_of_eq_none hctlen

theorem releaseWith_pt_invalid (hctlen : s.tr.ctlen ≠ none) (hpt : s.tr.pt = none) :
    releaseWith cfg s = .fault (.invalidRegister .pt) :=
  withReg_of_ne_none hctlen fun _ => withReg_of_eq_none hpt

/-- Settles O24: each stage reads its operands one after another, so the first one missing names the
fault; one lemma above for each operand of each stage. -/
theorem invalidRegistersAreNotRead : Obligations.InvalidRegistersAreNotRead := fun _ =>
  ⟨agreeWith_epk_invalid, fun _ _ _ => agreeWith_sk_invalid,
    deriveWith_epk_invalid, deriveWith_z_invalid, deriveWith_ctlen_invalid,
    execSplit_km_invalid, execSplit_ctlen_invalid,
    xordecWith_ctlen_invalid, xordecWith_k1_invalid,
    macchkWith_k2_invalid, macchkWith_ctlen_invalid, macchkWith_tag_invalid,
    releaseWith_ctlen_invalid, releaseWith_pt_invalid⟩

end Sys2Proof.Machine
end

section
/-! PROOFS. The state (file 10): what one operation can do to it, and the invariant `Good` (R51
and the datapath of the call), which every update the block makes keeps. A good state's stage
finds its operands, so each stage is an equation on good states; that gives both that the
invariant is kept and that the block does not stop. All of it holds over any parameters. -/

namespace Sys2Proof.Machine

variable {cfg : Config} {s t : State}

/-! ### What one operation can do to the state -/

/-- The updates an operation makes, in any state: nothing, one field the host writes or reads, the
start of a call, a stage that goes on, an error, or the end of a call. -/
inductive Update (s : State) : State → Prop where
  | same : Update s s
  | setAnswer (v : HostAnswer) : Update s (s.setAnswer v)
  | setEnvlen (v : Word32) : Update s (s.setEnvlen v)
  | loadKey (k : PrivKey) : Update s (s.loadKey k)
  | putIn (a : Nat) (v : Byte) : Update s (s.putIn a v)
  | startCall : Update s s.startCall
  | advance (rs : List Request) (p : Phase) (r : Transients) : Update s ((s.request rs).advance p r)
  | raise (rs : List Request) (k : ErrKind) : Update s ((s.request rs).raise k)
  | endCall (n : Word32) (pt : Bytes) : Update s (s.endCall n pt)

/-- A stage that makes no request appends nothing to the trace. -/
@[simp] theorem State.request_nil (s : State) : s.request [] = s := by
  simp [State.request]

theorem Update.advance_noRequest (s : State) (p : Phase) (r : Transients) :
    Update s (s.advance p r) := by
  simpa using Update.advance (s := s) [] p r

theorem Update.raise_noRequest (s : State) (k : ErrKind) : Update s (s.raise k) := by
  simpa using Update.raise (s := s) [] k

/-- An operation the block ignores under a condition is the update or nothing. -/
theorem Update.ite {c : Bool} (h : Update s t) : Update s (if c then t else s) := by
  cases c
  · exact .same
  · exact h

/-- Every operation that answers a next state has made one of the updates. -/
theorem execWith_update {i : Instr} (h : execWith cfg i s = .next t) : Update s t := by
  cases i with
  | start d => cases h; exact .ite .startCall
  | rdstatus => cases h; exact .setAnswer _
  | wrlen d =>
    cases h
    split
    · exact .same
    · exact .setEnvlen d
  | rdlen => cases h; exact .setAnswer _
  | rdoutlen => cases h; exact .setAnswer _
  | wrkey k =>
    cases h
    split
    · exact .same
    · exact .loadKey k
  | wrenv a v => cases h; exact .ite (.putIn a v)
  | rdout a => cases h; exact .setAnswer _
  | unpack =>
    obtain ⟨-, rfl⟩ | ⟨-, rfl⟩ := unpackWith_next h
    · exact .advance_noRequest ..
    · exact .raise_noRequest ..
  | agree =>
    obtain ⟨_, -, ⟨-, rfl⟩ | ⟨_, _, -, -, ⟨-, rfl⟩ | ⟨_, -, rfl⟩⟩⟩ := agreeWith_next h
    · exact .raise ..
    · exact .raise ..
    · exact .advance ..
  | derive => obtain ⟨_, _, _, -, -, -, rfl⟩ := deriveWith_next h; exact .advance ..
  | split => obtain ⟨_, _, _, -, -, -, -, rfl⟩ := execSplit_next h; exact .advance_noRequest ..
  | xordec => obtain ⟨_, _, -, -, -, rfl⟩ := xordecWith_next h; exact .advance_noRequest ..
  | macchk => obtain ⟨_, _, _, _, -, -, -, -, -, rfl⟩ := macchkWith_next h; exact .advance ..
  | discard => cases h; exact .raise_noRequest ..
  | release => obtain ⟨_, _, -, -, -, -, rfl⟩ := releaseWith_next h; exact .endCall ..

/-- A step takes a turn off the agenda and makes one update or is the reset transition. -/
theorem stepWith_update (h : stepWith cfg s = .next t) :
    ∃ rest, Update (s.setAgenda rest) t ∨ t = (s.setAgenda rest).afterReset := by
  obtain ⟨rest, -, hseq⟩ | ⟨a, rest, -, hhost⟩ | ⟨rest, -, rfl⟩ := takeTurn_next h
  · refine ⟨rest, .inl ?_⟩
    obtain ⟨-, rfl⟩ | ⟨i, -, -, hi⟩ := sequencerTurn_next hseq
    · exact .same
    · exact execWith_update hi
  · refine ⟨rest, .inl ?_⟩
    obtain ⟨i, -, -, hi⟩ | rfl | rfl := hostTurn_next hhost
    · exact execWith_update hi
    · exact .setAnswer _
    · exact .same
  · exact ⟨rest, .inr rfl⟩

theorem Update.unit_eq (h : Update s t) : t.unit = s.unit := by
  cases h <;> rfl

/-- An update writes the memories through `memoryPut` and `memoryPutAll` only. -/
theorem Update.canonical (h : Update s t) (hs : MemoriesCanonical s) : MemoriesCanonical t := by
  obtain ⟨hin, hout⟩ := hs
  cases h with
  | putIn a v => exact ⟨memoryPut_wf a v hin, hout⟩
  | endCall n pt => exact ⟨hin, memoryPutAll_wf 0 pt hout⟩
  | same | setAnswer | setEnvlen | loadKey | startCall | advance | raise => exact ⟨hin, hout⟩

theorem stepWith_canonical (hs : MemoriesCanonical s) (h : stepWith cfg s = .next t) :
    MemoriesCanonical t := by
  obtain ⟨rest, hu | rfl⟩ := stepWith_update h
  · exact hu.canonical hs
  · exact ⟨rfl, rfl⟩

/-- No step changes which of the N_INST blocks this is (log 30). -/
theorem stepWith_unit (h : stepWith cfg s = .next t) : t.unit = s.unit := by
  obtain ⟨rest, hu | rfl⟩ := stepWith_update h
  · exact hu.unit_eq
  · rfl

/-! ### The updates keep the invariant -/

theorem Good.phase_idle (h : Good cfg s) (hb : s.busy = false) : s.phase = .idle := by
  by_contra hp
  simp [h.invariants.busy_iff.mpr hp] at hb

/-- A call has a key. -/
theorem Good.keyv_of_phase (h : Good cfg s) (hp : s.phase ≠ .idle) : s.keyv = true :=
  h.invariants.busy_keyv (h.invariants.busy_iff.mpr hp)

theorem datapathOk_of_idle (hp : s.phase = .idle) (htr : s.tr = Transients.invalid) :
    DatapathOk cfg s := by
  simpa only [DatapathOk, hp] using htr

/-- The agenda, the last answer and the trace are the model's own: the invariant does not look at
them. -/
theorem Good.of_own_fields (h : Good cfg s) (l : List Turn) (v : HostAnswer) (r : List Request) :
    Good cfg { s with agenda := l, answer := v, trace := r } :=
  { h with invariants := { h.invariants with } }

theorem Good.setAgenda (h : Good cfg s) (l : List Turn) : Good cfg (s.setAgenda l) :=
  h.of_own_fields l s.answer s.trace

theorem Good.setAnswer (h : Good cfg s) (v : HostAnswer) : Good cfg (s.setAnswer v) :=
  h.of_own_fields s.agenda v s.trace

theorem Good.request (h : Good cfg s) (rs : List Request) : Good cfg (s.request rs) :=
  h.of_own_fields s.agenda s.answer (s.trace ++ rs)

/-- The reset state is good, whatever turns are to come, after any number of resets and under any
number (10 R50, R51). -/
theorem good_resetState (cfg : Config) (l : List Turn) (e u : Nat) :
    Good cfg { State.reset with agenda := l, epoch := e, unit := u } where
  invariants := by constructor <;> simp
  key_slot := rfl
  done_keyv := by simp
  canonical := ⟨rfl, rfl⟩
  in_below := rfl
  out_below := rfl
  out_written := by simp
  datapath := rfl

theorem good_afterReset (cfg : Config) (s : State) : Good cfg s.afterReset :=
  good_resetState cfg s.agenda (s.epoch + 1) s.unit

/-- While no call runs the datapath is empty, so ENVLEN, the key slot and the IN space may change,
the slot so that it still holds a key if it did. -/
theorem Good.of_inputs (h : Good cfg s) (hb : s.busy = false) {n : Word32} {kv : Bool}
    {k : Option PrivKey} {m : List Host.Cell} (hslot : kv = k.isSome)
    (hkeep : s.keyv = true → kv = true) (hwf : memoryWf m = true)
    (hbelow : memoryBelow cfg.maxEnvLen m = true) :
    Good cfg { s with envlen := n, keyv := kv, sk := k, inMem := m } :=
  { h with
    invariants :=
      { h.invariants with busy_keyv := fun hbusy => hkeep (h.invariants.busy_keyv hbusy) }
    key_slot := hslot
    done_keyv := fun hdone => hkeep (h.done_keyv hdone)
    canonical := ⟨hwf, h.canonical.2⟩
    in_below := hbelow
    datapath := datapathOk_of_idle (h.phase_idle hb)
      (h.invariants.idle_invalid (h.phase_idle hb)) }

theorem Good.setEnvlen (h : Good cfg s) (hb : s.busy = false) (v : Word32) :
    Good cfg (s.setEnvlen v) :=
  h.of_inputs hb h.key_slot id h.canonical.1 h.in_below

theorem Good.loadKey (h : Good cfg s) (hb : s.busy = false) (k : PrivKey) :
    Good cfg (s.loadKey k) :=
  h.of_inputs hb rfl (fun _ => rfl) h.canonical.1 h.in_below

theorem Good.putIn (h : Good cfg s) (hb : s.busy = false) {a : Nat} (ha : a < cfg.maxEnvLen)
    (v : Byte) : Good cfg (s.putIn a v) :=
  h.of_inputs hb h.key_slot id (memoryPut_wf a v h.canonical.1) (memoryPut_below v ha h.in_below)

/-- An accepted START finds the datapath empty, as UNPACK expects it (45 R193). -/
theorem Good.startCall (h : Good cfg s) (hb : s.busy = false) (hk : s.keyv = true) :
    Good cfg s.startCall :=
  { h with
    invariants := by constructor <;> simp [hk]
    done_keyv := by simp
    out_written := by simp
    datapath := h.invariants.idle_invalid (h.phase_idle hb) }

theorem Good.raise (h : Good cfg s) (hk : s.keyv = true) (k : ErrKind) : Good cfg (s.raise k) :=
  { h with
    invariants := by constructor <;> simp
    done_keyv := fun _ => hk
    out_written := by simp
    datapath := rfl }

/-- A stage that goes on leaves what its successor's datapath asks for. -/
theorem Good.advance {p : Phase} {r : Transients} (h : Good cfg s) (hs : s.phase ≠ .idle)
    (hp : p ≠ .idle) (hd : DatapathOk cfg (s.advance p r)) : Good cfg (s.advance p r) :=
  { h with
    invariants :=
      { h.invariants with
        busy_iff := by simp [hp, h.invariants.busy_iff.mpr hs]
        idle_invalid := fun hi => absurd hi hp }
    datapath := hd }

/-- A plaintext of the length OUTLEN is set to, inside the OUT space, is all the gate lets through
(45 R199). -/
theorem Good.endCall {n : Word32} {pt : Bytes} (h : Good cfg s) (hk : s.keyv = true)
    (hn : n.toNat ≤ cfg.outSize) (hpt : pt.length = n.toNat) : Good cfg (s.endCall n pt) :=
  { h with
    invariants := by constructor <;> simp [hn]
    done_keyv := fun _ => hk
    canonical := (Update.endCall n pt).canonical h.canonical
    out_below := memoryPutAll_below pt (by omega) h.out_below
    out_written := fun a (ha : a < n.toNat) => by simp [memoryFind_memoryPutAll, hpt ▸ ha]
    datapath := rfl }

/-! ### The stages on a good state's datapath -/

/-- The envelope of a call ends inside the IN space, so its ciphertext region does. -/
theorem ciphertext_inside (hr : regionsExist cfg (envLength s) = true) :
    ctStart + envCtLen s ≤ cfg.maxEnvLen := by
  have := (regionsExist_iff cfg (envLength s)).mp hr
  unfold ctStart envCtLen ciphertextLength
  omega

/-- A plaintext as long as the ciphertext fits the OUT space (10 R45). -/
theorem plaintext_inside (hr : regionsExist cfg (envLength s) = true) :
    envCtLen s ≤ cfg.outSize := by
  have := (regionsExist_iff cfg (envLength s)).mp hr
  unfold envCtLen ciphertextLength
  unfold Config.maxEnvLen at this
  unfold Config.outSize
  omega

theorem withCiphertext_of_inside {n : Nat} {k : BytesN n → Result}
    (h : ctStart + n ≤ cfg.maxEnvLen) :
    withCiphertext cfg s n k = k (inBytesN cfg s ctStart n) := if_pos h

theorem unpackWith_eq_advance (htr : s.tr = Transients.invalid)
    (hr : regionsExist cfg (envLength s) = true) :
    unpackWith cfg s = .next (s.advance .agree (unpacked cfg s)) := by
  have hr : regionsExist cfg s.envlen.toNat = true := hr
  simp only [unpackWith, if_pos hr, htr]
  rfl

theorem unpackWith_eq_raise (hr : regionsExist cfg (envLength s) = false) :
    unpackWith cfg s = .next (s.raise .invalidEnvelope) := by
  have hr : regionsExist cfg s.envlen.toNat = false := hr
  simp [unpackWith, hr]

theorem agreeWith_eq_invalidKey (htr : s.tr = unpacked cfg s)
    (hparse : requestParse cfg (envEpk cfg s).val = none) :
    agreeWith cfg s =
      .next ((s.request [.ecParse (envEpk cfg s).val]).raise .invalidPublicKey) := by
  have hepk : s.tr.epk = some (envEpk cfg s) := by rw [htr]; rfl
  simp only [agreeWith, hepk, withReg_some, hparse]

theorem agreeWith_eq_failure {p : Point} {k : PrivKey} (htr : s.tr = unpacked cfg s)
    (hparse : requestParse cfg (envEpk cfg s).val = some p) (hsk : s.sk = some k)
    (hecdh : requestEcdh cfg k p = none) :
    agreeWith cfg s = .next ((s.request [.ecParse (envEpk cfg s).val, .ecEcdh k p]).raise
      .keyAgreementFailure) := by
  have hepk : s.tr.epk = some (envEpk cfg s) := by rw [htr]; rfl
  simp only [agreeWith, hepk, withReg_some, hparse, hsk, hecdh]

theorem agreeWith_eq_advance {p : Point} {k : PrivKey} {z : BytesN 32}
    (htr : s.tr = unpacked cfg s) (hparse : requestParse cfg (envEpk cfg s).val = some p)
    (hsk : s.sk = some k) (hecdh : requestEcdh cfg k p = some z) :
    agreeWith cfg s = .next ((s.request [.ecParse (envEpk cfg s).val, .ecEcdh k p]).advance
      .derive (agreed cfg s p z)) := by
  have hepk : s.tr.epk = some (envEpk cfg s) := by rw [htr]; rfl
  simp only [agreeWith, hepk, withReg_some, hparse, hsk, hecdh]
  rw [htr]
  rfl

theorem deriveWith_eq {p : Point} {z : BytesN 32} (htr : s.tr = agreed cfg s p z) :
    deriveWith cfg s =
      .next ((s.request
          (kdfRun cfg (seedOf (envEpk cfg s) z).val (envCtLen s + 16)).requests).advance
        .split (derived cfg s p z)) := by
  have hepk : s.tr.epk = some (envEpk cfg s) := by rw [htr]; rfl
  have hz : s.tr.z = some z := by rw [htr]; rfl
  have hctlen : s.tr.ctlen = some (BitVec.ofNat 32 (envCtLen s)) := by rw [htr]; rfl
  simp only [deriveWith, hepk, hz, hctlen, withReg_some, envCtLen_toNat]
  rw [htr]
  rfl

/-- K2 of the call in the buffer, once the secret is agreed. -/
def envMacKey (cfg : Config) (s : State) (z : BytesN 32) : BytesN 16 :=
  ⟨macKeyOf cfg (seedOf (envEpk cfg s) z).val (envCtLen s), sliceBytes_length _ (by simp)⟩

/-- K1 of the call in the buffer, once the secret is agreed. -/
def envCipherKey (cfg : Config) (s : State) (z : BytesN 32) : BytesN (envCtLen s) :=
  cipherKeyOf cfg (seedOf (envEpk cfg s) z).val (envCtLen s)

/-- The two keys are the two parts of the key material (42 R153). -/
theorem keysSplit_envKeys (cfg : Config) (s : State) (z : BytesN 32) :
    keysSplit cfg s z (envMacKey cfg s z) (envCipherKey cfg s z) := by
  have hwhole (seed : Bytes) (n : Nat) :
      macKeyOf cfg seed n ++ (cipherKeyOf cfg seed n).val = kdf cfg seed (n + 16) := by
    have hjoin := sliceBytes_append (kdf cfg seed (n + 16)) (Nat.zero_le 16) (Nat.le_add_right 16 n)
    have hlen : 16 + n = (kdf cfg seed (n + 16)).length := by simp [Nat.add_comm]
    exact hjoin.trans (hlen ▸ sliceBytes_whole _)
  exact hwhole _ _

theorem execSplit_eq {p : Point} {z : BytesN 32} (htr : s.tr = derived cfg s p z) :
    execSplit s =
      .next (s.advance .xordec (keyed cfg s p z (envMacKey cfg s z) (envCipherKey cfg s z))) := by
  have hkm : s.tr.km = some (kdf cfg (seedOf (envEpk cfg s) z).val (envCtLen s + 16)) := by
    rw [htr]; rfl
  have hctlen : s.tr.ctlen = some (BitVec.ofNat 32 (envCtLen s)) := by rw [htr]; rfl
  have hlen : 16 + envCtLen s ≤
      (kdf cfg (seedOf (envEpk cfg s) z).val (envCtLen s + 16)).length := by
    simp [Nat.add_comm]
  simp only [execSplit, hkm, hctlen, withReg_some, envCtLen_toNat, dif_pos hlen]
  rw [htr]
  rfl

theorem xordecWith_eq_advance {p : Point} {z : BytesN 32} {k2 : BytesN 16}
    {k1 : BytesN (envCtLen s)} (htr : s.tr = keyed cfg s p z k2 k1)
    (hr : regionsExist cfg (envLength s) = true) :
    xordecWith cfg s = .next (s.advance .macchk (decrypted cfg s p z k2 k1)) := by
  have hctlen : s.tr.ctlen = some (BitVec.ofNat 32 (envCtLen s)) := by rw [htr]; rfl
  have hk1 : s.tr.k1 = some k1.val := by rw [htr]; rfl
  rw [xordecWith_eq hctlen (envCtLen_toNat s) hk1 (ciphertext_inside hr), htr]
  rfl

theorem macchkWith_eq {p : Point} {z : BytesN 32} {k2 : BytesN 16} {k1 : BytesN (envCtLen s)}
    (htr : s.tr = decrypted cfg s p z k2 k1) (hr : regionsExist cfg (envLength s) = true) :
    macchkWith cfg s =
      .next ((s.request [.hmac k2.val (macMessage (envCt cfg s).val)]).advance
        (phaseAfterCheck (tagsMatch (computeTag cfg k2.val (envCt cfg s).val) (envTag cfg s)))
        (checked cfg s p z k2 k1)) := by
  have hk2 : s.tr.k2 = some k2 := by rw [htr]; rfl
  have hctlen : s.tr.ctlen = some (BitVec.ofNat 32 (envCtLen s)) := by rw [htr]; rfl
  have htag : s.tr.tag = some (envTag cfg s) := by rw [htr]; rfl
  have hin : ctStart + (BitVec.ofNat 32 (envCtLen s)).toNat ≤ cfg.maxEnvLen := by
    rw [envCtLen_toNat]; exact ciphertext_inside hr
  simp only [macchkWith, hk2, hctlen, htag, withReg_some, withCiphertext_of_inside hin,
    inBytesN_val, envCtLen_toNat]
  rw [htr]
  rfl

theorem releaseWith_eq {p : Point} {z : BytesN 32} {k2 : BytesN 16} {k1 : BytesN (envCtLen s)}
    (htr : s.tr = checked cfg s p z k2 k1) (hr : regionsExist cfg (envLength s) = true) :
    releaseWith cfg s = .next (s.endCall (BitVec.ofNat 32 (envCtLen s))
      (applyStream (envCt cfg s) k1).val) := by
  have hctlen : s.tr.ctlen = some (BitVec.ofNat 32 (envCtLen s)) := by rw [htr]; rfl
  have hpt : s.tr.pt = some (applyStream (envCt cfg s) k1).val := by rw [htr]; rfl
  have hout : (BitVec.ofNat 32 (envCtLen s)).toNat ≤ cfg.outSize := by
    rw [envCtLen_toNat]; exact plaintext_inside hr
  have hlen : (applyStream (envCt cfg s) k1).val.length = (BitVec.ofNat 32 (envCtLen s)).toNat := by
    rw [envCtLen_toNat]; exact (applyStream (envCt cfg s) k1).property
  simp only [releaseWith, hctlen, hpt, withReg_some, withOutRegion, if_pos hout, withLength,
    dif_pos hlen]

/-! ### Every turn of a good state ends in a good state -/

/-- The outcome is a next state that satisfies the invariant. -/
def EndsGood (cfg : Config) (r : Result) : Prop := ∃ t, r = .next t ∧ Good cfg t

theorem Good.endsGood (h : Good cfg t) : EndsGood cfg (.next t) := ⟨t, rfl, h⟩

theorem unpackWith_endsGood (h : Good cfg s) (hp : s.phase = .unpack) :
    EndsGood cfg (unpackWith cfg s) := by
  have hne : s.phase ≠ .idle := by simp [hp]
  have htr : s.tr = Transients.invalid := by simpa only [DatapathOk, hp] using h.datapath
  cases hr : regionsExist cfg (envLength s) with
  | false =>
    rw [unpackWith_eq_raise hr]
    exact (h.raise (h.keyv_of_phase hne) _).endsGood
  | true =>
    rw [unpackWith_eq_advance htr hr]
    refine (h.advance hne (by simp) ?_).endsGood
    exact ⟨hr, rfl⟩

theorem agreeWith_endsGood (h : Good cfg s) (hp : s.phase = .agree) :
    EndsGood cfg (agreeWith cfg s) := by
  have hne : s.phase ≠ .idle := by simp [hp]
  have hkeyv := h.keyv_of_phase hne
  obtain ⟨hr, htr⟩ : regionsExist cfg (envLength s) = true ∧ s.tr = unpacked cfg s := by
    simpa only [DatapathOk, hp] using h.datapath
  obtain ⟨k, hsk⟩ := Option.isSome_iff_exists.mp (h.key_slot.symm.trans hkeyv)
  cases hparse : requestParse cfg (envEpk cfg s).val with
  | none =>
    rw [agreeWith_eq_invalidKey htr hparse]
    exact ((h.request _).raise hkeyv _).endsGood
  | some p =>
    cases hecdh : requestEcdh cfg k p with
    | none =>
      rw [agreeWith_eq_failure htr hparse hsk hecdh]
      exact ((h.request _).raise hkeyv _).endsGood
    | some z =>
      rw [agreeWith_eq_advance htr hparse hsk hecdh]
      refine ((h.request _).advance hne (by simp) ?_).endsGood
      exact ⟨p, z, ⟨hr, hparse, k, hsk, hecdh⟩, rfl⟩

theorem deriveWith_endsGood (h : Good cfg s) (hp : s.phase = .derive) :
    EndsGood cfg (deriveWith cfg s) := by
  have hne : s.phase ≠ .idle := by simp [hp]
  obtain ⟨p, z, hagreed, htr⟩ : ∃ p z, agreedWith cfg s p z ∧ s.tr = agreed cfg s p z := by
    simpa only [DatapathOk, hp] using h.datapath
  rw [deriveWith_eq htr]
  refine ((h.request _).advance hne (by simp) ?_).endsGood
  exact ⟨p, z, hagreed, rfl⟩

theorem execSplit_endsGood (h : Good cfg s) (hp : s.phase = .split) :
    EndsGood cfg (execSplit s) := by
  have hne : s.phase ≠ .idle := by simp [hp]
  obtain ⟨p, z, hagreed, htr⟩ : ∃ p z, agreedWith cfg s p z ∧ s.tr = derived cfg s p z := by
    simpa only [DatapathOk, hp] using h.datapath
  rw [execSplit_eq htr]
  refine (h.advance hne (by simp) ?_).endsGood
  exact ⟨p, z, _, _, hagreed, keysSplit_envKeys cfg s z, rfl⟩

theorem xordecWith_endsGood (h : Good cfg s) (hp : s.phase = .xordec) :
    EndsGood cfg (xordecWith cfg s) := by
  have hne : s.phase ≠ .idle := by simp [hp]
  obtain ⟨p, z, k2, k1, hagreed, hkeys, htr⟩ : ∃ p z k2 k1, agreedWith cfg s p z ∧
      keysSplit cfg s z k2 k1 ∧ s.tr = keyed cfg s p z k2 k1 := by
    simpa only [DatapathOk, hp] using h.datapath
  rw [xordecWith_eq_advance htr hagreed.1]
  refine (h.advance hne (by simp) ?_).endsGood
  exact ⟨p, z, k2, k1, hagreed, hkeys, rfl⟩

/-- MACCHK leaves MATCH as the answer that chose the next PHASE (44 R179). -/
theorem macchkWith_endsGood (h : Good cfg s) (hp : s.phase = .macchk) :
    EndsGood cfg (macchkWith cfg s) := by
  have hne : s.phase ≠ .idle := by simp [hp]
  obtain ⟨p, z, k2, k1, hagreed, hkeys, htr⟩ : ∃ p z k2 k1, agreedWith cfg s p z ∧
      keysSplit cfg s z k2 k1 ∧ s.tr = decrypted cfg s p z k2 k1 := by
    simpa only [DatapathOk, hp] using h.datapath
  rw [macchkWith_eq htr hagreed.1]
  cases hm : tagsMatch (computeTag cfg k2.val (envCt cfg s).val) (envTag cfg s) with
  | false =>
    refine ((h.request _).advance hne (by simp [phaseAfterCheck]) ?_).endsGood
    exact ⟨p, z, k2, k1, hagreed, hkeys, rfl, congrArg some hm⟩
  | true =>
    refine ((h.request _).advance hne (by simp [phaseAfterCheck]) ?_).endsGood
    exact ⟨p, z, k2, k1, hagreed, hkeys, rfl, congrArg some hm⟩

theorem execDiscard_endsGood (h : Good cfg s) (hp : s.phase = .discard) :
    EndsGood cfg (execDiscard s) :=
  (h.raise (h.keyv_of_phase (by simp [hp])) .macMismatch).endsGood

theorem releaseWith_endsGood (h : Good cfg s) (hp : s.phase = .release) :
    EndsGood cfg (releaseWith cfg s) := by
  have hne : s.phase ≠ .idle := by simp [hp]
  obtain ⟨p, z, k2, k1, hagreed, -, htr, -⟩ : ∃ p z k2 k1, agreedWith cfg s p z ∧
      keysSplit cfg s z k2 k1 ∧ s.tr = checked cfg s p z k2 k1 ∧ s.tr.matched = some true := by
    simpa only [DatapathOk, hp] using h.datapath
  have hlen := (applyStream (envCt cfg s) k1).property
  rw [releaseWith_eq htr hagreed.1]
  refine (h.endCall (h.keyv_of_phase hne) ?_ ?_).endsGood
  · rw [envCtLen_toNat]; exact plaintext_inside hagreed.1
  · rw [envCtLen_toNat]; exact hlen

theorem sequencerTurn_endsGood (h : Good cfg s) :
    EndsGood cfg (sequencerTurn (execWith cfg) s) := by
  cases hp : s.phase with
  | idle => rw [sequencerTurn_idle hp]; exact h.endsGood
  | unpack => rw [sequencerTurn_unpack hp]; exact unpackWith_endsGood h hp
  | agree => rw [sequencerTurn_agree hp]; exact agreeWith_endsGood h hp
  | derive => rw [sequencerTurn_derive hp]; exact deriveWith_endsGood h hp
  | split => rw [sequencerTurn_split hp]; exact execSplit_endsGood h hp
  | xordec => rw [sequencerTurn_xordec hp]; exact xordecWith_endsGood h hp
  | macchk => rw [sequencerTurn_macchk hp]; exact macchkWith_endsGood h hp
  | discard => rw [sequencerTurn_discard hp]; exact execDiscard_endsGood h hp
  | release => rw [sequencerTurn_release hp]; exact releaseWith_endsGood h hp

/-- The four host writes are guarded by BUSY, and the four reads touch the answer alone. -/
theorem execWith_host_endsGood {i : Instr} (hi : i.format = .host) (h : Good cfg s) :
    EndsGood cfg (execWith cfg i s) := by
  cases i with
  | start d =>
    refine Good.endsGood ?_
    split
    · rename_i hacc
      obtain ⟨-, hb, hk⟩ := (startAccepted_iff d s).mp hacc
      exact h.startCall hb hk
    · exact h
  | rdstatus => exact (h.setAnswer _).endsGood
  | wrlen d =>
    refine Good.endsGood ?_
    cases hb : s.busy with
    | true => exact h
    | false => exact h.setEnvlen hb d
  | rdlen => exact (h.setAnswer _).endsGood
  | rdoutlen => exact (h.setAnswer _).endsGood
  | wrkey k =>
    refine Good.endsGood ?_
    cases hb : s.busy with
    | true => exact h
    | false => exact h.loadKey hb k
  | wrenv a v =>
    refine Good.endsGood ?_
    split
    · rename_i hacc
      obtain ⟨hb, ha⟩ : s.busy = false ∧ a < cfg.maxEnvLen := by simpa using hacc
      exact h.putIn hb ha v
    · exact h
  | rdout a => exact (h.setAnswer _).endsGood
  | unpack | agree | derive | split | xordec | macchk | discard | release => cases hi

theorem format_of_decode_host {a : HostAccess} {i : Instr} (hd : decode (.host a) = .op i) :
    i.format = .host := by
  simp only [decode, decodeHost, decodeReg] at hd
  (repeat' split at hd) <;> simp at hd <;> subst hd <;> rfl

theorem hostTurn_endsGood {a : HostAccess} (ha : accessDefined a = true) (h : Good cfg s) :
    EndsGood cfg (hostTurn (execWith cfg) a s) := by
  unfold accessDefined at ha
  unfold hostTurn
  cases hd : decode (.host a) with
  | op i => exact execWith_host_endsGood (format_of_decode_host hd) h
  | readsZero => exact (h.setAnswer _).endsGood
  | ignored | idle => exact h.endsGood
  | undefinedRegister | undefinedDirection | undefinedSpace | undefinedStage => simp [hd] at ha

/-- A host's turn that goes on was an access the spec defines. -/
theorem accessDefined_of_hostTurn_next {ex : Instr → State → Result} {a : HostAccess}
    (h : hostTurn ex a s = .next t) : accessDefined a = true := by
  unfold hostTurn at h
  unfold accessDefined
  cases hd : decode (.host a) with
  | op | readsZero | ignored | idle => rfl
  | undefinedRegister | undefinedDirection | undefinedSpace | undefinedStage =>
    rw [hd] at h; cases h

/-- In a good state only an undefined host access stops the block, and a step that does not stop
ends in a good state. -/
theorem stepWith_endsGood (h : Good cfg s)
    (hacc : ∀ a rest, s.agenda = .host a :: rest → accessDefined a = true) :
    EndsGood cfg (stepWith cfg s) := by
  unfold stepWith
  cases hag : s.agenda with
  | nil => rw [takeTurn_nil hag]; exact sequencerTurn_endsGood h
  | cons u rest =>
    cases u with
    | host a => rw [takeTurn_host hag]; exact hostTurn_endsGood (hacc a rest hag) (h.setAgenda rest)
    | sequencer => rw [takeTurn_sequencer hag]; exact sequencerTurn_endsGood (h.setAgenda rest)
    | reset => rw [takeTurn_reset hag]; exact (good_afterReset cfg _).endsGood

theorem stepWith_keepsGood (hs : Good cfg s) (h : stepWith cfg s = .next t) : Good cfg t := by
  have hacc : ∀ a rest, s.agenda = .host a :: rest → accessDefined a = true := by
    intro a rest hag
    rw [stepWith, takeTurn_host hag] at h
    exact accessDefined_of_hostTurn_next h
  obtain ⟨u, hu, hgood⟩ := stepWith_endsGood hs hacc
  cases hu.symm.trans h
  exact hgood

/-! ### Runs -/

/-- What every step keeps, every run keeps. -/
theorem runWith_keeps {P : State → Prop}
    (hstep : ∀ s t, P s → stepWith cfg s = .next t → P t) {n : Nat} (hs : P s)
    (h : runWith cfg n s = .next t) : P t := by
  induction n generalizing s with
  | zero => cases h; exact hs
  | succ n ih =>
    simp only [runWith] at h
    cases hu : stepWith cfg s with
    | next u => rw [hu] at h; exact ih (hstep s u hs hu) h
    | fault f => rw [hu] at h; cases h
    | refused r => rw [hu] at h; cases h

/-- A run from reset under any agenda stays in good states. -/
theorem good_of_reachable {l : List Turn} {n : Nat}
    (h : runWith cfg n { State.reset with agenda := l } = .next t) : Good cfg t :=
  runWith_keeps (fun _ _ => stepWith_keepsGood) (good_resetState cfg l 0 0) h

/-! ### The obligations on the invariant -/

/-- Settles O42, from the step lemma over any parameters. -/
theorem stepKeepsGoodStates : Obligations.StepKeepsGoodStates := fun s _ hs h =>
  stepWith_keepsGood hs (step_eq_stepWith_chip s ▸ h)

/-- Settles O43: the reset state is good, and every step keeps good states (O42), so 10 R51 holds
along every run. -/
theorem reachableStatesKeepTheInvariants : Obligations.ReachableStatesKeepTheInvariants := by
  intro l n t h
  rw [core_run_eq_runWith_chip] at h
  have inv := (good_of_reachable h).invariants
  have hout : Config.chip.outSize = Config.chip.maxEnvLen - 97 := by
    simp [Config.outSize, Config.maxEnvLen]
  exact ⟨inv.busy_iff, inv.not_busy_and_done, inv.err_done, inv.not_done, inv.idle_invalid,
    inv.busy_keyv, hout ▸ inv.outlen_le⟩

/-- Settles O44: each stage finds in a good state the operands it reads, so no turn stops but that
of an undefined access. -/
theorem goodStatesDoNotStop : Obligations.GoodStatesDoNotStop := by
  intro s hs hacc
  obtain ⟨t, ht, -⟩ := stepWith_endsGood hs hacc
  exact ⟨t, step_eq_stepWith_chip s ▸ ht⟩

/-- Settles O45: an update writes a memory by its store operations alone, which keep the form. -/
theorem stepKeepsMemoriesCanonical : Obligations.StepKeepsMemoriesCanonical := fun s _ hs h =>
  stepWith_canonical hs (step_eq_stepWith_chip s ▸ h)

/-- Settles O41: the reset state has the fields that `good_resetState` asks for, at epoch and
number 0. -/
theorem resetStateIsGood : Obligations.ResetStateIsGood := fun l =>
  good_resetState Config.chip l 0 0

end Sys2Proof.Machine
end

section
/-! PROOFS. The bus window (10 R38, 20 R63), the reset table (10 R50) and the independence of the
N_INST blocks of a system (10 R49, 20 R76). -/

namespace Sys2Proof.Machine

variable {cfg : Config} {s t : State}

/-! ### The register window -/

/-- The first four bytes after a register's own address, and that address, lie in the register
window, which is looked at before the two others (log 19). -/
theorem locate_regAddress {k o : Nat} (hk : k < 5) (ho : o < 4) :
    locate cfg (regAddress cfg k + o) = if o = 0 then some (.reg k) else none := by
  have hwin : cfg.base ≤ regAddress cfg k + o ∧ regAddress cfg k + o < cfg.base + 20 := by
    unfold regAddress; omega
  have hoff : regAddress cfg k + o - cfg.base = 4 * k + o := by unfold regAddress; omega
  have hmod : (4 * k + o) % 4 = o := by omega
  have hdiv : (4 * k + o) / 4 = k := by omega
  simp only [locate, if_pos hwin, hoff, hmod, hdiv]

/-- Settles O5: offset 4k names register k, and the naming word's fields give back what it was made
of. -/
theorem registerWindowAddresses : Obligations.RegisterWindowAddresses := by
  intro cfg w d key k hk
  refine ⟨⟨⟨namingWord 0 w (BitVec.ofNat 3 k), 0, d, key⟩, ?_, by simp, by simp, ?_, rfl, rfl⟩, ?_⟩
  · have hloc : locate cfg (regAddress cfg k) = some (.reg k) :=
      locate_regAddress (o := 0) hk (by omega)
    simp only [busAccess, hloc]
  · rw [wordReg_namingWord, BitVec.toNat_ofNat, Nat.mod_eq_of_lt (by omega)]
  · intro o hpos ho
    simp only [busAccess, locate_regAddress hk ho, if_neg hpos.ne']

/-! ### The reset table -/

/-- Before the first write since reset every IN byte is the free draw. -/
theorem inByte_of_inMem_nil (h : s.inMem = []) (a : Nat) :
    inByte cfg s a = cfg.inDraw s.unit s.epoch a := by
  simp [inByte, h, memoryFind]

/-- A host read of OUT that the gate stops returns 0x00 (10 R45). -/
theorem execRdout_of_not_readable {a : Nat} (h : outReadable s a = false) :
    exec (.rdout a) s = .next (s.setAnswer (.byte 0)) := by
  show rdoutWith Config.chip a s = _
  simp [rdoutWith, h]

/-- The words of a read of CTRL and of KEY (30 R105). -/
theorem decode_readsZero {a : HostAccess} (h : a.word = 0x00#8 ∨ a.word = 0x10#8) :
    decode (.host a) = .readsZero := by
  obtain h | h := h <;> simp only [decode, decodeHost, h] <;> rfl

/-- Settles O10: the table's rows are the fields of the reset state; reads of it go through the
closed gate, and the reset transition starts from nothing but what the model carries over. -/
theorem resetStateIsTheTable : Obligations.ResetStateIsTheTable := by
  refine ⟨rfl, rfl, rfl, rfl, rfl, rfl, rfl, rfl, rfl, inByte_of_inMem_nil rfl,
    fun _ => execRdout_of_not_readable rfl, fun a ha => ?_, fun s rest hag => ⟨s.epoch + 1, ?_⟩⟩
  · rw [step, takeTurn_host (a := a) (rest := []) rfl, hostTurn, decode_readsZero ha]
    rfl
  · rw [step, takeTurn_reset hag]
    rfl

/-! ### The N_INST blocks -/

/-- A step of block `i` of a system is a step of its own state, put back in its place. -/
theorem stepAt_eq_some_iff {y z : System} {i : Nat} :
    y.stepAt i = some z ↔
      ∃ s t, y.instances[i]? = some s ∧ step s = .next t ∧ z = ⟨y.instances.set i t⟩ := by
  unfold System.stepAt
  cases y.instances[i]? with
  | none => simp
  | some s =>
    cases hs : step s with
    | next t => simp [hs, eq_comm]
    | fault f => simp [hs]
    | refused r => simp [hs]

/-- A block's step is its own whatever was put in another block's place. -/
theorem stepAt_after_set {y : System} {i j : Nat} {s t u : State} (hne : i ≠ j)
    (hj : y.instances[j]? = some s) (ht : step s = .next t) :
    System.stepAt ⟨y.instances.set i u⟩ j = some ⟨(y.instances.set i u).set j t⟩ :=
  stepAt_eq_some_iff.mpr ⟨s, t, by simpa [List.getElem?_set_ne hne] using hj, ht, rfl⟩

theorem step_unit (h : step s = .next t) : t.unit = s.unit :=
  stepWith_unit (step_eq_stepWith_chip s ▸ h)

theorem systemReset_getElem? {i : Nat} (hi : i < Config.chip.instances) :
    System.reset.instances[i]? = some { State.reset with unit := i } := by
  simp [System.reset, hi]

/-- What the step of one block does to the system (the first part of O59). -/
theorem stepAt_frame {y z : System} {i : Nat} (h : y.stepAt i = some z) :
    z.instances.length = y.instances.length ∧
    (∀ j, j ≠ i → z.instances[j]? = y.instances[j]?) ∧
    ∃ s t, y.instances[i]? = some s ∧ step s = .next t ∧ z.instances[i]? = some t ∧
      t.unit = s.unit := by
  obtain ⟨s, t, hi, ht, rfl⟩ := stepAt_eq_some_iff.mp h
  obtain ⟨hlt, -⟩ := List.getElem?_eq_some_iff.mp hi
  exact ⟨List.length_set, fun j hj => List.getElem?_set_ne hj.symm,
    s, t, hi, ht, List.getElem?_set_self hlt, step_unit ht⟩

/-- Steps of two blocks commute (the second part of O59). -/
theorem stepAt_comm {y z z' : System} {i j : Nat} (hne : i ≠ j) (hz : y.stepAt i = some z)
    (hz' : y.stepAt j = some z') : ∃ w, z.stepAt j = some w ∧ z'.stepAt i = some w := by
  obtain ⟨s, t, hi, ht, rfl⟩ := stepAt_eq_some_iff.mp hz
  obtain ⟨s', t', hj, ht', rfl⟩ := stepAt_eq_some_iff.mp hz'
  refine ⟨_, stepAt_after_set hne hj ht', ?_⟩
  rw [stepAt_after_set hne.symm hi ht, List.set_comm t' t hne.symm]

/-- Settles O59: a system steps by putting one block's own step back in its place, so the frame
and the commutation are those of `List.set`. -/
theorem instancesShareNothing : Obligations.InstancesShareNothing :=
  ⟨fun _ _ _ => stepAt_frame, fun _ _ _ _ _ => stepAt_comm, by simp [System.reset],
    fun _ hi => ⟨_, systemReset_getElem? hi, rfl, inByte_of_inMem_nil rfl⟩⟩

end Sys2Proof.Machine
end

section
/-! PROOFS. The host's accesses (file 20): reads leave all but the answer and stores are idempotent
(R66); while BUSY no host turn does more than answer and no stage writes what a call reads (R68,
R71 (b)); and nothing of a call under way shows but BUSY (00 R12, R65). -/

namespace Sys2Proof.Machine

variable {cfg : Config} {s t : State}

/-! ### A byte written twice -/

theorem memoryPut_memoryPut_same (m : List Host.Cell) (a : Nat) (v : Byte) :
    memoryPut (memoryPut m a v) a v = memoryPut m a v := by
  induction m with
  | nil => simp [memoryPut]
  | cons c m ih =>
    simp only [memoryPut]
    split
    · rename_i hlt
      simp [memoryPut, hlt, ih]
    · split <;> simp [memoryPut]

theorem State.putIn_putIn_same (s : State) (a : Nat) (v : Byte) :
    (s.putIn a v).putIn a v = s.putIn a v := by
  simp [State.putIn, memoryPut_memoryPut_same]

/-! ### Reads and stores, done twice -/

/-- A read whose value does not depend on the last answer changes nothing else and repeats. -/
theorem exec_read_repeats {i : Instr} {v : State → HostAnswer}
    (hexec : ∀ s, exec i s = .next (s.setAnswer (v s)))
    (hv : ∀ s w, v (s.setAnswer w) = v s) (s : State) :
    ∃ t, exec i s = .next t ∧ t = { s with answer := t.answer } ∧ exec i t = .next t := by
  refine ⟨s.setAnswer (v s), hexec s, rfl, ?_⟩
  rw [hexec, hv]
  rfl

/-- A store under a condition that does not look at what is stored: a second one finds the condition
as it was and stores the same again. -/
theorem exec_store_idempotent {i : Instr} {c : State → Bool} {put : State → State}
    (hexec : ∀ s, exec i s = .next (if c s then put s else s)) (hc : ∀ s, c (put s) = c s)
    (hput : ∀ s, put (put s) = put s) (s : State) :
    ∃ t, exec i s = .next t ∧ exec i t = .next t ∧ (t = put s ∨ t = s) := by
  cases hs : c s with
  | true =>
    refine ⟨put s, ?_, ?_, .inl rfl⟩
    · rw [hexec, if_pos hs]
    · rw [hexec, if_pos (hc s ▸ hs), hput]
  | false =>
    have hself : exec i s = .next s := by simp [hexec, hs]
    exact ⟨s, hself, hself, .inr rfl⟩

theorem exec_wrenv_idempotent (a : Nat) (v : Byte) (s : State) :
    ∃ t, exec (.wrenv a v) s = .next t ∧ exec (.wrenv a v) t = .next t ∧
      t = { s with inMem := t.inMem } ∧
      ∀ b, b ≠ a → inByte Config.chip t b = inByte Config.chip s b := by
  obtain ⟨t, hs, ht, rfl | rfl⟩ := exec_store_idempotent (i := .wrenv a v)
    (c := fun s => !s.busy && decide (a < Config.chip.maxEnvLen)) (put := (·.putIn a v))
    (fun _ => rfl) (fun _ => rfl) (fun s => s.putIn_putIn_same a v) s
  · exact ⟨_, hs, ht, rfl, fun b hb => by rw [inByte_putIn, if_neg hb]⟩
  · exact ⟨_, hs, ht, rfl, fun _ _ => rfl⟩

theorem exec_wrlen_idempotent (v : Word32) (s : State) :
    ∃ t, exec (.wrlen v) s = .next t ∧ exec (.wrlen v) t = .next t ∧
      t = { s with envlen := t.envlen } := by
  obtain ⟨t, hs, ht, rfl | rfl⟩ := exec_store_idempotent (i := .wrlen v) (c := (!·.busy))
    (put := (·.setEnvlen v)) (fun s => by cases hb : s.busy <;> simp [exec, execWrlen, hb])
    (fun _ => rfl) (fun _ => rfl) s
  · exact ⟨_, hs, ht, rfl⟩
  · exact ⟨_, hs, ht, rfl⟩

theorem exec_wrkey_idempotent (k : PrivKey) (s : State) :
    ∃ t, exec (.wrkey k) s = .next t ∧ exec (.wrkey k) t = .next t ∧
      t = { s with sk := t.sk, keyv := t.keyv } := by
  obtain ⟨t, hs, ht, rfl | rfl⟩ := exec_store_idempotent (i := .wrkey k) (c := (!·.busy))
    (put := (·.loadKey k)) (fun s => by cases hb : s.busy <;> simp [exec, execWrkey, hb])
    (fun _ => rfl) (fun _ => rfl) s
  · exact ⟨_, hs, ht, rfl⟩
  · exact ⟨_, hs, ht, rfl⟩

/-! ### The operations of the host during a call -/

theorem execWith_start_of_busy (hb : s.busy = true) (d : Word32) :
    execWith cfg (.start d) s = .next s := by
  simp [execWith, execStart, startAccepted, hb]

theorem execWith_wrlen_of_busy (hb : s.busy = true) (v : Word32) :
    execWith cfg (.wrlen v) s = .next s := by
  simp [execWith, execWrlen, hb]

theorem execWith_wrkey_of_busy (hb : s.busy = true) (k : PrivKey) :
    execWith cfg (.wrkey k) s = .next s := by
  simp [execWith, execWrkey, hb]

theorem execWith_wrenv_of_busy (hb : s.busy = true) (a : Nat) (v : Byte) :
    execWith cfg (.wrenv a v) s = .next s := by
  simp [execWith, wrenvWith, hb]

/-- While BUSY the four host writes do nothing and the four reads answer: a host operation answers,
and that is all it does. An ignored write is the answer left as it was. -/
theorem execWith_host_of_busy {i : Instr} (hi : i.format = .host) (hb : s.busy = true) :
    ∃ v, execWith cfg i s = .next (s.setAnswer v) := by
  cases i with
  | start d => exact ⟨s.answer, execWith_start_of_busy hb d⟩
  | wrlen v => exact ⟨s.answer, execWith_wrlen_of_busy hb v⟩
  | wrkey k => exact ⟨s.answer, execWith_wrkey_of_busy hb k⟩
  | wrenv a v => exact ⟨s.answer, execWith_wrenv_of_busy hb a v⟩
  | rdstatus | rdlen | rdoutlen | rdout => exact ⟨_, rfl⟩
  | unpack | agree | derive | split | xordec | macchk | discard | release => cases hi

/-- The same for a whole host turn, which can also be one of the accesses of 30 R105. -/
theorem hostTurn_of_busy {a : HostAccess} (ha : accessDefined a = true) (hb : s.busy = true) :
    ∃ v, hostTurn (execWith cfg) a s = .next (s.setAnswer v) := by
  unfold accessDefined at ha
  unfold hostTurn
  cases hd : decode (.host a) with
  | op i => exact execWith_host_of_busy (format_of_decode_host hd) hb
  | readsZero => exact ⟨.word 0, rfl⟩
  | ignored | idle => exact ⟨s.answer, rfl⟩
  | undefinedRegister | undefinedDirection | undefinedSpace | undefinedStage => simp [hd] at ha

/-! ### What the sequencer's turn can do -/

/-- A stage goes on, raises an error or ends the call: of the updates (`Update`), a stage makes only
these three. -/
theorem execWith_stage_cases {i : Instr} (hi : i.format = .stage)
    (h : execWith cfg i s = .next t) :
    (∃ rs p r, t = (s.request rs).advance p r) ∨ (∃ rs k, t = (s.request rs).raise k) ∨
      ∃ n pt, t = s.endCall n pt := by
  cases i with
  | unpack =>
    obtain ⟨-, rfl⟩ | ⟨-, rfl⟩ := unpackWith_next h
    · exact .inl ⟨[], _, _, by rw [State.request_nil]⟩
    · exact .inr (.inl ⟨[], _, by rw [State.request_nil]⟩)
  | agree =>
    obtain ⟨_, -, ⟨-, rfl⟩ | ⟨_, _, -, -, ⟨-, rfl⟩ | ⟨_, -, rfl⟩⟩⟩ := agreeWith_next h
    · exact .inr (.inl ⟨_, _, rfl⟩)
    · exact .inr (.inl ⟨_, _, rfl⟩)
    · exact .inl ⟨_, _, _, rfl⟩
  | derive =>
    obtain ⟨_, _, _, -, -, -, rfl⟩ := deriveWith_next h
    exact .inl ⟨_, _, _, rfl⟩
  | split =>
    obtain ⟨_, _, _, -, -, -, -, rfl⟩ := execSplit_next h
    exact .inl ⟨[], _, _, by rw [State.request_nil]⟩
  | xordec =>
    obtain ⟨_, _, -, -, -, rfl⟩ := xordecWith_next h
    exact .inl ⟨[], _, _, by rw [State.request_nil]⟩
  | macchk =>
    obtain ⟨_, _, _, _, -, -, -, -, -, rfl⟩ := macchkWith_next h
    exact .inl ⟨_, _, _, rfl⟩
  | discard => cases h; exact .inr (.inl ⟨[], _, by rw [State.request_nil]⟩)
  | release =>
    obtain ⟨_, _, -, -, -, -, rfl⟩ := releaseWith_next h
    exact .inr (.inr ⟨_, _, rfl⟩)
  | start | rdstatus | wrlen | rdlen | rdoutlen | wrkey | wrenv | rdout => cases hi

/-- A turn of the sequencer waits or ends a stage in one of its three ways. -/
theorem sequencerTurn_cases (h : sequencerTurn (execWith cfg) s = .next t) :
    t = s ∨ (∃ rs p r, t = (s.request rs).advance p r) ∨
      (∃ rs k, t = (s.request rs).raise k) ∨ ∃ n pt, t = s.endCall n pt := by
  obtain ⟨-, rfl⟩ | ⟨i, hi, -, hexec⟩ := sequencerTurn_next h
  · exact .inl rfl
  · exact .inr (execWith_stage_cases hi hexec)

/-! ### The inputs of a call -/

/-- What a call reads is in `t` as it was in `s`: the envelope, its length, and the key. -/
def InputsKept (cfg : Config) (s t : State) : Prop :=
  (∀ a, inByte cfg t a = inByte cfg s a) ∧ t.envlen = s.envlen ∧ t.sk = s.sk ∧ t.keyv = s.keyv

theorem InputsKept.refl (cfg : Config) (s : State) : InputsKept cfg s s :=
  ⟨fun _ => rfl, rfl, rfl, rfl⟩

/-- A state that differs in none of these fields, and in no index of the free draws, keeps them. -/
theorem InputsKept.of_fields (hin : t.inMem = s.inMem) (hepoch : t.epoch = s.epoch)
    (hunit : t.unit = s.unit) (hlen : t.envlen = s.envlen) (hsk : t.sk = s.sk)
    (hkeyv : t.keyv = s.keyv) : InputsKept cfg s t :=
  ⟨inByte_congr hin hepoch hunit, hlen, hsk, hkeyv⟩

theorem sequencerTurn_inputsKept (h : sequencerTurn (execWith cfg) s = .next t) :
    InputsKept cfg s t := by
  obtain rfl | ⟨_, _, _, rfl⟩ | ⟨_, _, rfl⟩ | ⟨_, _, rfl⟩ := sequencerTurn_cases h
  · exact .refl cfg t
  · exact .of_fields rfl rfl rfl rfl rfl rfl
  · exact .of_fields rfl rfl rfl rfl rfl rfl
  · exact .of_fields rfl rfl rfl rfl rfl rfl

/-- During a call the sequencer does not write the inputs and the host cannot; only reset could. -/
theorem stepWith_inputsKept (hb : s.busy = true) (hreset : ∀ rest, s.agenda ≠ .reset :: rest)
    (h : stepWith cfg s = .next t) : InputsKept cfg s t := by
  obtain ⟨rest, -, hseq⟩ | ⟨a, rest, -, hhost⟩ | ⟨rest, hag, -⟩ := takeTurn_next h
  · exact sequencerTurn_inputsKept (s := s.setAgenda rest) hseq
  · obtain ⟨v, hv⟩ := hostTurn_of_busy (s := s.setAgenda rest)
      (accessDefined_of_hostTurn_next hhost) hb
    cases hv.symm.trans hhost
    exact .of_fields rfl rfl rfl rfl rfl rfl
  · exact absurd hag (hreset rest)

theorem exec_start_inputsKept {d : Word32} (h : exec (.start d) s = .next t) :
    InputsKept Config.chip s t := by
  obtain rfl : (if startAccepted d s then s.startCall else s) = t := Host.Outcome.next.inj h
  split
  · exact .of_fields rfl rfl rfl rfl rfl rfl
  · exact .refl _ s

/-! ### What the host sees of a call -/

/-- A turn of the sequencer after which the call still runs has moved PHASE, the datapath and the
trace alone, and a host read returns none of these. -/
theorem sequencerTurn_hostView (h : sequencerTurn (execWith cfg) s = .next t)
    (hb : t.busy = true) : hostView cfg t = hostView cfg s := by
  obtain rfl | ⟨_, _, _, rfl⟩ | ⟨_, _, rfl⟩ | ⟨_, _, rfl⟩ := sequencerTurn_cases h
  · rfl
  · rfl
  · simp at hb
  · simp at hb

theorem stepWith_hostView (hag : s.agenda = [] ∨ ∃ rest, s.agenda = .sequencer :: rest)
    (hb : t.busy = true) (h : stepWith cfg s = .next t) : hostView cfg t = hostView cfg s := by
  obtain hnil | ⟨rest, hcons⟩ := hag
  · rw [stepWith, takeTurn_nil hnil] at h
    exact sequencerTurn_hostView h hb
  · rw [stepWith, takeTurn_sequencer hcons] at h
    exact sequencerTurn_hostView (s := s.setAgenda rest) h hb

theorem Good.not_done_of_busy (h : Good cfg s) (hb : s.busy = true) : s.done = false := by
  by_contra hd
  exact h.invariants.not_busy_and_done ⟨hb, by simpa using hd⟩

/-- STATUS of a call under way: BUSY and KEYV set, DONE and ERR clear (10 R40). -/
theorem statusWord_of_call (hb : s.busy = true) (hd : s.done = false) (hk : s.keyv = true)
    (he : s.err = none) : statusWord s = 0x00000005 := by
  simp only [statusWord, hb, hd, hk, he, errCode]
  rfl

theorem outReadable_of_not_done (hd : s.done = false) (a : Nat) : outReadable s a = false := by
  simp [outReadable, hd]

/-! ### The obligations -/

/-- Settles O19: no value read is the last answer, and no store looks at what it stores. -/
theorem readsHaveNoSideEffectsAndStoresAreIdempotent :
    Obligations.ReadsHaveNoSideEffectsAndStoresAreIdempotent := by
  refine ⟨fun i hi => ?_, fun a => ?_, exec_wrenv_idempotent, exec_wrlen_idempotent,
    exec_wrkey_idempotent⟩
  · obtain rfl | rfl | rfl : i = .rdstatus ∨ i = .rdlen ∨ i = .rdoutlen := by simpa using hi
    · exact exec_read_repeats (v := fun s => .word (statusWord s)) (fun _ => rfl) fun _ _ => rfl
    · exact exec_read_repeats (v := fun s => .word s.envlen) (fun _ => rfl) fun _ _ => rfl
    · exact exec_read_repeats (v := fun s => .word s.outlen) (fun _ => rfl) fun _ _ => rfl
  · exact exec_read_repeats
      (v := fun s => .byte (if outReadable s a then outByte Config.chip s a else 0x00#8))
      (fun _ => rfl) fun _ _ => rfl

/-- Settles O20: the host's writes are ignored, the stages do not write the inputs, and an accepted
START writes none of them. -/
theorem inputsAreLockedDuringACall : Obligations.InputsAreLockedDuringACall := by
  refine ⟨fun s hb => ⟨?_, ?_, ?_, ?_⟩, fun s t hb hreset h => ?_, fun d s t h => ?_⟩
  · exact execWith_wrenv_of_busy (cfg := Config.chip) hb
  · exact execWith_wrlen_of_busy (cfg := Config.chip) hb
  · exact execWith_wrkey_of_busy (cfg := Config.chip) hb
  · exact execWith_start_of_busy (cfg := Config.chip) hb
  · exact stepWith_inputsKept hb hreset (step_eq_stepWith_chip s ▸ h)
  · exact exec_start_inputsKept h

/-- Settles O21: the turn is taken off the agenda, and a host turn while BUSY only answers. -/
theorem hostTurnsDoNotDisturbACall : Obligations.HostTurnsDoNotDisturbACall := by
  intro s a rest hb hag ha
  obtain ⟨v, hv⟩ := hostTurn_of_busy (cfg := Config.chip) (s := s.setAgenda rest) ha hb
  refine ⟨v, ?_⟩
  rw [step_eq_stepWith_chip, stepWith, takeTurn_host hag, hv]
  rfl

/-- Settles O52: a stage that goes on writes no register the host reads; and in a good state BUSY
means not DONE, which fixes STATUS and OUTLEN and closes the OUT gate. -/
theorem nothingIsVisibleDuringACall : Obligations.NothingIsVisibleDuringACall := by
  refine ⟨fun s t _ hb hag h => stepWith_hostView hag hb (step_eq_stepWith_chip s ▸ h),
    fun s hs hb => ?_⟩
  have hd := hs.not_done_of_busy hb
  obtain ⟨herr, houtlen⟩ := hs.invariants.not_done hd
  refine ⟨?_, ?_, fun a => execRdout_of_not_readable (outReadable_of_not_done hd a)⟩
  · rw [← statusWord_of_call hb hd (hs.invariants.busy_keyv hb) herr]
    rfl
  · rw [← houtlen]
    rfl

end Sys2Proof.Machine
end

section
/-! PROOFS. The encoding (file 30): a host access is a row of the opcode table, one of the accesses
of R105, or no move, by its naming word under the mask 0xFC alone; and each operation decodes from
its own encoding and from no other form (R99 to R101). -/

namespace Sys2Proof.Machine

/-! ### The naming words of the table and of 30 R105 -/

/-- What the access `a` is, by its naming word under the mask: the eight HOST rows of the opcode
table (30 R100), then the four other accesses with a behaviour (30 R105). -/
inductive HostWord (a : HostAccess) : BitVec 8 → Decoded → Prop where
  | start : HostWord a 0x20 (.op (.start a.data))
  | rdstatus : HostWord a 0x04 (.op .rdstatus)
  | wrlen : HostWord a 0x28 (.op (.wrlen a.data))
  | rdlen : HostWord a 0x08 (.op .rdlen)
  | rdoutlen : HostWord a 0x0C (.op .rdoutlen)
  | wrkey : HostWord a 0x30 (.op (.wrkey a.key))
  | wrenv : HostWord a 0x60 (.op (.wrenv a.addr.toNat (a.data.setWidth 8)))
  | rdout : HostWord a 0x80 (.op (.rdout a.addr.toNat))
  | readCtrl : HostWord a 0x00 .readsZero
  | readKey : HostWord a 0x10 .readsZero
  | writeStatus : HostWord a 0x24 .ignored
  | writeOutlen : HostWord a 0x2C .ignored

/-- The decoder does not look at bits 1:0 of the naming word (log 13). -/
theorem decodeHost_masked {a : HostAccess} {m : BitVec 8} (h : a.word &&& 0xFC#8 = m) :
    decodeHost a = decodeHost { a with word := m } := by
  obtain ⟨hspace, hwrite, hreg⟩ := word_fields_of_mask a.word
  simp only [decodeHost, ← h, ← hspace, ← hwrite, ← hreg]
  rfl

/-- A word of the list decodes as the list says. -/
theorem decode_of_hostWord {a : HostAccess} {m : BitVec 8} {d : Decoded} (h : HostWord a m d)
    (hm : a.word &&& 0xFC#8 = m) : decode (.host a) = d := by
  rw [decode, decodeHost_masked hm]
  cases h <;> (simp only [decodeHost]; rfl)

/-- The three ways in which a host access has no move (U12, log 12). -/
def noMove : List Decoded := [.undefinedRegister, .undefinedDirection, .undefinedSpace]

/-- In the REG space every register number below 5 is in the list, in both directions. -/
theorem hostWord_of_regSpace (a : HostAccess) (w : Bool) (r : BitVec 3) :
    HostWord a (namingWord 0 w r) (decodeReg w r a) ∨ decodeReg w r a ∈ noMove := by
  obtain rfl | rfl | rfl | rfl | rfl | h :
      r = 0 ∨ r = 1 ∨ r = 2 ∨ r = 3 ∨ r = 4 ∨ 5 ≤ r.toNat := by
    revert r; decide
  · cases w
    · exact .inl .readCtrl
    · exact .inl .start
  · cases w
    · exact .inl .rdstatus
    · exact .inl .writeStatus
  · cases w
    · exact .inl .rdlen
    · exact .inl .wrlen
  · cases w
    · exact .inl .rdoutlen
    · exact .inl .writeOutlen
  · cases w
    · exact .inl .readKey
    · exact .inl .wrkey
  · have hundef : decodeReg w r a = .undefinedRegister := by
      obtain ⟨n, hn⟩ : ∃ n, r.toNat = n + 5 := ⟨_, (Nat.sub_add_cancel h).symm⟩
      simp only [decodeReg, hn]
    exact .inr (by simp [hundef, noMove])

/-- Every host access is in the list or has no move. -/
theorem hostWord_or_noMove (a : HostAccess) :
    HostWord a (a.word &&& 0xFC#8) (decode (.host a)) ∨ decode (.host a) ∈ noMove := by
  rw [word_mask_eq_namingWord]
  simp only [decode, decodeHost]
  generalize wordSpace a.word = sp, wordIsWrite a.word = w, wordReg a.word = r
  obtain rfl | rfl | rfl | rfl : sp = 0 ∨ sp = 1 ∨ sp = 2 ∨ sp = 3 := by revert sp; decide
  · exact hostWord_of_regSpace a w r
  · by_cases hr : r = 0#3
    · subst hr
      cases w
      · exact .inr (by simp [noMove])
      · exact .inl .wrenv
    · exact .inr (by simp [noMove, hr])
  · by_cases hr : r = 0#3
    · subst hr
      cases w
      · exact .inl .rdout
      · exact .inr (by simp [noMove])
    · exact .inr (by simp [noMove, hr])
  · exact .inr (by simp [noMove])

/-- Settles O3: the HOST rows stand in the list, and a PHASE code is its stage's number. -/
theorem tableRowsDecode : Obligations.TableRowsDecode :=
  ⟨fun _ => ⟨decode_of_hostWord .start, decode_of_hostWord .rdstatus, decode_of_hostWord .wrlen,
      decode_of_hostWord .rdlen, decode_of_hostWord .rdoutlen, decode_of_hostWord .wrkey,
      decode_of_hostWord .wrenv, decode_of_hostWord .rdout⟩,
    rfl, rfl, rfl, rfl, rfl, rfl, rfl, rfl, rfl, rfl, rfl, rfl, rfl, rfl, rfl, rfl⟩

/-- Settles O4: each of the words written out is a row of the list, its operands read off. -/
theorem writtenOutWordsDecode : Obligations.WrittenOutWordsDecode :=
  ⟨decode_of_hostWord .start rfl, decode_of_hostWord .wrlen rfl, decode_of_hostWord .wrenv rfl,
    decode_of_hostWord .rdout rfl, rfl, rfl⟩

/-! ### Operations and their encodings -/

/-- A 32-bit address comes through its encoding as it was (40 R123). -/
theorem toNat_ofNat_of_address {x : Nat} (hx : decide (x < 4294967296) = true) :
    (BitVec.ofNat 32 x).toNat = x := by
  have hlt : x < 4294967296 := of_decide_eq_true hx
  rw [BitVec.toNat_ofNat, Nat.mod_eq_of_lt hlt]

/-- An operation's word has its row's match value (`TableWord`), so it decodes as that row. -/
theorem decode_of_tableWord {a : HostAccess} {m : Nat} {d : Decoded}
    (hword : encodedMatches .host m (.host a)) (hrow : HostWord a (BitVec.ofNat 8 m) d) :
    decode (.host a) = d := by
  obtain ⟨-, hm, -⟩ := hword
  refine decode_of_hostWord hrow ?_
  rw [← hm, BitVec.ofNat_toNat, BitVec.setWidth_eq]

/-- Settles O1: an operation's own word is its row of the list, with its operands; only WRENV and
RDOUT have an operand that the encoding could cut. -/
theorem decodeOfEncodeIsTheOperation : Obligations.DecodeOfEncodeIsTheOperation := by
  intro i hwf
  cases i with
  | start d => exact decode_of_tableWord (Laws.TableWord.start d) .start
  | rdstatus => exact decode_of_tableWord Laws.TableWord.rdstatus .rdstatus
  | wrlen d => exact decode_of_tableWord (Laws.TableWord.wrlen d) .wrlen
  | rdlen => exact decode_of_tableWord Laws.TableWord.rdlen .rdlen
  | rdoutlen => exact decode_of_tableWord Laws.TableWord.rdoutlen .rdoutlen
  | wrkey k => exact decode_of_tableWord (Laws.TableWord.wrkey k) .wrkey
  | wrenv x v =>
    have haddr : (BitVec.ofNat 32 x).toNat = x := toNat_ofNat_of_address hwf
    have hbyte : (v.setWidth 32).setWidth 8 = v := by simp
    rw [encode, decode_of_tableWord (Laws.TableWord.wrenv x v) .wrenv, haddr, hbyte]
  | rdout x =>
    have haddr : (BitVec.ofNat 32 x).toNat = x := toNat_ofNat_of_address hwf
    rw [encode, decode_of_tableWord (Laws.TableWord.rdout x) .rdout, haddr]
  | unpack | agree | derive | split | xordec | macchk | discard | release => rfl

/-- The operations of the sequencer have no operand, so no operand that could be out of range. -/
theorem wellFormed_of_stage {i : Instr} (hi : i.format = .stage) : i.wellFormed = true := by
  cases i with
  | unpack | agree | derive | split | xordec | macchk | discard | release => rfl
  | start | rdstatus | wrlen | rdlen | rdoutlen | wrkey | wrenv | rdout => cases hi

/-- A stage is read from its own PHASE code alone (30 R101). -/
theorem encode_of_decode_stage {code : BitVec 4} {i : Instr} (h : decode (.stage code) = .op i) :
    i.format = .stage ∧ encode i = .stage code := by
  simp only [decode, decodeStage] at h
  split at h <;> cases h
  all_goals exact ⟨rfl, congrArg Encoded.stage (BitVec.eq_of_toNat_eq (Eq.symm ‹_›))⟩

/-- The access `b` is `a` as far as the operation `i` has operands, and names the same row. -/
def SameAccess (i : Instr) (a b : HostAccess) : Prop :=
  b.word = a.word &&& 0xFC#8 ∧
    (∀ d, i = .start d ∨ i = .wrlen d → b.data = a.data ∧ d = a.data) ∧
    (∀ k, i = .wrkey k → b.key = a.key ∧ k = a.key) ∧
    (∀ x v, i = .wrenv x v → b.addr = a.addr ∧ x = a.addr.toNat ∧
      b.data.extractLsb' 0 8 = a.data.extractLsb' 0 8 ∧ v = a.data.extractLsb' 0 8) ∧
    (∀ x, i = .rdout x → b.addr = a.addr ∧ x = a.addr.toNat)

/-- A host operation is read from its own row of the list alone, with its own operands (30 R100). -/
theorem encode_of_decode_host {a : HostAccess} {i : Instr} (h : decode (.host a) = .op i) :
    i.wellFormed = true ∧ ∃ b, encode i = .host b ∧ SameAccess i a b := by
  obtain hrow | hnone := hostWord_or_noMove a
  · rw [h] at hrow
    generalize hm : a.word &&& 0xFC#8 = m at hrow
    cases hrow with
    | start => exact ⟨rfl, _, rfl, hm.symm, by simp [regAccess], by simp, by simp, by simp⟩
    | rdstatus => exact ⟨rfl, _, rfl, hm.symm, by simp, by simp, by simp, by simp⟩
    | wrlen => exact ⟨rfl, _, rfl, hm.symm, by simp [regAccess], by simp, by simp, by simp⟩
    | rdlen => exact ⟨rfl, _, rfl, hm.symm, by simp, by simp, by simp, by simp⟩
    | rdoutlen => exact ⟨rfl, _, rfl, hm.symm, by simp, by simp, by simp, by simp⟩
    | wrkey => exact ⟨rfl, _, rfl, hm.symm, by simp, by simp, by simp, by simp⟩
    | wrenv =>
      refine ⟨decide_eq_true a.addr.isLt, _, rfl, hm.symm, by simp, by simp, ?_, by simp⟩
      intro x v hxv
      cases hxv
      have hbyte : ((a.data.setWidth 8).setWidth 32).extractLsb' 0 8 = a.data.extractLsb' 0 8 := by
        rw [BitVec.extractLsb'_setWidth_of_le (by decide),
          BitVec.extractLsb'_setWidth_of_le (by decide)]
      exact ⟨by simp, rfl, hbyte, BitVec.setWidth_eq_extractLsb' (by decide)⟩
    | rdout =>
      exact ⟨decide_eq_true a.addr.isLt, _, rfl, hm.symm, by simp, by simp, by simp, by simp⟩
  · simp [h, noMove] at hnone

/-- Settles O2: a stage is read from its own code, a host operation from a row of the list; decoding
its encoding is O1. -/
theorem decodedOperationsAreWellFormed : Obligations.DecodedOperationsAreWellFormed := by
  intro e i h
  have hagain (hwf : i.wellFormed = true) : decode (encode i) = decode e :=
    (decodeOfEncodeIsTheOperation i hwf).trans h.symm
  cases e with
  | stage code =>
    obtain ⟨hstage, henc⟩ := encode_of_decode_stage h
    exact ⟨wellFormed_of_stage hstage, hagain (wellFormed_of_stage hstage), henc⟩
  | host a =>
    obtain ⟨hwf, b, henc, hsame⟩ := encode_of_decode_host h
    exact ⟨hwf, hagain hwf, b, henc, hsame⟩

/-! ### Steps -/

/-- What a step does with the host's access at the head of the agenda (log 1). -/
theorem step_host {s : State} {a : HostAccess} {rest : List Turn}
    (hag : s.agenda = .host a :: rest) :
    step s = takeUp exec (decode (.host a)) (s.setAgenda rest) := by
  rw [step, takeTurn_host hag, hostTurn]

/-- Settles O6: taking the turn off the agenda leaves the PHASE, which selects the stage. -/
theorem stepRunsTheDecodedOperation : Obligations.StepRunsTheDecodedOperation := by
  refine ⟨fun s a rest i hag hd => ?_, fun s rest i hag hd => ?_, fun s i hag hd => ?_⟩
  · rw [step_host hag, hd]
    rfl
  · rw [step, takeTurn_sequencer hag, sequencerTurn, State.setAgenda_phase, hd]
    rfl
  · rw [step, takeTurn_nil hag, sequencerTurn, hd]
    rfl

/-- An access with no move stops the step, whatever it would execute. -/
theorem takeUp_of_noMove {ex : Instr → State → Result} {d : Decoded} (hd : d ∈ noMove) (s : State) :
    takeUp ex d s = .fault (.undefinedAccess d) := by
  obtain rfl | rfl | rfl : d = .undefinedRegister ∨ d = .undefinedDirection ∨ d = .undefinedSpace :=
    by simpa [noMove] using hd
  · rfl
  · rfl
  · rfl

/-- Settles O8: the four words of R105 are in the list, and a word that is not in it has no move. -/
theorem accessesOutsideTheTable : Obligations.AccessesOutsideTheTable := by
  intro s a rest hag
  rw [step_host hag]
  refine ⟨?_, ?_, fun hout => ?_⟩
  · rintro (hm | hm)
    · rw [decode_of_hostWord .readCtrl hm]; rfl
    · rw [decode_of_hostWord .readKey hm]; rfl
  · rintro (hm | hm)
    · rw [decode_of_hostWord .writeStatus hm]; rfl
    · rw [decode_of_hostWord .writeOutlen hm]; rfl
  · obtain hrow | hnone := hostWord_or_noMove a
    · generalize a.word &&& 0xFC#8 = m, decode (.host a) = d at hrow hout
      cases hrow <;> simp at hout
    · exact ⟨_, takeUp_of_noMove hnone _⟩

end Sys2Proof.Machine
end

section
/-! PROOFS. A call under way (45 R204): what the stages so far have put in the registers and asked
of the delegates, whatever an earlier history left in the registers they have not written yet. Each turn
of the sequencer keeps it, and it ends with the result and the requests of `decrypt`. -/

namespace Sys2Proof.Machine

variable {cfg : Config} {b : Bytes} {k : PrivKey} {s t : State} {p : Point} {z : BytesN 32}

/-! ### `decrypt` on the envelope in the buffer -/

/-- An envelope too short to slice or too long for the buffer. -/
theorem decrypt_of_not_regionsExist (k : PrivKey) (h : regionsExist cfg b.length = false) :
    decrypt cfg b k = .error .invalidEnvelope ∧ callRequests cfg b k = [] := by
  obtain hshort | hlong := (regionsExist_false_iff cfg b.length).mp h
  · simp [decrypt, callRequests, unpackOf, hshort]
  · simp [decrypt, callRequests, Nat.not_le.mpr hlong]

theorem decrypt_envelope (k : PrivKey) (hr : regionsExist cfg (envLength s) = true) :
    decrypt cfg (envelope cfg s) k =
        decryptRegions cfg (envEpk cfg s).val (envCt cfg s).val (envTag cfg s).val k ∧
      callRequests cfg (envelope cfg s) k =
        regionRequests cfg (envEpk cfg s).val (envCt cfg s).val k := by
  obtain ⟨hmin, hmax⟩ := (regionsExist_iff cfg (envLength s)).mp hr
  obtain ⟨hepk, hct, htag⟩ := envelope_slices cfg s hmin
  simp [decrypt, callRequests, unpackOf, hmax, Nat.not_lt.mpr hmin, hepk, hct, htag]

theorem macKey_envelope (cfg : Config) (s : State) (z : BytesN 32) :
    macKey cfg (envEpk cfg s).val z.val (envCt cfg s).val = (envMacKey cfg s z).val := by
  simp only [macKey, (envCt cfg s).property]
  rfl

theorem cipherKey_envelope (cfg : Config) (s : State) (z : BytesN 32) :
    (cipherKey cfg (envEpk cfg s).val z.val (envCt cfg s).val).val =
      (envCipherKey cfg s z).val := by
  simp only [cipherKey, cipherKeyOf, (envCt cfg s).property]
  rfl

/-- `decrypt` once the secret is agreed: the tag decides (45 R191). -/
theorem openEnvelope_envelope (cfg : Config) (s : State) (z : BytesN 32) :
    openEnvelope cfg (envEpk cfg s).val z.val (envCt cfg s).val (envTag cfg s).val =
      if tagsMatch (computeTag cfg (envMacKey cfg s z).val (envCt cfg s).val) (envTag cfg s) then
        .ok (applyStream (envCt cfg s) (envCipherKey cfg s z)).val
      else .error .macMismatch := by
  have hstream : (applyStream ⟨(envCt cfg s).val, rfl⟩
      (cipherKey cfg (envEpk cfg s).val z.val (envCt cfg s).val)).val =
      (applyStream (envCt cfg s) (envCipherKey cfg s z)).val :=
    applyStream_val_congr rfl (cipherKey_envelope cfg s z)
  simp only [openEnvelope, macKey_envelope, hstream, tagsMatch, decide_eq_true_eq]

/-- DERIVE asks for the hashes that the transaction lists (45 R203). -/
theorem kdfRun_requests_envelope (cfg : Config) (s : State) (z : BytesN 32) :
    (kdfRun cfg (seedOf (envEpk cfg s) z).val (envCtLen s + 16)).requests =
      hashRequests (envEpk cfg s).val z.val (envCt cfg s).val := by
  simp only [kdfRun_spec, hashRequests, (envCt cfg s).property]
  rfl

/-! ### What the stages so far have done -/

/-- UNPACK has sliced the envelope in the buffer (40 R121). -/
structure HasRegions (cfg : Config) (s : State) : Prop where
  regions : regionsExist cfg (envLength s) = true
  epk : s.tr.epk = some (envEpk cfg s)
  ctlen : s.tr.ctlen = some (BitVec.ofNat 32 (envCtLen s))
  tag : s.tr.tag = some (envTag cfg s)

/-- AGREE has agreed the secret `z` with the point `p` (41 R133). -/
structure HasSecret (cfg : Config) (k : PrivKey) (s : State) (p : Point) (z : BytesN 32) : Prop
    extends HasRegions cfg s where
  parse : requestParse cfg (envEpk cfg s).val = some p
  ecdh : requestEcdh cfg k p = some z
  secret : s.tr.z = some z

/-- SPLIT has made the two keys from it (42 R153). -/
structure HasKeys (cfg : Config) (k : PrivKey) (s : State) (p : Point) (z : BytesN 32) : Prop
    extends HasSecret cfg k s p z where
  macKey : s.tr.k2 = some (envMacKey cfg s z)
  cipherKey : s.tr.k1 = some (envCipherKey cfg s z).val

/-- These read the inputs of the call and their own registers: PHASE, the trace, the last answer and
the other registers may change. -/
theorem HasRegions.frame (h : HasRegions cfg s) {q : Phase} {r : Transients} {rs : List Request}
    {v : HostAnswer} (hepk : r.epk = s.tr.epk) (hctlen : r.ctlen = s.tr.ctlen)
    (htag : r.tag = s.tr.tag) :
    HasRegions cfg { s with phase := q, tr := r, trace := rs, answer := v } :=
  ⟨h.regions, hepk.trans h.epk, hctlen.trans h.ctlen, htag.trans h.tag⟩

theorem HasSecret.frame (h : HasSecret cfg k s p z) {q : Phase} {r : Transients} {rs : List Request}
    {v : HostAnswer} (hepk : r.epk = s.tr.epk) (hctlen : r.ctlen = s.tr.ctlen)
    (htag : r.tag = s.tr.tag) (hz : r.z = s.tr.z) :
    HasSecret cfg k { s with phase := q, tr := r, trace := rs, answer := v } p z :=
  ⟨h.toHasRegions.frame hepk hctlen htag, h.parse, h.ecdh, hz.trans h.secret⟩

theorem HasKeys.frame (h : HasKeys cfg k s p z) {q : Phase} {r : Transients} {rs : List Request}
    {v : HostAnswer} (hepk : r.epk = s.tr.epk) (hctlen : r.ctlen = s.tr.ctlen)
    (htag : r.tag = s.tr.tag) (hz : r.z = s.tr.z) (hk2 : r.k2 = s.tr.k2) (hk1 : r.k1 = s.tr.k1) :
    HasKeys cfg k { s with phase := q, tr := r, trace := rs, answer := v } p z :=
  ⟨h.toHasSecret.frame hepk hctlen htag hz, hk2.trans h.macKey, hk1.trans h.cipherKey⟩

/-- The requests of AGREE when both succeed. -/
def agreeRequests (cfg : Config) (k : PrivKey) (s : State) (p : Point) : List Request :=
  [.ecParse (envEpk cfg s).val, .ecEcdh k p]

/-- The requests of a call up to DERIVE. -/
def keyRequests (cfg : Config) (k : PrivKey) (s : State) (p : Point) (z : BytesN 32) :
    List Request :=
  agreeRequests cfg k s p ++ hashRequests (envEpk cfg s).val z.val (envCt cfg s).val

/-- `decrypt` and its requests once the secret is agreed. -/
theorem HasSecret.decrypt_eq (h : HasSecret cfg k s p z) :
    decrypt cfg (envelope cfg s) k =
        (if tagsMatch (computeTag cfg (envMacKey cfg s z).val (envCt cfg s).val) (envTag cfg s) then
          .ok (applyStream (envCt cfg s) (envCipherKey cfg s z)).val
        else .error .macMismatch) ∧
      callRequests cfg (envelope cfg s) k = keyRequests cfg k s p z ++
        [.hmac (envMacKey cfg s z).val (macMessage (envCt cfg s).val)] := by
  obtain ⟨hres, hreq⟩ := decrypt_envelope k h.regions
  refine ⟨?_, ?_⟩
  · simp only [hres, decryptRegions, agreeOf, h.parse, h.ecdh, openEnvelope_envelope]
  · simp only [hreq, regionRequests, h.parse, h.ecdh, macKey_envelope]
    rfl

/-- A finished call: its result and requests are those of `decrypt`, and the block is at rest as 10
R51 (a), (c) and (e) ask. -/
structure CallEnded (cfg : Config) (k : PrivKey) (s : State) : Prop where
  result : callResult cfg s = some (decrypt cfg (envelope cfg s) k)
  requests : s.trace = callRequests cfg (envelope cfg s) k
  not_busy : s.busy = false
  err_outlen : s.err ≠ none → s.outlen = 0
  invalid : s.tr = Transients.invalid

/-- What has been done of the call, by the stage that is next. Registers that no stage has written
may hold anything. -/
def CallProgress (cfg : Config) (k : PrivKey) (s : State) : Prop :=
  match s.phase with
  | .idle => CallEnded cfg k s
  | .unpack => s.trace = []
  | .agree => HasRegions cfg s ∧ s.trace = []
  | .derive => ∃ p z, HasSecret cfg k s p z ∧ s.trace = agreeRequests cfg k s p
  | .split => ∃ p z, HasSecret cfg k s p z ∧ s.trace = keyRequests cfg k s p z ∧
      s.tr.km = some (kdf cfg (seedOf (envEpk cfg s) z).val (envCtLen s + 16))
  | .xordec => ∃ p z, HasKeys cfg k s p z ∧ s.trace = keyRequests cfg k s p z
  | .macchk => ∃ p z, HasKeys cfg k s p z ∧ s.trace = keyRequests cfg k s p z ∧
      s.tr.pt = some (applyStream (envCt cfg s) (envCipherKey cfg s z)).val
  | .discard => decrypt cfg (envelope cfg s) k = .error .macMismatch ∧
      s.trace = callRequests cfg (envelope cfg s) k
  | .release => HasRegions cfg s ∧ ∃ pt : BytesN (envCtLen s), s.tr.pt = some pt.val ∧
      decrypt cfg (envelope cfg s) k = .ok pt.val ∧
      s.trace = callRequests cfg (envelope cfg s) k

/-- The key slot holds `k`, and the envelope in the buffer stands for `b`: it is `b`, or neither is
an envelope that fits the buffer. -/
structure CallInputs (cfg : Config) (b : Bytes) (k : PrivKey) (s : State) : Prop where
  key : s.sk = some k
  decrypts : decrypt cfg (envelope cfg s) k = decrypt cfg b k
  asks : callRequests cfg (envelope cfg s) k = callRequests cfg b k

/-- A call on `b` and `k` is under way or has just ended. -/
structure InCall (cfg : Config) (b : Bytes) (k : PrivKey) (s : State) : Prop
    extends CallInputs cfg b k s where
  done_iff : s.done = true ↔ s.phase = .idle
  progress : CallProgress cfg k s

theorem InCall.not_done (h : InCall cfg b k s) (hp : s.phase ≠ .idle) : s.done = false := by
  rw [← Bool.not_eq_true, h.done_iff]
  exact hp

theorem InCall.ended (h : InCall cfg b k s) (hp : s.phase = .idle) : CallEnded cfg k s := by
  simpa only [CallProgress, hp] using h.progress

/-- What has been done of a call does not depend on the last answer. -/
theorem CallProgress.setAnswer (h : CallProgress cfg k s) (v : HostAnswer) :
    CallProgress cfg k (s.setAnswer v) := by
  unfold CallProgress at h ⊢
  rw [State.setAnswer_phase]
  cases hq : s.phase <;> simp only [hq] at h ⊢
  case idle => exact ⟨h.result, h.requests, h.not_busy, h.err_outlen, h.invalid⟩
  case unpack | discard => exact h
  case agree | release =>
    obtain ⟨hregs, hrest⟩ := h
    exact ⟨hregs.frame rfl rfl rfl, hrest⟩
  case derive | split =>
    obtain ⟨p, z, hsec, hrest⟩ := h
    exact ⟨p, z, hsec.frame rfl rfl rfl rfl, hrest⟩
  case xordec | macchk =>
    obtain ⟨p, z, hkeys, hrest⟩ := h
    exact ⟨p, z, hkeys.frame rfl rfl rfl rfl rfl rfl, hrest⟩

/-- A host read leaves the call as it is. -/
theorem InCall.setAnswer (h : InCall cfg b k s) (v : HostAnswer) :
    InCall cfg b k (s.setAnswer v) :=
  ⟨⟨h.key, h.decrypts, h.asks⟩, h.done_iff, h.progress.setAnswer v⟩

/-! ### How a stage can leave the call -/

/-- The turns of the sequencer that a call needs from a stage on, at most. -/
def stagesLeft : Phase → Nat
  | .idle => 0
  | .unpack => 7
  | .agree => 6
  | .derive => 5
  | .split => 4
  | .xordec => 3
  | .macchk => 2
  | .discard => 1
  | .release => 1

theorem stagesLeft_eq_zero_iff {q : Phase} : stagesLeft q = 0 ↔ q = .idle := by
  cases q <;> simp [stagesLeft]

theorem stagesLeft_pos {q : Phase} (hq : q ≠ .idle) : 0 < stagesLeft q :=
  Nat.pos_of_ne_zero (mt stagesLeft_eq_zero_iff.mp hq)

/-- The call goes on, or has ended, nearer to its end than it was at the stage `q`. -/
def CallMovesOn (cfg : Config) (b : Bytes) (k : PrivKey) (q : Phase) (r : Result) : Prop :=
  ∃ t, r = .next t ∧ InCall cfg b k t ∧ stagesLeft t.phase < stagesLeft q

/-- The trace is no input of the call. -/
theorem CallInputs.request (h : CallInputs cfg b k s) (rs : List Request) :
    CallInputs cfg b k (s.request rs) :=
  ⟨h.key, h.decrypts, h.asks⟩

theorem CallInputs.advance {q p : Phase} {r : Transients} (h : CallInputs cfg b k s)
    (hd : s.done = false) (hp : p ≠ .idle) (hprogress : CallProgress cfg k (s.advance p r))
    (hlt : stagesLeft p < stagesLeft q) : CallMovesOn cfg b k q (.next (s.advance p r)) :=
  ⟨_, rfl, ⟨⟨h.key, h.decrypts, h.asks⟩, by simp [hd, hp], hprogress⟩, hlt⟩

theorem callResult_raise (cfg : Config) (s : State) (e : ErrKind) :
    callResult cfg (s.raise e) = some (.error e) := rfl

theorem CallInputs.raise {q : Phase} {e : ErrKind} (h : CallInputs cfg b k s) (hq : q ≠ .idle)
    (hresult : decrypt cfg (envelope cfg s) k = .error e)
    (hrequests : callRequests cfg (envelope cfg s) k = s.trace) :
    CallMovesOn cfg b k q (.next (s.raise e)) := by
  have hend : CallEnded cfg k (s.raise e) :=
    { result := (callResult_raise cfg s e).trans (congrArg some hresult.symm)
      requests := hrequests.symm
      not_busy := rfl
      err_outlen := fun _ => rfl
      invalid := rfl }
  exact ⟨_, rfl, ⟨⟨h.key, h.decrypts, h.asks⟩, by simp, hend⟩, stagesLeft_pos hq⟩

/-- RELEASE makes readable exactly the plaintext it stored (45 R199, 30 R98). -/
theorem callResult_endCall (cfg : Config) (s : State) {n : Word32} {pt : Bytes}
    (hn : pt.length = n.toNat) : callResult cfg (s.endCall n pt) = some (.ok pt) := by
  have hbytes : releasedBytes cfg (s.endCall n pt) = pt := by
    refine List.ext_getElem (by simp [releasedBytes, hn]) fun a ha hpt => ?_
    have hlt : a < n.toNat := hn ▸ hpt
    simp [releasedBytes, outReadable, outByte, memoryFind_memoryPutAll, hlt, hpt]
  simp [callResult, hbytes]

theorem CallInputs.endCall {q : Phase} {n : Word32} {pt : Bytes} (h : CallInputs cfg b k s)
    (hq : q ≠ .idle) (hn : pt.length = n.toNat)
    (hresult : decrypt cfg (envelope cfg s) k = .ok pt)
    (hrequests : callRequests cfg (envelope cfg s) k = s.trace) :
    CallMovesOn cfg b k q (.next (s.endCall n pt)) := by
  have hend : CallEnded cfg k (s.endCall n pt) :=
    { result := (callResult_endCall cfg s hn).trans (congrArg some hresult.symm)
      requests := hrequests.symm
      not_busy := rfl
      err_outlen := fun he => absurd rfl he
      invalid := rfl }
  exact ⟨_, rfl, ⟨⟨h.key, h.decrypts, h.asks⟩, by simp, hend⟩, stagesLeft_pos hq⟩

/-! ### The stages -/

/-- A read of a register that holds a value goes on with it. -/
theorem withReg_of_eq_some {α : Type} {r : RegName} {v : Option α} {x : α} {f : α → Result}
    (hv : v = some x) : withReg r v f = f x := by
  rw [hv, withReg_some]

theorem unpackWith_inCall (h : InCall cfg b k s) (hp : s.phase = .unpack) :
    CallMovesOn cfg b k .unpack (unpackWith cfg s) := by
  have hd := h.not_done (by simp [hp])
  have htrace : s.trace = [] := by simpa only [CallProgress, hp] using h.progress
  cases hr : regionsExist cfg (envLength s) with
  | false =>
    rw [unpackWith_eq_raise hr]
    obtain ⟨hres, hreq⟩ := decrypt_of_not_regionsExist k (b := envelope cfg s)
      (by rw [envelope_length]; exact hr)
    exact h.toCallInputs.raise (by simp) hres (hreq.trans htrace.symm)
  | true =>
    have hr' : regionsExist cfg s.envlen.toNat = true := hr
    simp only [unpackWith, hr', if_true]
    exact h.toCallInputs.advance hd (by simp) ⟨⟨hr, rfl, rfl, rfl⟩, htrace⟩ (by decide)

theorem agreeWith_inCall (h : InCall cfg b k s) (hp : s.phase = .agree) :
    CallMovesOn cfg b k .agree (agreeWith cfg s) := by
  have hd := h.not_done (by simp [hp])
  obtain ⟨hregs, htrace⟩ : HasRegions cfg s ∧ s.trace = [] := by
    simpa only [CallProgress, hp] using h.progress
  obtain ⟨hres, hreq⟩ := decrypt_envelope k hregs.regions
  rw [agreeWith, withReg_of_eq_some hregs.epk]
  cases hparse : requestParse cfg (envEpk cfg s).val with
  | none =>
    refine (h.toCallInputs.request _).raise (by simp) (hres.trans ?_) (hreq.trans ?_)
    · simp only [decryptRegions, agreeOf, hparse]
    · simp [regionRequests, hparse, htrace]
  | some p =>
    simp only [withReg_of_eq_some h.key]
    cases hecdh : requestEcdh cfg k p with
    | none =>
      refine (h.toCallInputs.request _).raise (by simp) (hres.trans ?_) (hreq.trans ?_)
      · simp only [decryptRegions, agreeOf, hparse, hecdh]
      · simp [regionRequests, hparse, hecdh, htrace]
    | some z =>
      refine (h.toCallInputs.request _).advance hd (by simp) ?_ (by decide)
      exact ⟨p, z, ⟨hregs.frame rfl rfl rfl, hparse, hecdh, rfl⟩, congrArg (· ++ _) htrace⟩

theorem deriveWith_inCall (h : InCall cfg b k s) (hp : s.phase = .derive) :
    CallMovesOn cfg b k .derive (deriveWith cfg s) := by
  have hd := h.not_done (by simp [hp])
  obtain ⟨p, z, hsec, htrace⟩ : ∃ p z, HasSecret cfg k s p z ∧
      s.trace = agreeRequests cfg k s p := by
    simpa only [CallProgress, hp] using h.progress
  rw [deriveWith, withReg_of_eq_some hsec.epk, withReg_of_eq_some hsec.secret,
    withReg_of_eq_some hsec.ctlen, envCtLen_toNat, kdfRun_requests_envelope]
  refine (h.toCallInputs.request _).advance hd (by simp) ?_ (by decide)
  exact ⟨p, z, hsec.frame rfl rfl rfl rfl, congrArg (· ++ _) htrace, rfl⟩

theorem execSplit_inCall (h : InCall cfg b k s) (hp : s.phase = .split) :
    CallMovesOn cfg b k .split (execSplit s) := by
  have hd := h.not_done (by simp [hp])
  obtain ⟨p, z, hsec, htrace, hkm⟩ : ∃ p z, HasSecret cfg k s p z ∧
      s.trace = keyRequests cfg k s p z ∧
      s.tr.km = some (kdf cfg (seedOf (envEpk cfg s) z).val (envCtLen s + 16)) := by
    simpa only [CallProgress, hp] using h.progress
  have hlen : 16 + envCtLen s ≤
      (kdf cfg (seedOf (envEpk cfg s) z).val (envCtLen s + 16)).length := by
    simp [Nat.add_comm]
  rw [execSplit, withReg_of_eq_some hkm, withReg_of_eq_some hsec.ctlen]
  simp only [envCtLen_toNat, dif_pos hlen]
  refine h.toCallInputs.advance hd (by simp) ?_ (by decide)
  exact ⟨p, z, ⟨hsec.frame rfl rfl rfl rfl, rfl, rfl⟩, htrace⟩

theorem xordecWith_inCall (h : InCall cfg b k s) (hp : s.phase = .xordec) :
    CallMovesOn cfg b k .xordec (xordecWith cfg s) := by
  have hd := h.not_done (by simp [hp])
  obtain ⟨p, z, hkeys, htrace⟩ : ∃ p z, HasKeys cfg k s p z ∧
      s.trace = keyRequests cfg k s p z := by
    simpa only [CallProgress, hp] using h.progress
  rw [xordecWith_eq hkeys.ctlen (envCtLen_toNat s) hkeys.cipherKey
    (ciphertext_inside hkeys.regions)]
  refine h.toCallInputs.advance hd (by simp) ?_ (by decide)
  exact ⟨p, z, hkeys.frame rfl rfl rfl rfl rfl rfl, htrace, rfl⟩

theorem macchkWith_inCall (h : InCall cfg b k s) (hp : s.phase = .macchk) :
    CallMovesOn cfg b k .macchk (macchkWith cfg s) := by
  have hd := h.not_done (by simp [hp])
  obtain ⟨p, z, hkeys, htrace, hpt⟩ : ∃ p z, HasKeys cfg k s p z ∧
      s.trace = keyRequests cfg k s p z ∧
      s.tr.pt = some (applyStream (envCt cfg s) (envCipherKey cfg s z)).val := by
    simpa only [CallProgress, hp] using h.progress
  obtain ⟨hres, hreq⟩ := hkeys.decrypt_eq
  have hin : ctStart + (BitVec.ofNat 32 (envCtLen s)).toNat ≤ cfg.maxEnvLen := by
    rw [envCtLen_toNat]; exact ciphertext_inside hkeys.regions
  have hct : inBytes cfg s ctStart (envCtLen s) = (envCt cfg s).val := rfl
  rw [macchkWith, withReg_of_eq_some hkeys.macKey, withReg_of_eq_some hkeys.ctlen,
    withReg_of_eq_some hkeys.tag, withCiphertext_of_inside hin]
  simp only [inBytesN_val, envCtLen_toNat, hct]
  have hrequests : s.trace ++ [.hmac (envMacKey cfg s z).val (macMessage (envCt cfg s).val)] =
      callRequests cfg (envelope cfg s) k := by rw [hreq, htrace]
  cases hm : tagsMatch (computeTag cfg (envMacKey cfg s z).val (envCt cfg s).val)
      (envTag cfg s) with
  | false =>
    rw [hm] at hres
    exact (h.toCallInputs.request _).advance hd (by simp [phaseAfterCheck])
      ⟨hres, hrequests⟩ (by decide)
  | true =>
    rw [hm] at hres
    refine (h.toCallInputs.request _).advance hd (by simp [phaseAfterCheck]) ?_ (by decide)
    exact ⟨hkeys.toHasRegions.frame rfl rfl rfl,
      applyStream (envCt cfg s) (envCipherKey cfg s z), hpt, hres, hrequests⟩

theorem execDiscard_inCall (h : InCall cfg b k s) (hp : s.phase = .discard) :
    CallMovesOn cfg b k .discard (execDiscard s) := by
  obtain ⟨hres, htrace⟩ : decrypt cfg (envelope cfg s) k = .error .macMismatch ∧
      s.trace = callRequests cfg (envelope cfg s) k := by
    simpa only [CallProgress, hp] using h.progress
  exact h.toCallInputs.raise (by simp) hres htrace.symm

theorem releaseWith_inCall (h : InCall cfg b k s) (hp : s.phase = .release) :
    CallMovesOn cfg b k .release (releaseWith cfg s) := by
  obtain ⟨hregs, pt, hpt, hres, htrace⟩ : HasRegions cfg s ∧ ∃ pt : BytesN (envCtLen s),
      s.tr.pt = some pt.val ∧ decrypt cfg (envelope cfg s) k = .ok pt.val ∧
      s.trace = callRequests cfg (envelope cfg s) k := by
    simpa only [CallProgress, hp] using h.progress
  have hout : (BitVec.ofNat 32 (envCtLen s)).toNat ≤ cfg.outSize := by
    rw [envCtLen_toNat]; exact plaintext_inside hregs.regions
  have hlen : pt.val.length = (BitVec.ofNat 32 (envCtLen s)).toNat := by
    rw [envCtLen_toNat, pt.property]
  rw [releaseWith, withReg_of_eq_some hregs.ctlen, withReg_of_eq_some hpt, withOutRegion,
    if_pos hout, withLength, dif_pos hlen]
  exact h.toCallInputs.endCall (by decide) hlen hres htrace.symm

/-! ### Turns of the sequencer -/

theorem sequencerTurn_movesOn (h : InCall cfg b k s) (hp : s.phase ≠ .idle) :
    CallMovesOn cfg b k s.phase (sequencerTurn (execWith cfg) s) := by
  cases hq : s.phase with
  | idle => exact absurd hq hp
  | unpack => rw [sequencerTurn_unpack hq]; exact unpackWith_inCall h hq
  | agree => rw [sequencerTurn_agree hq]; exact agreeWith_inCall h hq
  | derive => rw [sequencerTurn_derive hq]; exact deriveWith_inCall h hq
  | split => rw [sequencerTurn_split hq]; exact execSplit_inCall h hq
  | xordec => rw [sequencerTurn_xordec hq]; exact xordecWith_inCall h hq
  | macchk => rw [sequencerTurn_macchk hq]; exact macchkWith_inCall h hq
  | discard => rw [sequencerTurn_discard hq]; exact execDiscard_inCall h hq
  | release => rw [sequencerTurn_release hq]; exact releaseWith_inCall h hq

theorem sequencerTurn_agenda (h : sequencerTurn (execWith cfg) s = .next t) :
    t.agenda = s.agenda := by
  obtain rfl | ⟨_, _, _, rfl⟩ | ⟨_, _, rfl⟩ | ⟨_, _, rfl⟩ := sequencerTurn_cases h <;> rfl

/-- A turn of the sequencer takes the call a stage further; once it has ended, the turn waits. -/
theorem sequencerTurn_inCall (h : InCall cfg b k s) :
    ∃ t, sequencerTurn (execWith cfg) s = .next t ∧ InCall cfg b k t ∧ t.agenda = s.agenda ∧
      stagesLeft t.phase ≤ stagesLeft s.phase - 1 := by
  by_cases hp : s.phase = .idle
  · exact ⟨s, sequencerTurn_idle hp, h, rfl, by simp [hp, stagesLeft]⟩
  · obtain ⟨t, ht, hcall, hlt⟩ := sequencerTurn_movesOn h hp
    exact ⟨t, ht, hcall, sequencerTurn_agenda ht, Nat.le_sub_one_of_lt hlt⟩

end Sys2Proof.Machine
end

section
/-! PROOFS. A host script (30 R108): what LOADENV and WRKEY leave in the block, and the call that
START begins on it, run to its end by the sequencer. -/

namespace Sys2Proof.Machine

variable {cfg : Config} {b : Bytes} {k : PrivKey} {s t : State}

/-! ### The stores before START -/

/-- The stores that the block accepts when it is not BUSY: WRENV inside the buffer, WRLEN, WRKEY. -/
inductive IsStore (cfg : Config) : Instr → Prop where
  | wrenv {a : Nat} (ha : a < cfg.maxEnvLen) (v : Byte) : IsStore cfg (.wrenv a v)
  | wrlen (v : Word32) : IsStore cfg (.wrlen v)
  | wrkey (k : PrivKey) : IsStore cfg (.wrkey k)

/-- What such a store leaves. -/
def storeOp (s : State) : Instr → State
  | .wrenv a v => s.putIn a v
  | .wrlen v => s.setEnvlen v
  | .wrkey k => s.loadKey k
  | _ => s

theorem maxEnvLen_lt (cfg : Config) : cfg.maxEnvLen < 2 ^ 32 := by
  have := cfg.capacityAboveMin.isLt
  unfold Config.maxEnvLen
  omega

theorem IsStore.wellFormed {i : Instr} (h : IsStore cfg i) : i.wellFormed = true := by
  cases h with
  | wrenv ha v => exact decide_eq_true (ha.trans (maxEnvLen_lt cfg))
  | wrlen | wrkey => rfl

theorem IsStore.format {i : Instr} (h : IsStore cfg i) : i.format = .host := by
  cases h <;> rfl

theorem execWith_store {i : Instr} (h : IsStore cfg i) (hb : s.busy = false) :
    execWith cfg i s = .next (storeOp s i) := by
  cases h with
  | wrenv ha v => simp [execWith, wrenvWith, storeOp, hb, ha]
  | wrlen v => simp [execWith, execWrlen, storeOp, hb]
  | wrkey k => simp [execWith, execWrkey, storeOp, hb]

@[simp] theorem storeOp_busy (s : State) (i : Instr) : (storeOp s i).busy = s.busy := by
  cases i <;> rfl

@[simp] theorem storeOp_phase (s : State) (i : Instr) : (storeOp s i).phase = s.phase := by
  cases i <;> rfl

theorem storeOp_setAgenda (s : State) (i : Instr) (l : List Turn) :
    storeOp (s.setAgenda l) i = (storeOp s i).setAgenda l := by
  cases i <;> rfl

/-- WRENV after WRENV writes the bytes in address order (00 R15). -/
theorem foldl_storeBytes (s : State) (a : Nat) (bs : Bytes) :
    (storeBytes a bs).foldl storeOp s = { s with inMem := memoryPutAll s.inMem a bs } := by
  induction bs generalizing s a with
  | nil => rfl
  | cons v bs ih => rw [storeBytes, List.foldl_cons, ih]; rfl

theorem isStore_of_mem_storeBytes {a : Nat} {bs : Bytes} (h : a + bs.length ≤ cfg.maxEnvLen) :
    ∀ i ∈ storeBytes a bs, IsStore cfg i := by
  induction bs generalizing a with
  | nil => simp [storeBytes]
  | cons v bs ih =>
    rw [List.length_cons] at h
    simp only [storeBytes, List.forall_mem_cons]
    exact ⟨.wrenv (by omega) v, ih (by omega)⟩

@[simp] theorem storeBytes_length (a : Nat) (bs : Bytes) :
    (storeBytes a bs).length = bs.length := by
  induction bs generalizing a with
  | nil => rfl
  | cons v bs ih => simp [storeBytes, ih]

/-- The operations of DECRYPT before START. -/
def callStores (cfg : Config) (b : Bytes) (k : PrivKey) : List Instr :=
  presentEnv cfg b ++ [.wrkey k]

theorem decryptScript_eq (cfg : Config) (b : Bytes) (k : PrivKey) :
    decryptScript cfg b k = callStores cfg b k ++ [.start 1] := by
  simp [decryptScript, callStores]

theorem isStore_of_mem_callStores : ∀ i ∈ callStores cfg b k, IsStore cfg i := by
  by_cases hfit : b.length ≤ cfg.maxEnvLen
  · have hbytes := isStore_of_mem_storeBytes (cfg := cfg) (a := 0) (bs := b) (by omega)
    simp only [callStores, presentEnv, if_pos hfit, loadEnv, List.forall_mem_append,
      List.forall_mem_singleton]
    exact ⟨⟨hbytes, .wrlen _⟩, .wrkey k⟩
  · simp only [callStores, presentEnv, if_neg hfit, List.forall_mem_append,
      List.forall_mem_singleton]
    exact ⟨.wrlen _, .wrkey k⟩

theorem callStores_length_le (cfg : Config) (b : Bytes) (k : PrivKey) :
    (callStores cfg b k).length ≤ b.length + 2 := by
  unfold callStores presentEnv
  split <;> simp [loadEnv]

/-- What an envelope writes into the IN space: all of it where it fits the buffer, else nothing. -/
def storedBytes (cfg : Config) (b : Bytes) : Bytes := if b.length ≤ cfg.maxEnvLen then b else []

/-- The block with the envelope and the key presented. -/
def presented (cfg : Config) (b : Bytes) (k : PrivKey) (s : State) : State :=
  { s with
    inMem := memoryPutAll s.inMem 0 (storedBytes cfg b)
    envlen := BitVec.ofNat 32 b.length
    sk := some k
    keyv := true }

theorem foldl_callStores (cfg : Config) (b : Bytes) (k : PrivKey) (s : State) :
    (callStores cfg b k).foldl storeOp s = presented cfg b k s := by
  by_cases hfit : b.length ≤ cfg.maxEnvLen
  · simp only [callStores, presentEnv, if_pos hfit, loadEnv, List.foldl_append, foldl_storeBytes,
      presented, storedBytes]
    rfl
  · simp only [callStores, presentEnv, if_neg hfit, presented, storedBytes]
    rfl

/-! ### The call that START begins -/

/-- ENVLEN is the length of the envelope, whether it fits the buffer or not. -/
theorem envLength_presented (s : State) (hb : b.length < 2 ^ 32) :
    envLength (presented cfg b k s) = b.length := by
  simp only [envLength, presented, BitVec.toNat_ofNat, Nat.mod_eq_of_lt hb]

/-- An envelope that fits the buffer is read back as it was written. -/
theorem envelope_presented (hb : b.length < 2 ^ 32) (hfit : b.length ≤ cfg.maxEnvLen) :
    envelope cfg (presented cfg b k s) = b := by
  refine List.ext_getElem (by simp [envLength_presented s hb]) fun a _ ha => ?_
  simp [envelope, inBytes, inByte, presented, storedBytes, hfit, memoryFind_memoryPutAll, ha]

/-- A START on what was presented begins the call on it. -/
theorem inCall_startCall (s : State) (hb : b.length < 2 ^ 32) :
    InCall cfg b k (presented cfg b k s).startCall := by
  obtain ⟨hres, hreq⟩ : decrypt cfg (envelope cfg (presented cfg b k s)) k = decrypt cfg b k ∧
      callRequests cfg (envelope cfg (presented cfg b k s)) k = callRequests cfg b k := by
    by_cases hfit : b.length ≤ cfg.maxEnvLen
    · simp only [envelope_presented hb hfit, and_self]
    · have hlong : regionsExist cfg b.length = false :=
        (regionsExist_false_iff cfg b.length).mpr (.inr (Nat.lt_of_not_le hfit))
      have hlong' : regionsExist cfg (envelope cfg (presented cfg b k s)).length = false := by
        rw [envelope_length, envLength_presented s hb, hlong]
      obtain ⟨hres, hreq⟩ := decrypt_of_not_regionsExist k hlong
      obtain ⟨hres', hreq'⟩ := decrypt_of_not_regionsExist k hlong'
      exact ⟨hres'.trans hres.symm, hreq'.trans hreq.symm⟩
  exact ⟨⟨rfl, hres, hreq⟩, by simp, rfl⟩

theorem execWith_start_presented (hb : s.busy = false) :
    execWith cfg (.start 1) (presented cfg b k s) = .next (presented cfg b k s).startCall := by
  have hacc : startAccepted 1 (presented cfg b k s) = true :=
    (startAccepted_iff _ _).mpr ⟨rfl, hb, rfl⟩
  simp only [execWith, execStart, hacc, if_true]

/-! ### Runs of the machine over an agenda -/

/-- A host operation that is well-formed reaches the block as an access that decodes to it. -/
theorem exists_access {i : Instr} (hi : i.format = .host) (hw : i.wellFormed = true) :
    ∃ a, encode i = .host a ∧ decode (.host a) = .op i := by
  have hdec := decodeOfEncodeIsTheOperation i hw
  cases henc : encode i with
  | host a => exact ⟨a, rfl, henc ▸ hdec⟩
  | stage code =>
    obtain ⟨hstage, -⟩ := encode_of_decode_stage (henc ▸ hdec)
    rw [hi] at hstage
    cases hstage

/-- The turn of a well-formed host operation executes it. -/
theorem stepWith_hostOp {i : Instr} (hi : i.format = .host) (hw : i.wellFormed = true)
    (s : State) (rest : List Turn) :
    stepWith cfg (s.setAgenda (turnOf i :: rest)) = execWith cfg i (s.setAgenda rest) := by
  obtain ⟨a, henc, hdec⟩ := exists_access hi hw
  have hag : (s.setAgenda (turnOf i :: rest)).agenda = .host a :: rest := by
    rw [State.setAgenda_agenda, turnOf, henc]
  rw [stepWith, takeTurn_host hag, hostTurn, hdec]
  rfl

theorem runWith_succ {n : Nat} (h : stepWith cfg s = .next t) :
    runWith cfg (n + 1) s = runWith cfg n t := by
  simp only [runWith, h]

/-- A script of stores at the head of the agenda is performed store by store. -/
theorem runWith_stores {ops : List Instr} (hops : ∀ i ∈ ops, IsStore cfg i) (hb : s.busy = false)
    (rest : List Turn) (n : Nat) :
    runWith cfg (ops.length + n) (s.setAgenda (script ops ++ rest)) =
      runWith cfg n ((ops.foldl storeOp s).setAgenda rest) := by
  induction ops generalizing s with
  | nil => simp [script]
  | cons i is ih =>
    obtain ⟨hi, his⟩ := List.forall_mem_cons.mp hops
    have hstep : stepWith cfg (s.setAgenda (script (i :: is) ++ rest)) =
        .next ((storeOp s i).setAgenda (script is ++ rest)) := by
      rw [← storeOp_setAgenda, ← execWith_store hi (by exact hb)]
      exact stepWith_hostOp hi.format hi.wellFormed s _
    rw [List.length_cons, Nat.add_right_comm, runWith_succ hstep]
    exact ih his (by rw [storeOp_busy, hb])

/-- With nothing on the agenda the sequencer has every turn. -/
theorem runWith_inCall (h : InCall cfg b k s) (hag : s.agenda = []) (n : Nat) :
    ∃ t, runWith cfg n s = .next t ∧ InCall cfg b k t ∧
      stagesLeft t.phase ≤ stagesLeft s.phase - n := by
  induction n generalizing s with
  | zero => exact ⟨s, rfl, h, le_rfl⟩
  | succ n ih =>
    obtain ⟨m, hm, hcall, hmag, hleft⟩ := sequencerTurn_inCall h
    have hstep : stepWith cfg s = .next m := (takeTurn_nil hag).trans hm
    obtain ⟨t, ht, hend, hlt⟩ := ih hcall (hmag.trans hag)
    exact ⟨t, (runWith_succ hstep).trans ht, hend, by omega⟩

/-- A call ends within the turns it has left. -/
theorem runWith_inCall_ends (h : InCall cfg b k s) (hag : s.agenda = []) {n : Nat}
    (hn : stagesLeft s.phase ≤ n) :
    ∃ t, runWith cfg n s = .next t ∧ InCall cfg b k t ∧ t.phase = .idle := by
  obtain ⟨t, ht, hcall, hleft⟩ := runWith_inCall h hag n
  exact ⟨t, ht, hcall, stagesLeft_eq_zero_iff.mp (by omega)⟩

/-- Settles O50: the stores leave the envelope and the key in the block, START begins the call on
them, and there are seven turns of the sequencer left for it. -/
theorem loadedEnvelopeIsDecrypted : Obligations.LoadedEnvelopeIsDecrypted := by
  intro s b k hb hlen
  have hcount := callStores_length_le Config.chip b k
  obtain ⟨n, hn⟩ : ∃ n, b.length + 10 = (callStores Config.chip b k).length + (n + 7 + 1) :=
    ⟨b.length + 2 - (callStores Config.chip b k).length, by omega⟩
  have hstart : stepWith Config.chip ((presented Config.chip b k s).setAgenda (script [.start 1])) =
      .next (presented Config.chip b k (s.setAgenda [])).startCall :=
    (stepWith_hostOp rfl rfl _ []).trans (execWith_start_presented (s := s.setAgenda []) hb)
  obtain ⟨t, ht, hcall, hidle⟩ :=
    runWith_inCall_ends (inCall_startCall (s.setAgenda []) hlen) rfl (Nat.le_add_left 7 n)
  have hrun := calc
    runWith Config.chip (b.length + 10)
        (s.setAgenda (script (callStores Config.chip b k) ++ script [.start 1]))
      = runWith Config.chip (n + 7 + 1)
          ((presented Config.chip b k s).setAgenda (script [.start 1])) := by
        rw [hn, runWith_stores isStore_of_mem_callStores hb, foldl_callStores]
    _ = runWith Config.chip (n + 7) (presented Config.chip b k (s.setAgenda [])).startCall :=
        runWith_succ hstart
    _ = .next t := ht
  refine ⟨t, ?_, ?_, ?_⟩
  · rw [core_run_eq_runWith_chip, decryptScript_eq, script, List.map_append]
    exact hrun
  · rw [(hcall.ended hidle).result, hcall.decrypts]
  · rw [(hcall.ended hidle).requests, hcall.asks]

end Sys2Proof.Machine
end

section
/-! PROOFS. The pseudo-operation DECRYPT as a run of the host against the block (30 R108, log 31):
each of its parts takes a known number of the schedule's entries, and WAIT takes no more polls than
the sequencer needs for its seven stages. -/

namespace Sys2Proof.Machine

variable {cfg : Config} {b : Bytes} {k : PrivKey} {s t : State} {sched : Schedule}

/-! ### How a run of the host uses the schedule -/

/-- The run ends after exactly `n` entries of the schedule, with a result and a state that satisfy
`P`; or the schedule has fewer than `n` entries, and the run is left pending. It does not stop. -/
def HostRun.Takes {α : Type} (x : HostRun α) (sched : Schedule) (n : Nat)
    (P : α → State → Prop) : Prop :=
  (sched.length < n ∧ ∃ t, x = .pending t) ∨
    (n ≤ sched.length ∧ ∃ r t, x = .returned r (sched.drop n) t ∧ P r t)

theorem HostRun.takes_returned {α : Type} {P : α → State → Prop} {r : α} (h : P r t) :
    (HostRun.returned r sched t).Takes sched 0 P :=
  .inr ⟨Nat.zero_le _, r, t, rfl, h⟩

/-- Runs one after the other take their entries one after the other. -/
theorem HostRun.Takes.andThen {α β : Type} {x : HostRun α} {f : α → Schedule → State → HostRun β}
    {l m : Nat} {P : α → State → Prop} {Q : β → State → Prop} (n : Nat) (hl : l = m + n)
    (hx : x.Takes sched m P)
    (hf : ∀ r t, P r t → (f r (sched.drop m) t).Takes (sched.drop m) n Q) :
    (x.andThen f).Takes sched l Q := by
  subst hl
  obtain ⟨hlt, t, rfl⟩ | ⟨hle, r, t, rfl, hp⟩ := hx
  · exact .inl ⟨by omega, t, rfl⟩
  · rw [HostRun.andThen_returned]
    obtain ⟨hlt, u, hu⟩ | ⟨hle', r', u, hu, hq⟩ := hf r t hp
    · exact .inl ⟨by rw [List.length_drop] at hlt; omega, u, hu⟩
    · rw [List.length_drop] at hle'
      exact .inr ⟨by omega, r', u, by rw [hu, List.drop_drop], hq⟩

theorem HostRun.Takes.imp {α : Type} {x : HostRun α} {n : Nat} {P Q : α → State → Prop}
    (hx : x.Takes sched n P) (hpq : ∀ r t, P r t → Q r t) : x.Takes sched n Q := by
  obtain hpend | ⟨hle, r, t, hr, hp⟩ := hx
  · exact .inl hpend
  · exact .inr ⟨hle, r, t, hr, hpq r t hp⟩

theorem HostRun.Takes.returned {α : Type} {x : HostRun α} {n : Nat} {P : α → State → Prop}
    (hx : x.Takes sched n P) (hn : n ≤ sched.length) :
    ∃ r later t, x = .returned r later t ∧ P r t := by
  obtain ⟨hlt, -⟩ | ⟨-, r, t, hr, hp⟩ := hx
  · omega
  · exact ⟨r, _, t, hr, hp⟩

/-- Only the sequencer takes turns between the host's operations. -/
def SequencerOnly (sched : Schedule) : Prop := ∀ gap ∈ sched, ∀ u ∈ gap, u = Turn.sequencer

theorem SequencerOnly.drop (h : SequencerOnly sched) (n : Nat) : SequencerOnly (sched.drop n) :=
  fun gap hgap => h gap (List.mem_of_mem_drop hgap)

/-! ### One operation of the host -/

/-- A host operation takes one entry: the sequencer's turns, then its own. -/
theorem issue_takes {i : Instr} {P : HostAnswer → State → Prop}
    (h : ∀ gap ∈ sched, ∃ t, takeTurns cfg (gap ++ [turnOf i]) s = .next t ∧ P t.answer t) :
    (issue cfg i sched s).Takes sched 1 P := by
  cases sched with
  | nil => exact .inl ⟨Nat.zero_lt_one, s, rfl⟩
  | cons gap later =>
    obtain ⟨t, ht, hp⟩ := h gap List.mem_cons_self
    exact .inr ⟨Nat.le_add_left 1 _, t.answer, t, issue_cons ht, hp⟩

theorem takeTurns_hostOp {i : Instr} (hi : i.format = .host) (hw : i.wellFormed = true) :
    takeTurns cfg [turnOf i] s = execWith cfg i s := by
  obtain ⟨a, henc, hdec⟩ := exists_access hi hw
  exact takeTurns_op henc hdec

/-- At PHASE 0 the sequencer's turns before the operation do nothing. -/
theorem issue_takes_idle {i : Instr} (hi : i.format = .host) (hw : i.wellFormed = true)
    (hp : s.phase = .idle) (hg : SequencerOnly sched) (hx : execWith cfg i s = .next t) :
    (issue cfg i sched s).Takes sched 1 fun v u => v = t.answer ∧ u = t := by
  refine issue_takes fun gap hgap => ⟨t, ?_, rfl, rfl⟩
  rw [takeTurns_append (takeTurns_idle hp (hg gap hgap)), takeTurns_hostOp hi hw, hx]

/-! ### The operations before WAIT -/

/-- The operations of a list, one after another. -/
theorem issueAll_append (xs ys : List Instr) (sched : Schedule) (s : State) :
    issueAll cfg (xs ++ ys) sched s =
      (issueAll cfg xs sched s).andThen fun _ later t => issueAll cfg ys later t := by
  induction xs generalizing sched s with
  | nil => rfl
  | cons i is ih =>
    simp only [List.cons_append, issueAll]
    cases issue cfg i sched s with
    | returned v later t => exact ih later t
    | pending | faulted | refused => rfl

/-- Stores at PHASE 0 are performed whatever turns of the sequencer fall between them. -/
theorem issueAll_stores_takes {ops : List Instr} (hops : ∀ i ∈ ops, IsStore cfg i)
    (hb : s.busy = false) (hp : s.phase = .idle) (hg : SequencerOnly sched) :
    (issueAll cfg ops sched s).Takes sched ops.length fun _ t => t = ops.foldl storeOp s := by
  induction ops generalizing s sched with
  | nil => exact HostRun.takes_returned rfl
  | cons i is ih =>
    obtain ⟨hi, his⟩ := List.forall_mem_cons.mp hops
    refine .andThen is.length (by rw [List.length_cons, Nat.add_comm])
      (issue_takes_idle hi.format hi.wellFormed hp hg (execWith_store hi hb)) ?_
    rintro _ _ ⟨-, rfl⟩
    exact ih his (by rw [storeOp_busy, hb]) (by rw [storeOp_phase, hp]) (hg.drop 1)

/-- Up to WAIT: the call on what was presented has begun. -/
theorem issueAll_decryptScript_takes (hb : s.busy = false) (hp : s.phase = .idle)
    (hg : SequencerOnly sched) :
    (issueAll cfg (decryptScript cfg b k) sched s).Takes sched (decryptScript cfg b k).length
      fun _ t => t = (presented cfg b k s).startCall := by
  rw [decryptScript_eq, issueAll_append, List.length_append]
  refine .andThen 1 rfl (issueAll_stores_takes isStore_of_mem_callStores hb hp hg) ?_
  rintro _ _ rfl
  rw [foldl_callStores]
  refine .andThen 0 rfl (issue_takes_idle (s := presented cfg b k s) rfl rfl hp (hg.drop _)
    (execWith_start_presented hb)) ?_
  rintro _ _ ⟨-, rfl⟩
  exact HostRun.takes_returned rfl

/-! ### WAIT -/

/-- Turns of the sequencer take the call on, one stage each, until it has ended. -/
theorem takeTurns_inCall {gap : List Turn} (h : InCall cfg b k s)
    (hg : ∀ u ∈ gap, u = Turn.sequencer) :
    ∃ t, takeTurns cfg gap s = .next t ∧ InCall cfg b k t ∧ t.agenda = s.agenda ∧
      stagesLeft t.phase ≤ stagesLeft s.phase - gap.length := by
  induction gap generalizing s with
  | nil => exact ⟨s, rfl, h, rfl, le_rfl⟩
  | cons u us ih =>
    obtain ⟨rfl, hus⟩ := List.forall_mem_cons.mp hg
    obtain ⟨m, hm, hcall, hmag, hleft⟩ := sequencerTurn_inCall h
    obtain ⟨t, ht, hend, htag, hlt⟩ := ih hcall hus
    have hone : takeTurns cfg [.sequencer] s = .next m := takeTurns_sequencer.trans hm
    refine ⟨t, (takeTurns_append (vs := us) hone).trans ht, hend, htag.trans hmag, ?_⟩
    rw [List.length_cons]
    omega

/-- One poll of WAIT: the turns before it take the call on, and it reads STATUS of what they
left. -/
theorem takeTurns_poll {gap : List Turn} (h : InCall cfg b k s)
    (hg : ∀ u ∈ gap, u = Turn.sequencer) :
    ∃ t, takeTurns cfg (gap ++ [turnOf .rdstatus]) s = .next t ∧ InCall cfg b k t ∧
      t.agenda = s.agenda ∧ stagesLeft t.phase ≤ stagesLeft s.phase - gap.length ∧
      wordDone (answerWord t.answer) = t.done := by
  obtain ⟨t, ht, hcall, hag, hleft⟩ := takeTurns_inCall h hg
  refine ⟨t.setAnswer (.word (statusWord t)), ?_, hcall.setAnswer _, hag, hleft,
    wordDone_statusWord t⟩
  rw [takeTurns_append ht, takeTurns_hostOp rfl rfl]
  rfl

/-- WAIT ends with the call, after a number of polls that is at most any number before which the
sequencer has had its turns. -/
theorem waitDone_takes (h : InCall cfg b k s) (hg : SequencerOnly sched) :
    ∃ m, (waitDone cfg sched s).Takes sched m
        (fun _ t => InCall cfg b k t ∧ t.phase = .idle ∧ t.agenda = s.agenda) ∧
      ∀ n, 1 ≤ n → stagesLeft s.phase ≤ (sched.take n).flatten.length → m ≤ n := by
  induction sched generalizing s with
  | nil => exact ⟨1, .inl ⟨Nat.zero_lt_one, s, rfl⟩, fun n hn _ => hn⟩
  | cons gap later ih =>
    obtain ⟨hgap, hlater⟩ := List.forall_mem_cons.mp hg
    obtain ⟨u, hu, hcall, hag, hleft, hdone⟩ := takeTurns_poll h hgap
    have hwait : waitDone cfg (gap :: later) s =
        if u.done then .returned () later u else waitDone cfg later u := by
      rw [waitDone, issue_cons hu, HostRun.andThen_returned, hdone]
    cases hd : u.done with
    | true =>
      rw [hd, if_pos rfl] at hwait
      refine ⟨1, .inr ⟨by simp, (), u, hwait, hcall, hcall.done_iff.mp hd, hag⟩, fun n hn _ => hn⟩
    | false =>
      have hpos : 0 < stagesLeft u.phase :=
        stagesLeft_pos fun hidle => by simp [hcall.done_iff.mpr hidle] at hd
      rw [hd, if_neg Bool.false_ne_true] at hwait
      obtain ⟨m, htakes, hmin⟩ := ih hcall hlater
      refine ⟨m + 1, ?_, fun n hn henough => ?_⟩
      · rw [hwait]
        obtain ⟨hlt, hpend⟩ | ⟨hle, r, t, hr, hc, hidle, htag⟩ := htakes
        · exact .inl ⟨by simpa using hlt, hpend⟩
        · exact .inr ⟨by simpa using hle, r, t, hr, hc, hidle, htag.trans hag⟩
      · obtain ⟨n, rfl⟩ := Nat.exists_eq_succ_of_ne_zero (Nat.ne_of_gt hn)
        rw [Nat.succ_eq_add_one, List.take_succ_cons, List.flatten_cons, List.length_append]
          at henough
        have hn1 : 1 ≤ n := by
          by_contra hzero
          obtain rfl : n = 0 := by omega
          simp at henough
          omega
        exact Nat.succ_le_succ (hmin n hn1 (by omega))

/-! ### READOUT and the result -/

/-- A byte of OUT as the host reads it (45 R198). -/
def gatedByte (cfg : Config) (s : State) (a : Nat) : Byte :=
  if outReadable s a then outByte cfg s a else 0

theorem answerByte_byte (v : Byte) : answerByte (.byte v) = v := by
  simp [answerByte, answerWord]

/-- RDOUT, again and again: the bytes come back in address order, and only the last answer of the
block has changed. -/
theorem readBytes_takes {a m : Nat} (hp : s.phase = .idle) (hm : a + m ≤ 2 ^ 32)
    (hg : SequencerOnly sched) :
    (readBytes cfg a m sched s).Takes sched m fun p t =>
      p = (List.range m).map (fun i => gatedByte cfg s (a + i)) ∧ ∃ v, t = s.setAnswer v := by
  induction m generalizing a s sched with
  | zero => exact HostRun.takes_returned ⟨rfl, s.answer, rfl⟩
  | succ m ih =>
    have hread : execWith cfg (.rdout a) s =
        .next (s.setAnswer (.byte (gatedByte cfg s a))) := rfl
    have hw : (Instr.rdout a).wellFormed = true := decide_eq_true (by omega)
    refine .andThen m (Nat.add_comm m 1) (issue_takes_idle rfl hw hp hg hread) ?_
    rintro _ _ ⟨rfl, rfl⟩
    refine .andThen 0 rfl (ih (a := a + 1) hp (by omega) (hg.drop 1)) ?_
    rintro _ _ ⟨rfl, v, rfl⟩
    refine HostRun.takes_returned ⟨?_, v, rfl⟩
    rw [List.range_succ_eq_map, List.map_cons, List.map_map]
    refine congrArg₂ List.cons (answerByte_byte _) (List.map_congr_left fun i _ => ?_)
    simp only [Function.comp_apply, Nat.succ_eq_add_one]
    rw [Nat.add_right_comm, Nat.add_assoc]
    rfl

/-- READOUT returns what RDOUTLEN says is readable (30 R98). -/
theorem readOut_takes (hp : s.phase = .idle) (hg : SequencerOnly sched) :
    (readOut cfg sched s).Takes sched (1 + s.outlen.toNat) fun p t =>
      p = releasedBytes cfg s ∧ ∃ v, t = s.setAnswer v := by
  have hread : execWith cfg .rdoutlen s = .next (s.setAnswer (.word s.outlen)) := rfl
  refine .andThen s.outlen.toNat rfl (issue_takes_idle rfl rfl hp hg hread) ?_
  rintro _ _ ⟨rfl, rfl⟩
  have hlt : 0 + s.outlen.toNat ≤ 2 ^ 32 := by rw [Nat.zero_add]; exact s.outlen.isLt.le
  have hbytes := readBytes_takes (cfg := cfg) (s := s.setAnswer (.word s.outlen)) hp hlt (hg.drop 1)
  refine hbytes.imp ?_
  rintro p t ⟨rfl, v, rfl⟩
  exact ⟨by simp only [Nat.zero_add]; rfl, v, rfl⟩

/-- The entries of the schedule that the host needs after WAIT for a result. -/
def collectTurns : Except ErrKind Bytes → Nat
  | .error _ => 1
  | .ok p => 2 + p.length

theorem errCode_some_ne_zero (e : ErrKind) : errCode (some e) ≠ 0 := by
  cases e <;> decide

theorem releasedBytes_length (cfg : Config) (s : State) :
    (releasedBytes cfg s).length = s.outlen.toNat := by
  simp [releasedBytes]

/-- After WAIT the host returns the result that stands in the block. -/
theorem collect_takes {r : Except ErrKind Bytes} (hp : s.phase = .idle)
    (hr : callResult cfg s = some r) (hg : SequencerOnly sched) :
    (collect cfg sched s).Takes sched (collectTurns r) fun x t =>
      x = hostResult r ∧ ∃ v, t = s.setAnswer v := by
  have hread : execWith cfg .rdstatus s = .next (s.setAnswer (.word (statusWord s))) := rfl
  have herr : wordErr (answerWord (.word (statusWord s))) = errCode s.err := wordErr_statusWord s
  have hstatus := issue_takes_idle rfl rfl hp hg hread
  unfold callResult at hr
  split at hr
  · cases he : s.err with
    | some e =>
      rw [he] at hr herr
      cases hr
      refine .andThen 0 rfl hstatus ?_
      rintro _ _ ⟨rfl, rfl⟩
      rw [State.setAnswer_answer, herr, if_neg (errCode_some_ne_zero e)]
      exact HostRun.takes_returned ⟨rfl, _, rfl⟩
    | none =>
      rw [he] at hr herr
      cases hr
      refine .andThen (1 + s.outlen.toNat) ?_ hstatus ?_
      · rw [collectTurns, releasedBytes_length]; omega
      · rintro _ _ ⟨rfl, rfl⟩
        rw [State.setAnswer_answer, herr, if_pos (show errCode none = 0 from rfl)]
        refine .andThen 0 rfl (readOut_takes hp (hg.drop 1)) ?_
        rintro _ _ ⟨rfl, v, rfl⟩
        exact HostRun.takes_returned ⟨rfl, v, rfl⟩
  · cases hr

/-! ### DECRYPT -/

/-- A plaintext is as long as the ciphertext. -/
theorem decryptRegions_ok_length {epk ct tag p : Bytes}
    (h : decryptRegions cfg epk ct tag k = .ok p) : p.length = ct.length := by
  unfold decryptRegions at h
  split at h
  · cases h
  · rename_i z _
    unfold openEnvelope at h
    split at h
    · cases h
      exact (applyStream ⟨ct, rfl⟩ (cipherKey cfg epk z.val ct)).property
    · cases h

theorem decrypt_ok_length {p : Bytes} (h : decrypt cfg b k = .ok p) : p.length = b.length - 97 := by
  cases hr : regionsExist cfg b.length with
  | false =>
    obtain ⟨herr, -⟩ := decrypt_of_not_regionsExist k hr
    cases herr.symm.trans h
  | true =>
    obtain ⟨hmin, hmax⟩ := (regionsExist_iff cfg b.length).mp hr
    simp only [decrypt, unpackOf, if_pos hmax, if_neg (Nat.not_lt.mpr hmin)] at h
    rw [decryptRegions_ok_length h, sliceBytes_length b (Nat.sub_le _ _)]
    omega

theorem collectTurns_decrypt_le (cfg : Config) (b : Bytes) (k : PrivKey) :
    collectTurns (decrypt cfg b k) ≤ 2 + (b.length - 97) := by
  cases h : decrypt cfg b k with
  | error e => simp only [collectTurns]; omega
  | ok p => rw [collectTurns, decrypt_ok_length h]

/-- The whole of DECRYPT: the operations up to START, as many polls as WAIT needs, and the
result. -/
theorem decryptCall_takes (hp : s.phase = .idle) (hb : s.busy = false) (hlen : b.length < 2 ^ 32)
    (hg : SequencerOnly sched) :
    ∃ m, (decryptCall cfg b k sched s).Takes sched
        ((decryptScript cfg b k).length + (m + collectTurns (decrypt cfg b k)))
        (fun r t => r = hostResult (decrypt cfg b k) ∧
          callResult cfg t = some (decrypt cfg b k) ∧ t.trace = callRequests cfg b k ∧
          t.agenda = s.agenda) ∧
      ∀ n, 1 ≤ n →
        7 ≤ ((sched.drop (decryptScript cfg b k).length).take n).flatten.length → m ≤ n := by
  have hrest := hg.drop (decryptScript cfg b k).length
  obtain ⟨m, hwait, hmin⟩ := waitDone_takes (inCall_startCall (cfg := cfg) (k := k) s hlen) hrest
  refine ⟨m, ?_, hmin⟩
  refine .andThen _ rfl (issueAll_decryptScript_takes hb hp hg) ?_
  rintro _ _ rfl
  refine .andThen _ rfl hwait ?_
  rintro _ t ⟨hcall, hidle, hag⟩
  have hres : callResult cfg t = some (decrypt cfg b k) := by
    rw [(hcall.ended hidle).result, hcall.decrypts]
  have hreq : t.trace = callRequests cfg b k := by
    rw [(hcall.ended hidle).requests, hcall.asks]
  refine (collect_takes hidle hres (hrest.drop m)).imp ?_
  rintro _ _ ⟨rfl, v, rfl⟩
  exact ⟨rfl, hres, hreq, hag⟩

/-- Settles O60: the run takes a known number of the schedule's entries and cannot stop; where the
schedule has them all, it returns. -/
theorem decryptPseudoOperationReturnsDecrypt :
    Obligations.DecryptPseudoOperationReturnsDecrypt := by
  intro cfg s b k sched hp hb hlen hg
  obtain ⟨m, hrun, hmin⟩ := decryptCall_takes (cfg := cfg) (k := k) hp hb hlen hg
  refine ⟨?_, fun n henough hsched => ?_⟩
  · obtain ⟨-, hpend⟩ | ⟨-, r, t, hr, rfl, hrest⟩ := hrun
    · exact .inl hpend
    · exact .inr ⟨_, t, hr, hrest⟩
  · have hn : 1 ≤ n := by
      by_contra hzero
      obtain rfl : n = 0 := by omega
      simp at henough
    have hm := hmin n hn henough
    have hturns := collectTurns_decrypt_le cfg b k
    obtain ⟨r, later, t, hr, rfl, -⟩ := hrun.returned (by omega)
    exact ⟨later, t, hr⟩

end Sys2Proof.Machine
end

section
/-! PROOFS. The envelope buffer and its unpacking (file 40): what WRENV stores and what it ignores
(R124), and the regions that UNPACK slices by the length alone (R121, R122). -/

namespace Sys2Proof.Machine

variable {cfg : Config} {s t : State}

/-! ### WRENV -/

/-- At or beyond MAX_ENV_LEN a write is ignored, BUSY or not (40 R124). -/
theorem execWith_wrenv_of_outside {a : Nat} (ha : cfg.maxEnvLen ≤ a) (v : Byte) :
    execWith cfg (.wrenv a v) s = .next s := by
  simp [execWith, wrenvWith, Nat.not_lt.mpr ha]

/-- Settles O17: an accepted write is one `putIn`, which `inByte` reads back at its address alone;
the two reasons to ignore it have a lemma each. -/
theorem wrenvStoresOneByte : Obligations.WrenvStoresOneByte := by
  refine ⟨fun a hword => ⟨_, decode_of_hostWord .wrenv hword⟩, fun a v s hb ha => ?_,
    fun a v s hignored => ?_⟩
  · refine ⟨memoryPut s.inMem a v, execWith_store (.wrenv ha v) hb, ?_, fun b hba => ?_⟩
    · exact (inByte_putIn Config.chip s a v a).trans (if_pos rfl)
    · exact (inByte_putIn Config.chip s a v b).trans (if_neg hba)
  · obtain hb | ha := hignored
    · exact execWith_wrenv_of_busy hb a v
    · exact execWith_wrenv_of_outside ha v

/-! ### The regions that UNPACK slices -/

/-- The transient registers after UNPACK of any state: the three it writes, the others as before. -/
def sliced (cfg : Config) (s : State) : Transients :=
  { s.tr with
    epk := some (envEpk cfg s)
    ctlen := some (BitVec.ofNat 32 (envCtLen s))
    tag := some (envTag cfg s) }

theorem unpackWith_eq_advance_sliced (hr : regionsExist cfg (envLength s) = true) :
    unpackWith cfg s = .next (s.advance .agree (sliced cfg s)) :=
  if_pos hr

/-- UNPACK goes on to AGREE only where the regions exist. -/
theorem unpackWith_agree (h : unpackWith cfg s = .next t) (hp : t.phase = .agree) :
    regionsExist cfg (envLength s) = true ∧ t = s.advance .agree (sliced cfg s) := by
  obtain ⟨hr, rfl⟩ | ⟨-, rfl⟩ := unpackWith_next h
  · exact ⟨hr, rfl⟩
  · cases hp

theorem envEpk_getElem? {i : Nat} (hi : i < 65) :
    (envEpk cfg s).val[i]? = some (inByte cfg s i) := by
  simpa [envEpk] using inBytes_getElem? cfg s 0 hi

theorem envTag_getElem? {i : Nat} (hi : i < 32) :
    (envTag cfg s).val[i]? = some (inByte cfg s (envLength s - 32 + i)) :=
  inBytes_getElem? cfg s (tagStart (envLength s)) hi

/-- The lengths of the three regions add up to the envelope's (40 R122). -/
theorem regions_length (h : 97 ≤ envLength s) : 65 + envCtLen s + 32 = envLength s := by
  unfold envCtLen ciphertextLength
  omega

/-- The three regions, one after the other, are the envelope (40 R122). -/
theorem regions_append (h : 97 ≤ envLength s) :
    (envEpk cfg s).val ++ (envCt cfg s).val ++ (envTag cfg s).val = envelope cfg s := by
  have hlen := regions_length h
  have htag : tagStart (envLength s) = 0 + (65 + envCtLen s) := by
    unfold tagStart
    omega
  have hct : ctStart = 0 + 65 := rfl
  simp only [envEpk, envCt, envTag, envelope, inBytesN_val]
  rw [hct, htag, inBytes_append, inBytes_append, hlen]

/-- Settles O25: R121's condition is that the regions exist, and on either side of it UNPACK is one
equation. -/
theorem unpackSlicesTheEnvelope : Obligations.UnpackSlicesTheEnvelope := by
  refine ⟨rfl, fun s hmin hmax => ?_, fun s hlen => ?_⟩
  · have hr := (regionsExist_iff Config.chip (envLength s)).mpr ⟨hmin, hmax⟩
    exact ⟨envEpk Config.chip s, BitVec.ofNat 32 (envCtLen s), envTag Config.chip s,
      unpackWith_eq_advance_sliced hr, fun _ => envEpk_getElem?, envCtLen_toNat s,
      fun _ => envTag_getElem?⟩
  · exact unpackWith_eq_raise ((regionsExist_false_iff Config.chip (envLength s)).mpr hlen)

/-- Settles O26: a successful UNPACK leaves the three regions of the envelope, which join to the
whole, and the ciphertext is read in a buffer that it left as it was. -/
theorem unpackedRegionsCoverTheEnvelope : Obligations.UnpackedRegionsCoverTheEnvelope := by
  intro s t h hp
  obtain ⟨hr, rfl⟩ := unpackWith_agree h hp
  obtain ⟨hmin, -⟩ := (regionsExist_iff Config.chip (envLength s)).mp hr
  refine ⟨envEpk Config.chip s, BitVec.ofNat 32 (envCtLen s), envTag Config.chip s, rfl, rfl, rfl,
    (envEpk Config.chip s).property, (envTag Config.chip s).property, ?_⟩
  rw [envCtLen_toNat]
  exact ⟨rfl, regions_length hmin, inBytes_length .., regions_append hmin⟩

end Sys2Proof.Machine
end

section
/-! PROOFS. The key agreement (file 41): each of AGREE's three outcomes is one equation (R133), and
a wrong tag byte is Invalid whatever the delegate (30 R105). -/

namespace Sys2Proof.Machine

variable {cfg : Config} {s : State} {epk : BytesN 65} {k : PrivKey} {p : Point} {z : BytesN 32}

/-- The tag byte is looked at before the delegate is asked (30 R105, 41 R131). -/
theorem requestParse_of_head?_ne {b : Bytes} (hb : b.head? ≠ some 0x04#8) :
    requestParse cfg b = none := by
  cases hparse : requestParse cfg b with
  | none => rfl
  | some p =>
    obtain ⟨-, htag, -⟩ := requestParse_some hparse
    exact absurd htag hb

/-- Invalid: EC.parse is the only request, and SK is not read. -/
theorem agreeWith_of_parse_none (hepk : s.tr.epk = some epk)
    (hparse : requestParse cfg epk.val = none) :
    agreeWith cfg s = .next ((s.request [.ecParse epk.val]).raise .invalidPublicKey) := by
  simp only [agreeWith, hepk, withReg_some, hparse]

/-- Fail: EC.parse, then EC.ecdh with the point it gave. -/
theorem agreeWith_of_ecdh_none (hepk : s.tr.epk = some epk)
    (hparse : requestParse cfg epk.val = some p) (hsk : s.sk = some k)
    (hecdh : requestEcdh cfg k p = none) :
    agreeWith cfg s =
      .next ((s.request [.ecParse epk.val, .ecEcdh k p]).raise .keyAgreementFailure) := by
  simp only [agreeWith, hepk, withReg_some, hparse, hsk, hecdh]

/-- The secret: the same two requests, then PK and Z are written. -/
theorem agreeWith_of_ecdh_some (hepk : s.tr.epk = some epk)
    (hparse : requestParse cfg epk.val = some p) (hsk : s.sk = some k)
    (hecdh : requestEcdh cfg k p = some z) :
    agreeWith cfg s = .next ((s.request [.ecParse epk.val, .ecEcdh k p]).advance .derive
      { s.tr with pk := some p, z := some z }) := by
  simp only [agreeWith, hepk, withReg_some, hparse, hsk, hecdh]

/-- Settles O27: the case split follows the delegates' two answers, with one equation above for each
outcome; a wrong tag byte is the Invalid outcome. -/
theorem agreeAsksTheDelegateInOrder : Obligations.AgreeAsksTheDelegateInOrder := by
  refine ⟨rfl, fun cfg s epk k p z hepk hsk hparse hecdh => ?_, fun s epk k hepk hsk => ?_,
    fun s epk k hepk _ htag => ?_⟩
  · exact agreeWith_of_ecdh_some hepk hparse hsk hecdh
  · cases hparse : requestParse Config.chip epk.val with
    | none => exact agreeWith_of_parse_none hepk hparse
    | some p =>
      cases hecdh : requestEcdh Config.chip k p with
      | none =>
        simp only [hecdh]
        exact agreeWith_of_ecdh_none hepk hparse hsk hecdh
      | some z =>
        simp only [hecdh]
        exact agreeWith_of_ecdh_some hepk hparse hsk hecdh
  · exact agreeWith_of_parse_none hepk (requestParse_of_head?_ne htag)

end Sys2Proof.Machine
end

section
/-! PROOFS. The key derivation (file 42): the KDF as the digests of counters 1, 2, ... cut to a length
(R147 to R149, R151), DERIVE which stores it (R150), and SPLIT which cuts it in two (R153, R154). -/

namespace Sys2Proof.Machine

variable {cfg : Config} {seed : Bytes}

/-! ### A byte of a slice -/

theorem sliceBytes_getElem? (l : Bytes) {a b j : Nat} (hj : a + j < b) :
    (sliceBytes l a b)[j]? = l[a + j]? := by
  rw [sliceBytes, List.getElem?_drop, List.getElem?_take_of_lt hj]

/-! ### The blocks of the KDF -/

/-- The digest of the KDF's block with counter `i`, reduced modulo 2^32 (42 R147, R148). -/
def blockDigest (cfg : Config) (seed : Bytes) (i : Nat) : BytesN 32 :=
  requestSha256 cfg (seed ++ be32 (BitVec.ofNat 32 i))

/-- The digests of the blocks with counters `1, 2, ..., b`, one after the other. -/
def blockDigests (cfg : Config) (seed : Bytes) (b : Nat) : Bytes :=
  ((List.range b).map fun i => (blockDigest cfg seed (i + 1)).val).flatten

/-- The requests for the blocks with counters `1, 2, ..., b`, in that order (42 R150). -/
def blockRequests (seed : Bytes) (b : Nat) : List Request :=
  (List.range b).map fun i => .sha256 (seed ++ be32 (BitVec.ofNat 32 (i + 1)))

theorem blockDigest_mod (cfg : Config) (seed : Bytes) (i : Nat) :
    blockDigest cfg seed (i % 2 ^ 32) = blockDigest cfg seed i := by
  have hctr : BitVec.ofNat 32 (i % 2 ^ 32) = BitVec.ofNat 32 i :=
    BitVec.eq_of_toNat_eq (by simp only [BitVec.toNat_ofNat, Nat.mod_mod])
  rw [blockDigest, hctr, blockDigest]

theorem blockDigest_add_wrap (cfg : Config) (seed : Bytes) (i : Nat) :
    blockDigest cfg seed (i + 2 ^ 32) = blockDigest cfg seed i := by
  rw [← blockDigest_mod, Nat.add_mod_right, blockDigest_mod]

theorem blockDigests_length (cfg : Config) (seed : Bytes) (b : Nat) :
    (blockDigests cfg seed b).length = 32 * b :=
  digests_length (fun i => blockDigest cfg seed (i + 1)) b

theorem blockDigests_succ (cfg : Config) (seed : Bytes) (b : Nat) :
    blockDigests cfg seed (b + 1) =
      blockDigests cfg seed b ++ (blockDigest cfg seed (b + 1)).val := by
  simp [blockDigests, List.range_succ]

/-- The whole loop, for the block count named by its two bounds (42 R147). -/
theorem kdfRun_of_blockCount {len b : Nat} (hcover : len ≤ 32 * b) (hleast : 32 * b < len + 32) :
    kdfRun cfg seed len =
      ⟨blockDigests cfg seed b, BitVec.ofNat 32 (b + 1), blockRequests seed b⟩ := by
  rw [kdfRun_spec, ceilDiv_unique hcover hleast]
  rfl

theorem kdf_of_blockCount {len b : Nat} (hcover : len ≤ 32 * b) (hleast : 32 * b < len + 32) :
    kdf cfg seed len = (blockDigests cfg seed b).take len := by
  rw [kdf, kdfRun_of_blockCount hcover hleast]

/-! ### The laws of the KDF -/

theorem kdf_getElem?_blockDigest {len j : Nat} (hj : j < len) :
    (kdf cfg seed len)[j]? = (blockDigest cfg seed (j / 32 + 1)).val[j % 32]? :=
  kdf_getElem? cfg seed hj

/-- A byte of the derived material is the same for every length that has it. -/
theorem kdf_getElem?_of_lt {len m j : Nat} (hlen : j < len) (hm : j < m) :
    (kdf cfg seed len)[j]? = (kdf cfg seed m)[j]? := by
  rw [kdf_getElem?_blockDigest hlen, kdf_getElem?_blockDigest hm]

/-- A shorter output is the front of a longer one (42 R151 (c)). -/
theorem kdf_take {len m : Nat} (h : m ≤ len) : (kdf cfg seed len).take m = kdf cfg seed m := by
  apply List.ext_getElem?
  intro j
  rw [List.getElem?_take]
  split
  next hj => exact kdf_getElem?_of_lt (hj.trans_le h) hj
  next hj => exact (List.getElem?_eq_none (by rw [kdf_length]; omega)).symm

/-- The block structure (42 R151 (d)): block `k + 1` of the material is its digest, cut at the end of
the material. -/
theorem sliceBytes_kdf_block {len k : Nat} (hk : 32 * k < len) :
    sliceBytes (kdf cfg seed len) (32 * k) (min (32 * (k + 1)) len) =
      (blockDigest cfg seed (k + 1)).val.take (min (32 * (k + 1)) len - 32 * k) := by
  apply List.ext_getElem?
  intro j
  rw [List.getElem?_take]
  split
  next hj =>
    have hdiv : (32 * k + j) / 32 = k := by omega
    have hmod : (32 * k + j) % 32 = j := by omega
    rw [sliceBytes_getElem? _ (by omega), kdf_getElem?_blockDigest (by omega), hdiv, hmod]
  next hj =>
    apply List.getElem?_eq_none
    rw [sliceBytes_length _ (by rw [kdf_length]; omega)]
    omega

/-- The period after the wrap of the counter (42 R151 (f)). -/
theorem kdf_getElem?_period {len j : Nat} (hj : j + 32 * 2 ^ 32 < len) :
    (kdf cfg seed len)[j + 32 * 2 ^ 32]? = (kdf cfg seed len)[j]? := by
  have hdiv : (j + 32 * 2 ^ 32) / 32 + 1 = j / 32 + 1 + 2 ^ 32 := by omega
  have hmod : (j + 32 * 2 ^ 32) % 32 = j % 32 := by omega
  rw [kdf_getElem?_blockDigest hj, kdf_getElem?_blockDigest (by omega), hdiv, hmod,
    blockDigest_add_wrap]

theorem kdf_zero (cfg : Config) (seed : Bytes) : kdf cfg seed 0 = [] := rfl

/-- Settles O29: each law is read off the byte that the KDF gives at an index. -/
theorem kdfLaws : Obligations.KdfLaws := by
  intro cfg seed
  refine ⟨kdf_length cfg seed, fun len m hm => kdf_take hm, fun len i hi hlen => ?_,
    kdf_zero cfg seed, fun len j hj => kdf_getElem?_period hj⟩
  obtain ⟨k, rfl⟩ : ∃ k, i = k + 1 := ⟨i - 1, by omega⟩
  change sliceBytes _ (32 * k) _ <+: (blockDigest cfg seed ((k + 1) % 2 ^ 32)).val
  rw [blockDigest_mod, sliceBytes_kdf_block (k := k) hlen]
  exact List.take_prefix _ _

/-! ### Truncation -/

/-- The earlier blocks whole, and the front of the last one (42 R149). -/
theorem kdf_eq_append_last {len k : Nat} (hlast : 32 * k < len) (hcover : len ≤ 32 * (k + 1)) :
    kdf cfg seed len =
      blockDigests cfg seed k ++ (blockDigest cfg seed (k + 1)).val.take (len - 32 * k) := by
  rw [kdf_of_blockCount hcover (by omega), blockDigests_succ, List.take_append,
    blockDigests_length, List.take_of_length_le (by rw [blockDigests_length]; omega)]

/-- Nothing is cut when 32 divides the length (42 R149). -/
theorem kdf_whole_blocks (cfg : Config) (seed : Bytes) (b : Nat) :
    kdf cfg seed (32 * b) = blockDigests cfg seed b := by
  rw [kdf_of_blockCount (Nat.le_refl _) (by omega), ← blockDigests_length cfg seed b,
    List.take_length]

/-- Settles O30: the last block is split off the digests, and the cut falls inside it. -/
theorem kdfTruncatesTheLastBlockAtItsEnd : Obligations.KdfTruncatesTheLastBlockAtItsEnd := by
  intro cfg seed
  refine ⟨fun len b hpos hcover hleast => ?_, kdf_whole_blocks cfg seed, rfl, kdf_zero cfg seed⟩
  obtain ⟨k, rfl⟩ : ∃ k, b = k + 1 := ⟨b - 1, by omega⟩
  exact ⟨by omega, by omega, kdf_eq_append_last (by omega) hcover⟩

/-! ### DERIVE -/

/-- DERIVE on valid operands, for the block count named by its two bounds (42 R150). -/
theorem deriveWith_of_blockCount {s : State} {epk : BytesN 65} {z : BytesN 32} {n : Word32} {b : Nat}
    (hepk : s.tr.epk = some epk) (hz : s.tr.z = some z) (hctlen : s.tr.ctlen = some n)
    (hcover : n.toNat + 16 ≤ 32 * b) (hleast : 32 * b < n.toNat + 16 + 32) :
    deriveWith cfg s =
      .next ((s.request (blockRequests (seedOf epk z).val b)).advance .split
        { s.tr with
          seed := some (seedOf epk z)
          ctr := some (BitVec.ofNat 32 (b + 1))
          km := some ((blockDigests cfg (seedOf epk z).val b).take (n.toNat + 16)) }) := by
  simp only [deriveWith, hepk, hz, hctlen, withReg_some, kdf_of_blockCount hcover hleast,
    kdfRun_of_blockCount hcover hleast]

/-- Settles O28: the two bounds on the block count leave one run of the loop, whose output, counter
and requests are the three things that DERIVE records. -/
theorem deriveRunsTheKdf : Obligations.DeriveRunsTheKdf :=
  ⟨rfl, fun _ epk z _ _ hepk hz hctlen hcover hleast =>
    ⟨seedOf epk z, rfl, deriveWith_of_blockCount hepk hz hctlen hcover hleast⟩⟩

/-! ### SPLIT -/

/-- SPLIT on material of exactly CTLEN + 16 bytes (42 R153). -/
theorem execSplit_of_material {s : State} {km : Bytes} {n : Word32} (hkm : s.tr.km = some km)
    (hctlen : s.tr.ctlen = some n) (hlen : km.length = n.toNat + 16) :
    execSplit s =
      .next (s.advance .xordec
        { s.tr with
          k2 := some ⟨sliceBytes km 0 16, sliceBytes_length km (by omega)⟩
          k1 := some (sliceBytes km 16 (16 + n.toNat)) }) := by
  have hfits : 16 + n.toNat ≤ km.length := by omega
  simp only [execSplit, hkm, hctlen, withReg_some, dif_pos hfits]

/-- Settles O31: SPLIT writes the two slices of KM at 0 and at 16, read byte by byte. -/
theorem splitPutsTheMacKeyFirst : Obligations.SplitPutsTheMacKeyFirst := by
  refine ⟨rfl, fun s km n hkm hctlen hlen => ?_⟩
  refine ⟨⟨sliceBytes km 0 16, sliceBytes_length km (by omega)⟩, sliceBytes km 16 (16 + n.toNat),
    execSplit_of_material hkm hctlen hlen, fun j hj => ?_, ?_, fun j hj => ?_⟩
  · exact (sliceBytes_getElem? km (by omega)).trans (by rw [Nat.zero_add])
  · rw [sliceBytes_length km (by omega), Nat.add_sub_cancel_left]
  · exact sliceBytes_getElem? km (by omega)

/-- The two keys, one after the other, are the material (42 R154). -/
theorem macKey_append_cipherKey {km : Bytes} {m : Nat} (hlen : km.length = m + 16) :
    sliceBytes km 0 16 ++ sliceBytes km 16 (16 + m) = km := by
  rw [sliceBytes_append km (Nat.zero_le 16) (Nat.le_add_right 16 m), Nat.add_comm 16, ← hlen,
    sliceBytes_whole]

/-- Settles O32: the two slices join to KM, and a byte of the KDF's output is the same for every
length that has it. -/
theorem splitKeysDoNotDependOnTheLength : Obligations.SplitKeysDoNotDependOnTheLength := by
  intro s t sd n hctlen hkm h
  have hlen := kdf_length Config.chip sd (n.toNat + 16)
  have hsplit := (execSplit_of_material hkm hctlen hlen).symm.trans h
  obtain rfl := Host.Outcome.next.inj hsplit
  have hk1 : (sliceBytes (kdf Config.chip sd (n.toNat + 16)) 16 (16 + n.toNat)).length = n.toNat := by
    rw [sliceBytes_length _ (by omega), Nat.add_sub_cancel_left]
  refine ⟨_, _, rfl, rfl, macKey_append_cipherKey hlen, sliceBytes_length _ (by omega), hk1,
    ?_, kdf_take (Nat.le_add_left 16 _), fun j m hj hm => ?_⟩
  · rw [inBytes_length, hk1]
  · calc (sliceBytes (kdf Config.chip sd (n.toNat + 16)) 16 (16 + n.toNat))[j]?
        = (kdf Config.chip sd (n.toNat + 16))[16 + j]? := sliceBytes_getElem? _ (by omega)
      _ = (kdf Config.chip sd m)[16 + j]? := kdf_getElem?_of_lt (by omega) hm

end Sys2Proof.Machine
end

section
/-! PROOFS. The stream cipher (file 43): lanes that do not look at each other (R165, R167), and XORDEC,
which runs it over the ciphertext in IN (R166) and refuses a key stream of another length (U7). -/

namespace Sys2Proof.Machine

/-! ### Bytes by their lanes -/

/-- Sequences of one length with equal lanes are equal. -/
theorem bytes_ext_lanes {l m : Bytes} (hlen : l.length = m.length)
    (hlanes : ∀ i < l.length, l.getD i 0 = m.getD i 0) : l = m := by
  refine List.ext_getElem hlen fun i hl hm => ?_
  rw [← List.getD_eq_getElem l 0 hl, ← List.getD_eq_getElem m 0 hm]
  exact hlanes i hl

theorem bytesN_ext_lanes {n : Nat} {c d : BytesN n}
    (hlanes : ∀ i < n, c.val.getD i 0 = d.val.getD i 0) : c = d :=
  Subtype.ext <| bytes_ext_lanes (c.property.trans d.property.symm) fun i hi =>
    hlanes i (c.property ▸ hi)

theorem set_getD_lane (l : Bytes) (j : Nat) (v : Byte) {i : Nat} (hi : i < l.length) :
    (l.set j v).getD i 0 = if j = i then v else l.getD i 0 := by
  rw [List.getD_eq_getElem _ _ (by rwa [List.length_set]), List.getElem_set,
    List.getD_eq_getElem _ _ hi]

/-! ### The laws of the cipher -/

section Laws

variable {n : Nat} {c' k : BytesN n}

/-- Lane `i` of the cipher is the exclusive-or of lane `i` of its two inputs, and of nothing else. -/
theorem applyStream_getD (c k : BytesN n) {i : Nat} (hi : i < n) :
    (applyStream c k).val.getD i 0 = c.val.getD i 0 ^^^ k.val.getD i 0 := by
  rw [List.getD_eq_getElem?_getD, applyStream_getElem? c k hi, Option.getD_some]

theorem applyStream_self_inverse (c k : BytesN n) : applyStream (applyStream c k) k = c :=
  bytesN_ext_lanes fun i hi => by
    rw [applyStream_getD _ _ hi, applyStream_getD _ _ hi, BitVec.xor_assoc, BitVec.xor_self,
      BitVec.xor_zero]

theorem applyStream_zeros (c : BytesN n) (hk : k.val = zeros n) : applyStream c k = c :=
  bytesN_ext_lanes fun i hi => by
    have hlane : k.val.getD i 0 = 0#8 := by rw [hk]; exact List.getD_replicate 0 hi
    rw [applyStream_getD _ _ hi, hlane, BitVec.xor_zero]

/-- The slice of the result is the cipher on the slices: a lane's position does not matter. -/
theorem sliceBytes_applyStream (c k : BytesN n) {m a b : Nat} {c' k' : BytesN m}
    (hc : c'.val = sliceBytes c.val a b) (hk : k'.val = sliceBytes k.val a b) :
    sliceBytes (applyStream c k).val a b = (applyStream c' k').val := by
  simp only [applyStream, hc, hk, sliceBytes, List.take_zipWith, List.drop_zipWith]

/-- One ciphertext byte changed: its own lane follows it, and no other lane. -/
theorem applyStream_set (c k : BytesN n) {j : Nat} {v : Byte} (hc : c'.val = c.val.set j v) :
    (applyStream c' k).val = (applyStream c k).val.set j (v ^^^ k.val.getD j 0) := by
  have hlen (d : BytesN n) : (applyStream d k).val.length = n := (applyStream d k).property
  refine bytes_ext_lanes (by rw [List.length_set, hlen, hlen]) fun i hi => ?_
  rw [hlen] at hi
  rw [applyStream_getD _ _ hi, hc, set_getD_lane _ _ _ (c.property.symm ▸ hi),
    set_getD_lane _ _ _ ((hlen c).symm ▸ hi), applyStream_getD _ _ hi]
  by_cases hij : j = i
  · rw [if_pos hij, if_pos hij, hij]
  · rw [if_neg hij, if_neg hij]

/-- A mask on one ciphertext byte comes out as the same mask on the same plaintext byte. -/
theorem applyStream_mask (c k : BytesN n) {j : Nat} {m : Byte} (hj : j < n)
    (hc : c'.val = c.val.set j (c.val.getD j 0 ^^^ m)) :
    (applyStream c' k).val =
      (applyStream c k).val.set j ((applyStream c k).val.getD j 0 ^^^ m) := by
  have hmask : c.val.getD j 0 ^^^ m ^^^ k.val.getD j 0 = (applyStream c k).val.getD j 0 ^^^ m := by
    rw [applyStream_getD _ _ hj, BitVec.xor_assoc, BitVec.xor_comm m, ← BitVec.xor_assoc]
  rw [applyStream_set c k hc, hmask]

end Laws

/-- Settles O35: every law is read off the lanes; a flipped bit is a mask with one bit set. -/
theorem streamCipherLaws : Obligations.StreamCipherLaws := fun _ c k =>
  ⟨(applyStream c k).property, applyStream_self_inverse c k,
    fun _ hz => applyStream_zeros c hz,
    fun _ _ _ _ _ _ hc hk => sliceBytes_applyStream c k hc hk,
    fun _ _ _ hj _ hc => applyStream_mask c k hj hc⟩

/-! ### XORDEC -/

theorem applyStream_inBytesN_getElem? (cfg : Config) (s : State) (a : Nat) {n j : Nat}
    (k : BytesN n) (hj : j < n) :
    (applyStream (inBytesN cfg s a n) k).val[j]? =
      some (inByte cfg s (a + j) ^^^ k.val.getD j 0) := by
  rw [applyStream_getElem? _ _ hj, inBytesN_val, List.getD_eq_getElem?_getD,
    inBytes_getElem? cfg s a hj, Option.getD_some]

/-- Settles O33: XORDEC goes on with the cipher over the region at 65, read lane by lane. -/
theorem xordecIsBytewise : Obligations.XordecIsBytewise := by
  refine ⟨rfl, fun s k1 n hk1 hctlen hlen hinside => ?_⟩
  have hnext : exec .xordec s = .next (s.advance .macchk { s.tr with
      pt := some (applyStream (inBytesN Config.chip s ctStart n.toNat) ⟨k1, hlen⟩).val }) :=
    xordecWith_eq hctlen rfl hk1 hinside
  exact ⟨_, hnext, (applyStream _ _).property,
    fun j hj => applyStream_inBytesN_getElem? Config.chip s ctStart ⟨k1, hlen⟩ hj⟩

theorem withLength_of_length_ne {r : RegName} {v : Bytes} {n : Nat} {k : BytesN n → Result}
    (h : v.length ≠ n) : withLength r v n k = .refused (.lengthContract r) := dif_neg h

/-- XORDEC refuses a key stream of another length than the ciphertext (43 R165, U7). -/
theorem xordecWith_of_length_ne {cfg : Config} {s : State} {k1 : Bytes} {n : Word32}
    (hk1 : s.tr.k1 = some k1) (hctlen : s.tr.ctlen = some n) (hlen : k1.length ≠ n.toNat)
    (hinside : ctStart + n.toNat ≤ cfg.maxEnvLen) :
    xordecWith cfg s = .refused (.lengthContract .k1) := by
  simp only [xordecWith, hctlen, hk1, withReg_some, withCiphertext_of_inside hinside,
    withLength_of_length_ne hlen]

/-- Settles O34: the two operands and the region are there, so the length contract decides. -/
theorem unequalKeyStreamIsRefused : Obligations.UnequalKeyStreamIsRefused :=
  fun _ _ _ hk1 hctlen hlen hinside => xordecWith_of_length_ne hk1 hctlen hlen hinside

end Sys2Proof.Machine
end

section
/-! PROOFS. The MAC verifier (file 44): MACCHK asks for one tag and compares the whole of it (R178, R179),
and XORDEC and MACCHK may come in either order (R180 (d), 90 C3). -/

namespace Sys2Proof.Machine

/-! ### The comparison -/

theorem tagsMatch_eq_decide (x y : BytesN 32) : tagsMatch x y = decide (x = y) :=
  Bool.eq_iff_iff.mpr <| (tagsMatch_iff x y).trans decide_eq_true_iff.symm

/-- The tags decide the stage after MACCHK (44 R179). -/
theorem phaseAfterCheck_decide (x y : BytesN 32) :
    phaseAfterCheck (decide (x = y)) = if x = y then .release else .discard := by
  simp only [phaseAfterCheck, decide_eq_true_eq]

/-! ### MACCHK -/

/-- MACCHK on valid operands and a region inside the buffer (44 R179), with the tag that the one request
answers under the name `tagc`. -/
theorem macchkWith_of_operands {cfg : Config} {s : State} {k2 : BytesN 16} {n : Word32}
    {tag tagc : BytesN 32} (hk2 : s.tr.k2 = some k2) (hctlen : s.tr.ctlen = some n)
    (htag : s.tr.tag = some tag) (hinside : ctStart + n.toNat ≤ cfg.maxEnvLen)
    (htagc : tagc = computeTag cfg k2.val (inBytes cfg s ctStart n.toNat)) :
    macchkWith cfg s =
      .next ((s.request [.hmac k2.val (macMessage (inBytes cfg s ctStart n.toNat))]).advance
        (if tagc = tag then .release else .discard)
        { s.tr with tagc := some tagc, matched := some (decide (tagc = tag)) }) := by
  simp only [macchkWith, hk2, hctlen, htag, withReg_some, withCiphertext_of_inside hinside,
    inBytesN_val, ← htagc]
  rw [tagsMatch_eq_decide, phaseAfterCheck_decide]

/-- Settles O36: the message is the region at 65 as the IN space holds it, and the tag is the delegate's
answer to the one request. -/
theorem macchkComparesTheWholeTag : Obligations.MacchkComparesTheWholeTag :=
  ⟨rfl, fun s k2 n _ hk2 hctlen htag hinside =>
    ⟨inBytes Config.chip s ctStart n.toNat,
      computeTag Config.chip k2.val (inBytes Config.chip s ctStart n.toNat),
      inBytes_length Config.chip s ctStart n.toNat,
      fun _ hj => inBytes_getElem? Config.chip s ctStart hj, rfl,
      macchkWith_of_operands hk2 hctlen htag hinside rfl⟩⟩

/-! ### XORDEC and MACCHK in either order -/

section Ciphertext

variable (cfg : Config) (s : State)

/-- The end of a stage leaves the IN space, so the next stage reads the same ciphertext. -/
theorem inBytes_advance (p : Phase) (r : Transients) (a n : Nat) :
    inBytes cfg (s.advance p r) a n = inBytes cfg s a n := inBytes_congr rfl rfl rfl a n

theorem inBytes_request (rs : List Request) (a n : Nat) :
    inBytes cfg (s.request rs) a n = inBytes cfg s a n := inBytes_congr rfl rfl rfl a n

theorem inBytesN_advance (p : Phase) (r : Transients) (a n : Nat) :
    inBytesN cfg (s.advance p r) a n = inBytesN cfg s a n := Subtype.ext (inBytes_advance ..)

theorem inBytesN_request (rs : List Request) (a n : Nat) :
    inBytesN cfg (s.request rs) a n = inBytesN cfg s a n := Subtype.ext (inBytes_request ..)

end Ciphertext

/-- Settles O37: each stage finds its operands after the other as it did before, reads the same
ciphertext, and writes registers that the other does not. -/
theorem xordecAndMacchkCommute : Obligations.XordecAndMacchkCommute := by
  intro s k1 k2 n tag hk1 hk2 hctlen htag hlen hinside
  have hxordec {r : State} (hctlen : r.tr.ctlen = some n) (hk1 : r.tr.k1 = some k1) :=
    xordecWith_eq (k1 := ⟨k1, hlen⟩) hctlen rfl hk1 hinside
  have hmacchk {r : State} (hk2 : r.tr.k2 = some k2) (hctlen : r.tr.ctlen = some n)
      (htag : r.tr.tag = some tag) := macchkWith_of_operands hk2 hctlen htag hinside rfl
  refine ⟨_, _, _, _, hxordec hctlen hk1, hmacchk hk2 hctlen htag,
    hmacchk hk2 hctlen htag, hxordec hctlen hk1, ?_⟩
  simp only [inBytes_advance, inBytesN_advance, inBytesN_request]
  rfl

end Sys2Proof.Machine
end

section
/-! PROOFS. `decrypt` as a function of the envelope (45 R191): the three regions decide, and the
delegates' answers decide in turn. Its laws (R206 to R209) are read off the equation for each
outcome. -/

namespace Sys2Proof.Machine

variable {cfg : Config} {b b' epk ct tag : Bytes} {k : PrivKey} {p : Point} {z : BytesN 32}

/-! ### `decrypt` by the three regions -/

/-- An envelope that fits is decrypted by its three regions, and so are its requests. -/
theorem decrypt_of_regionsExist (k : PrivKey) (hr : regionsExist cfg b.length = true) :
    decrypt cfg b k = decryptRegions cfg (sliceBytes b 0 65) (sliceBytes b 65 (b.length - 32))
        (sliceBytes b (b.length - 32) b.length) k ∧
      callRequests cfg b k =
        regionRequests cfg (sliceBytes b 0 65) (sliceBytes b 65 (b.length - 32)) k := by
  obtain ⟨hmin, hmax⟩ := (regionsExist_iff cfg b.length).mp hr
  simp only [decrypt, callRequests, unpackOf, if_pos hmax, if_neg (Nat.not_lt.mpr hmin), and_self]

/-- Only an envelope that fits decrypts to a plaintext. -/
theorem regionsExist_of_decrypt_ok {m : Bytes} (h : decrypt cfg b k = .ok m) :
    regionsExist cfg b.length = true := by
  by_contra hr
  obtain ⟨herr, -⟩ := decrypt_of_not_regionsExist k (Bool.not_eq_true _ ▸ hr)
  cases herr.symm.trans h

/-! ### The regions, by the delegates' answers -/

theorem decryptRegions_of_parse_none (hparse : requestParse cfg epk = none) :
    decryptRegions cfg epk ct tag k = .error .invalidPublicKey ∧
      regionRequests cfg epk ct k = [.ecParse epk] := by
  simp only [decryptRegions, agreeOf, regionRequests, hparse, and_self]

theorem decryptRegions_of_ecdh_none (hparse : requestParse cfg epk = some p)
    (hecdh : requestEcdh cfg k p = none) :
    decryptRegions cfg epk ct tag k = .error .keyAgreementFailure ∧
      regionRequests cfg epk ct k = [.ecParse epk, .ecEcdh k p] := by
  simp only [decryptRegions, agreeOf, regionRequests, hparse, hecdh, and_self]

theorem decryptRegions_of_secret (hparse : requestParse cfg epk = some p)
    (hecdh : requestEcdh cfg k p = some z) :
    decryptRegions cfg epk ct tag k = openEnvelope cfg epk z.val ct tag ∧
      regionRequests cfg epk ct k = [.ecParse epk, .ecEcdh k p] ++ hashRequests epk z.val ct ++
        [.hmac (macKey cfg epk z.val ct) (macMessage ct)] := by
  simp only [decryptRegions, agreeOf, regionRequests, hparse, hecdh, and_self]

/-- A plaintext means that the secret was agreed and that the tag is the one computed. -/
theorem decryptRegions_ok {m : Bytes} (h : decryptRegions cfg epk ct tag k = .ok m) :
    ∃ p z, requestParse cfg epk = some p ∧ requestEcdh cfg k p = some z ∧
      (computeTag cfg (macKey cfg epk z.val ct) ct).val = tag := by
  cases hparse : requestParse cfg epk with
  | none =>
    obtain ⟨hres, -⟩ := decryptRegions_of_parse_none (ct := ct) (tag := tag) (k := k) hparse
    cases hres.symm.trans h
  | some p =>
    cases hecdh : requestEcdh cfg k p with
    | none =>
      obtain ⟨hres, -⟩ := decryptRegions_of_ecdh_none (ct := ct) (tag := tag) hparse hecdh
      cases hres.symm.trans h
    | some z =>
      obtain ⟨hres, -⟩ := decryptRegions_of_secret (ct := ct) (tag := tag) hparse hecdh
      refine ⟨p, z, rfl, hecdh, ?_⟩
      by_contra htag
      rw [hres, openEnvelope, if_neg htag] at h
      cases h

/-- K2 depends on the seed alone: it is the first 16 bytes whatever the ciphertext's length. -/
theorem macKey_eq_kdf (cfg : Config) (epk z ct : Bytes) :
    macKey cfg epk z ct = kdf cfg (epk ++ z) 16 :=
  kdf_take (Nat.le_add_left 16 _)

/-! ### The laws of `decrypt` -/

/-- The regions of `V ‖ c ‖ t` are `V`, `c` and `t`. -/
theorem decrypt_append {v c t : Bytes} (hv : v.length = 65) (ht : t.length = 32)
    (hlen : (v ++ c ++ t).length ≤ cfg.maxEnvLen) :
    decrypt cfg (v ++ c ++ t) k = decryptRegions cfg v c t k := by
  have hl : (v ++ c ++ t).length = 65 + c.length + 32 := by
    rw [List.length_append, List.length_append, hv, ht]
  have hr : regionsExist cfg (v ++ c ++ t).length = true :=
    (regionsExist_iff ..).mpr ⟨by omega, hlen⟩
  have hcut : (v ++ c ++ t).length - 32 = (v ++ c).length := by
    rw [List.length_append, ht, Nat.add_sub_cancel]
  have hepk : sliceBytes (v ++ c ++ t) 0 65 = v := by simp [sliceBytes, ← hv]
  have hct : sliceBytes (v ++ c ++ t) 65 (v ++ c).length = c := by
    rw [sliceBytes, List.take_left, ← hv, List.drop_left]
  have htag : sliceBytes (v ++ c ++ t) (v ++ c).length (v ++ c ++ t).length = t := by
    rw [sliceBytes, List.take_length, List.drop_left]
  obtain ⟨hres, -⟩ := decrypt_of_regionsExist k hr
  rw [hres, hcut, hepk, hct, htag]

/-- Settles O55: both ends derive the same keys, the tag is the one computed, and the cipher is its
own inverse. -/
theorem conformantEnvelopesDecrypt : Obligations.ConformantEnvelopesDecrypt := by
  rintro cfg k p v c t ⟨hv, pk, z, hparse, hecdh, hc, rfl⟩ hlen
  have hclen : c.length = p.length := by rw [hc]; exact (applyStream _ _).property
  have htag : (computeTag cfg (macKey cfg v z.val c) c).val =
      (requestHmac cfg (macKeyOf cfg (v ++ z.val) p.length) (c ++ zeros 8)).val := by
    rw [macKey, hclen]; rfl
  obtain ⟨hopen, -⟩ := decryptRegions_of_secret (ct := c)
    (tag := (requestHmac cfg (macKeyOf cfg (v ++ z.val) p.length) (c ++ zeros 8)).val) hparse hecdh
  rw [decrypt_append hv (requestHmac ..).property hlen, hopen, openEnvelope, if_pos htag]
  have hkey : (cipherKey cfg v z.val c).val = (cipherKeyOf cfg (v ++ z.val) p.length).val := by
    rw [cipherKey, hclen]
  have hplain : (applyStream ⟨c, rfl⟩ (cipherKey cfg v z.val c)).val = p := calc
    _ = (applyStream (applyStream ⟨p, rfl⟩ (cipherKeyOf cfg (v ++ z.val) p.length))
          (cipherKeyOf cfg (v ++ z.val) p.length)).val := applyStream_val_congr hc hkey
    _ = p := by rw [applyStream_self_inverse]
  rw [hplain]

/-- Settles O56: the regions do not exist, and UNPACK is the first stage. -/
theorem shortEnvelopesMakeNoRequest : Obligations.ShortEnvelopesMakeNoRequest :=
  ⟨fun cfg b k hlen =>
      decrypt_of_not_regionsExist k ((regionsExist_false_iff cfg b.length).mpr (.inl hlen)),
    fun _ hlen => ⟨unpackWith_eq_raise ((regionsExist_false_iff ..).mpr (.inl hlen)), rfl⟩⟩

/-- Settles O57: the case split follows EC.ecdh and then the comparison of the tags. -/
theorem validPointEndsInOneOfThreeWays : Obligations.ValidPointEndsInOneOfThreeWays := by
  intro cfg b k p hmin hmax hparse
  obtain ⟨hres, -⟩ := decrypt_of_regionsExist k ((regionsExist_iff cfg b.length).mpr ⟨hmin, hmax⟩)
  cases hecdh : requestEcdh cfg k p with
  | none => exact .inl (hres.trans (decryptRegions_of_ecdh_none hparse hecdh).1)
  | some z =>
    refine .inr ⟨z, rfl, ?_⟩
    rw [hres, (decryptRegions_of_secret hparse hecdh).1, openEnvelope]
    split
    next htag => exact .inr ⟨⟨_, rfl⟩, htag.symm⟩
    next => exact .inl rfl

/-- A tag other than the one computed is a mismatch. -/
theorem openEnvelope_of_tag_ne {zb : Bytes}
    (h : (computeTag cfg (macKey cfg epk zb ct) ct).val ≠ tag) :
    openEnvelope cfg epk zb ct tag = .error .macMismatch :=
  if_neg h

/-- Two envelopes of one length that agree up to `n` have the same key region and ciphertext, and
differ after it (45 R209 (a)). -/
theorem slices_of_front_eq {n : Nat} (hn : n ≤ b.length) (h65 : 65 ≤ n)
    (hlen : b'.length = b.length) (hne : b' ≠ b) (hfront : sliceBytes b' 0 n = sliceBytes b 0 n) :
    sliceBytes b' 0 65 = sliceBytes b 0 65 ∧ sliceBytes b' 65 n = sliceBytes b 65 n ∧
      sliceBytes b n b.length ≠ sliceBytes b' n b.length := by
  have hwhole (l : Bytes) (hl : l.length = b.length) :
      sliceBytes l 0 n ++ sliceBytes l n b.length = l := by
    rw [sliceBytes_append l (Nat.zero_le n) hn, ← hl, sliceBytes_whole]
  have hjoin :
      sliceBytes b' 0 65 ++ sliceBytes b' 65 n = sliceBytes b 0 65 ++ sliceBytes b 65 n := by
    rw [sliceBytes_append b' (Nat.zero_le 65) h65, sliceBytes_append b (Nat.zero_le 65) h65, hfront]
  obtain ⟨hepk, hct⟩ := List.append_inj hjoin
    (by rw [sliceBytes_length b' (by omega), sliceBytes_length b (by omega)])
  refine ⟨hepk, hct, fun htag => hne ?_⟩
  rw [← hwhole b' hlen, hfront, ← htag, hwhole b rfl]

/-- Settles O58: each part says which regions of the changed envelope are those of the first, whose
tag is the one computed. -/
theorem tamperedEnvelopesAreRejected : Obligations.TamperedEnvelopesAreRejected := by
  intro cfg b b' k m h hlen hne
  have hr := regionsExist_of_decrypt_ok h
  obtain ⟨hmin, -⟩ := (regionsExist_iff cfg b.length).mp hr
  obtain ⟨hres, -⟩ := decrypt_of_regionsExist k hr
  obtain ⟨hres', -⟩ := decrypt_of_regionsExist (b := b') k (by rw [hlen]; exact hr)
  obtain ⟨p, z, hparse, hecdh, htag⟩ := decryptRegions_ok (hres.symm.trans h)
  rw [hlen] at hres'
  rw [hres']
  refine ⟨fun hfront => ?_, fun hepk htag' => ?_, fun hparse' => ?_⟩
  · obtain ⟨hepk, hct, htag'⟩ := slices_of_front_eq (by omega) (by omega) hlen hne hfront
    rw [hepk, hct, (decryptRegions_of_secret hparse hecdh).1]
    exact openEnvelope_of_tag_ne (htag.trans_ne htag')
  · rw [hepk, htag', (decryptRegions_of_secret hparse hecdh).1]
    by_cases hsame : (computeTag cfg
        (macKey cfg (sliceBytes b 0 65) z.val (sliceBytes b' 65 (b.length - 32)))
        (sliceBytes b' 65 (b.length - 32))).val = sliceBytes b (b.length - 32) b.length
    · refine .inr ⟨z, by simp only [agreeOf, hparse, hecdh], Subtype.ext ?_⟩
      have hmac := hsame.trans htag.symm
      rwa [macKey_eq_kdf, macKey_eq_kdf] at hmac
    · exact .inl (openEnvelope_of_tag_ne hsame)
  · exact (decryptRegions_of_parse_none hparse').1

end Sys2Proof.Machine
end

section
/-! PROOFS. The host's registers (45 R193 to R198, R212): what each host operation does, and what no
host turn but an accepted START does: touch the result of the last call or the stage to come. -/

namespace Sys2Proof.Machine

variable {cfg : Config} {s t : State}

/-! ### STATUS, field by field -/

/-- The flags of STATUS and its reserved bit, whatever the error code above them (10 R40). -/
theorem statusWord_flags (s : State) :
    (statusWord s).getLsbD 0 = s.busy ∧ (statusWord s).getLsbD 2 = s.keyv ∧
      (statusWord s).getLsbD 3 = false := by
  unfold statusWord
  generalize errCode s.err = c, s.keyv = kv, s.done = d, s.busy = b
  revert c kv d b
  decide

/-- STATUS has seven bits (10 R40). -/
theorem statusWord_upper (s : State) : (statusWord s).extractLsb' 7 25 = 0 := by
  refine BitVec.eq_of_getLsbD_eq fun i _ => ?_
  rw [BitVec.getLsbD_extractLsb', statusWord, BitVec.getLsbD_setWidth,
    BitVec.getLsbD_of_ge _ _ (Nat.le_add_right 7 i)]
  simp

/-- The values of STATUS in a good state, by its flags (45 R194). -/
theorem Good.statusWord_mem (h : Good cfg s) :
    statusWord s ∈ [0x00#32, 0x04#32, 0x05#32, 0x06#32, 0x16#32, 0x26#32, 0x36#32, 0x46#32] := by
  cases hb : s.busy with
  | true =>
    have hd := h.not_done_of_busy hb
    rw [statusWord_of_call hb hd (h.invariants.busy_keyv hb) (h.invariants.not_done hd).1]
    decide
  | false =>
    cases hd : s.done with
    | true =>
      simp only [statusWord, hb, hd, h.done_keyv hd]
      cases s.err with
      | none => decide
      | some e => cases e <;> decide
    | false =>
      simp only [statusWord, hb, hd, (h.invariants.not_done hd).1]
      cases s.keyv <;> decide

/-- Settles O13: one lemma for each field, and the flags of a good state leave eight values. -/
theorem statusReadsItsFields : Obligations.StatusReadsItsFields := by
  refine ⟨fun _ => decode_of_hostWord .rdstatus, fun s => ?_,
    fun s hs => ⟨statusWord s, hs.statusWord_mem, rfl⟩, fun s hs hb => ?_⟩
  · obtain ⟨hbusy, hkeyv, hreserved⟩ := statusWord_flags s
    refine ⟨statusWord s, rfl, hbusy, wordDone_statusWord s, hkeyv, hreserved,
      statusWord_upper s, (wordErr_statusWord s).trans ?_⟩
    cases s.err with
    | none => rfl
    | some e => cases e <;> rfl
  · obtain ⟨-, hreads⟩ := nothingIsVisibleDuringACall
    obtain ⟨hstatus, -⟩ := hreads s hs hb
    exact hstatus

/-! ### START, the stores and RDOUT -/

theorem execStart_of_accepted {d : Word32} (h : startAccepted d s = true) :
    execStart d s = .next s.startCall := by
  rw [execStart, if_pos h]

theorem execStart_of_not_accepted {d : Word32} (h : startAccepted d s = false) :
    execStart d s = .next s := by
  rw [execStart, h, if_neg Bool.false_ne_true]

/-- Settles O12: the three conditions are `startAccepted`, and without one of them it is false. -/
theorem startBeginsACallOrDoesNothing : Obligations.StartBeginsACallOrDoesNothing := by
  refine ⟨fun _ => decode_of_hostWord .start, fun d s hd hb hk => ⟨[], ?_⟩, fun d s hmissing => ?_⟩
  · exact execStart_of_accepted ((startAccepted_iff d s).mpr ⟨hd, hb, hk⟩)
  · refine execStart_of_not_accepted ?_
    obtain h | h | h := hmissing <;>
      simp only [startAccepted, h, Bool.not_true, Bool.false_and, Bool.and_false]

/-- Settles O14: the store, and its guard. -/
theorem wrlenStoresTheLength : Obligations.WrlenStoresTheLength :=
  ⟨fun _ => decode_of_hostWord .wrlen, fun v _ => execWith_store (cfg := Config.chip) (.wrlen v),
    fun v _ hb => execWith_wrlen_of_busy (cfg := Config.chip) hb v⟩

/-- Settles O16: the store, and its guard. -/
theorem wrkeyLoadsTheSlot : Obligations.WrkeyLoadsTheSlot :=
  ⟨fun _ => decode_of_hostWord .wrkey, fun k _ => execWith_store (cfg := Config.chip) (.wrkey k),
    fun k _ hb => execWith_wrkey_of_busy (cfg := Config.chip) hb k⟩

/-- A host read of OUT that the gate lets through (10 R45). -/
theorem execRdout_of_readable {a : Nat} (h : outReadable s a = true) :
    exec (.rdout a) s = .next (s.setAnswer (.byte (outByte Config.chip s a))) := by
  change rdoutWith Config.chip a s = _
  rw [rdoutWith, if_pos h]

/-- Settles O18: the gate is open exactly under the three conditions. -/
theorem rdoutReadsThroughTheGate : Obligations.RdoutReadsThroughTheGate := by
  refine ⟨fun _ => decode_of_hostWord .rdout, fun a s hd he ha => ?_, fun a s hclosed => ?_⟩
  · exact execRdout_of_readable ((outReadable_iff s a).mpr ⟨hd, he, ha⟩)
  · refine execRdout_of_not_readable (Bool.eq_false_iff.mpr fun hopen => ?_)
    obtain ⟨hd, he, ha⟩ := (outReadable_iff s a).mp hopen
    obtain h | h | h := hclosed
    · exact absurd (h.symm.trans hd) Bool.false_ne_true
    · exact h he
    · exact absurd ha (Nat.not_lt.mpr h)

/-! ### What a host turn leaves alone -/

/-- The result of the last call is in `t` as it was in `s`, and so is the stage to come. -/
structure ResultKept (s t : State) : Prop where
  busy : t.busy = s.busy
  done : t.done = s.done
  err : t.err = s.err
  outlen : t.outlen = s.outlen
  outMem : t.outMem = s.outMem
  phase : t.phase = s.phase
  epoch : t.epoch = s.epoch
  unit : t.unit = s.unit

theorem ResultKept.refl (s : State) : ResultKept s s := ⟨rfl, rfl, rfl, rfl, rfl, rfl, rfl, rfl⟩

theorem ResultKept.outByte_eq (h : ResultKept s t) (cfg : Config) (a : Nat) :
    outByte cfg t a = outByte cfg s a := by
  rw [outByte, outByte, h.outMem, h.unit, h.epoch]

theorem ResultKept.outReadable_eq (h : ResultKept s t) (a : Nat) :
    outReadable t a = outReadable s a := by
  simp only [outReadable, h.done, h.err, h.outlen]

theorem ResultKept.callResult_eq (h : ResultKept s t) (cfg : Config) :
    callResult cfg t = callResult cfg s := by
  simp only [callResult, releasedBytes, h.done, h.err, h.outlen, h.outReadable_eq, h.outByte_eq]

/-- A host operation keeps the result, or is an accepted START. -/
theorem execWith_host_cases {i : Instr} (hi : i.format = .host) (h : execWith cfg i s = .next t) :
    ResultKept s t ∨ ∃ d, i = .start d ∧ startAccepted d s = true ∧ t = s.startCall := by
  cases i with
  | start d =>
    change execStart d s = .next t at h
    cases hacc : startAccepted d s with
    | true =>
      rw [execStart_of_accepted hacc] at h
      cases h
      exact .inr ⟨d, rfl, hacc, rfl⟩
    | false =>
      rw [execStart_of_not_accepted hacc] at h
      cases h
      exact .inl (.refl _)
  | wrlen v =>
    refine .inl ?_
    obtain rfl : (if s.busy then s else s.setEnvlen v) = t := Host.Outcome.next.inj h
    split
    · exact .refl s
    · exact ⟨rfl, rfl, rfl, rfl, rfl, rfl, rfl, rfl⟩
  | wrkey k =>
    refine .inl ?_
    obtain rfl : (if s.busy then s else s.loadKey k) = t := Host.Outcome.next.inj h
    split
    · exact .refl s
    · exact ⟨rfl, rfl, rfl, rfl, rfl, rfl, rfl, rfl⟩
  | wrenv a v =>
    refine .inl ?_
    obtain rfl : (if !s.busy && decide (a < cfg.maxEnvLen) then s.putIn a v else s) = t :=
      Host.Outcome.next.inj h
    split
    · exact ⟨rfl, rfl, rfl, rfl, rfl, rfl, rfl, rfl⟩
    · exact .refl s
  | rdstatus | rdlen | rdoutlen | rdout =>
    cases h
    exact .inl ⟨rfl, rfl, rfl, rfl, rfl, rfl, rfl, rfl⟩
  | unpack | agree | derive | split | xordec | macchk | discard | release => cases hi

/-- The same for a whole host turn (30 R105). -/
theorem hostTurn_cases {a : HostAccess} (h : hostTurn (execWith cfg) a s = .next t) :
    ResultKept s t ∨
      ∃ d, decode (.host a) = .op (.start d) ∧ startAccepted d s = true ∧ t = s.startCall := by
  obtain ⟨i, hdec, hi, hexec⟩ | rfl | rfl := hostTurn_next h
  · obtain hkept | ⟨d, rfl, hacc, rfl⟩ := execWith_host_cases hi hexec
    · exact .inl hkept
    · exact .inr ⟨d, hdec, hacc, rfl⟩
  · exact .inl ⟨rfl, rfl, rfl, rfl, rfl, rfl, rfl, rfl⟩
  · exact .inl (.refl _)

/-- Taking the turn off the agenda touches nothing that a result is. -/
theorem ResultKept.of_setAgenda {l : List Turn} (h : ResultKept (s.setAgenda l) t) :
    ResultKept s t :=
  ⟨h.busy, h.done, h.err, h.outlen, h.outMem, h.phase, h.epoch, h.unit⟩

/-- With no call under way only reset and an accepted START touch the result (45 R202). -/
theorem stepWith_resultKept (hp : s.phase = .idle) (h : stepWith cfg s = .next t)
    (hreset : ∀ rest, s.agenda ≠ .reset :: rest)
    (hstart : ∀ a rest d, s.agenda = .host a :: rest → decode (.host a) = .op (.start d) →
      startAccepted d s = false) : ResultKept s t := by
  obtain ⟨rest, -, hseq⟩ | ⟨a, rest, hag, hhost⟩ | ⟨rest, hag, -⟩ := takeTurn_next h
  · rw [sequencerTurn_idle (s := s.setAgenda rest) hp] at hseq
    cases hseq
    exact (ResultKept.refl (s.setAgenda rest)).of_setAgenda
  · obtain hkept | ⟨d, hdec, hacc, -⟩ := hostTurn_cases hhost
    · exact hkept.of_setAgenda
    · have hrefused : startAccepted d (s.setAgenda rest) = false := hstart a rest d hag hdec
      exact absurd (hrefused.symm.trans hacc) Bool.false_ne_true
  · exact absurd hag (hreset rest)

theorem Good.not_busy_of_done (h : Good cfg s) (hd : s.done = true) : s.busy = false := by
  by_contra hb
  exact h.invariants.not_busy_and_done ⟨by simpa using hb, hd⟩

/-- Settles O49: DONE means that no call is under way, so the step keeps every field that the result
is read from. -/
theorem resultStandsUntilTheNextCall : Obligations.ResultStandsUntilTheNextCall := by
  intro s t hs hd h hreset hstart
  have hb := hs.not_busy_of_done hd
  have hkept := stepWith_resultKept (hs.phase_idle hb) (step_eq_stepWith_chip s ▸ h) hreset hstart
  exact ⟨hkept.busy.trans hb, hkept.done.trans hd, hkept.err, hkept.outlen,
    fun a _ => hkept.outByte_eq _ a, hkept.callResult_eq _⟩

/-! ### ENVLEN -/

/-- Of the operations of the host only an accepted WRLEN writes ENVLEN (45 R195). -/
theorem execWith_host_envlen {i : Instr} (hi : i.format = .host) (h : execWith cfg i s = .next t)
    (hlen : ∀ v, i = .wrlen v → s.busy = true) : t.envlen = s.envlen := by
  cases i with
  | wrlen v =>
    rw [execWith_wrlen_of_busy (hlen v rfl)] at h
    cases h
    rfl
  | start d =>
    cases h
    split <;> rfl
  | wrkey k =>
    cases h
    split <;> rfl
  | wrenv a v =>
    cases h
    split <;> rfl
  | rdstatus | rdlen | rdoutlen | rdout => cases h; rfl
  | unpack | agree | derive | split | xordec | macchk | discard | release => cases hi

/-- No step but reset and an accepted WRLEN changes ENVLEN (45 R212). -/
theorem stepWith_envlen (h : stepWith cfg s = .next t) (hreset : ∀ rest, s.agenda ≠ .reset :: rest)
    (hlen : ∀ a rest v, s.agenda = .host a :: rest → decode (.host a) = .op (.wrlen v) →
      s.busy = true) : t.envlen = s.envlen := by
  obtain ⟨rest, -, hseq⟩ | ⟨a, rest, hag, hhost⟩ | ⟨rest, hag, -⟩ := takeTurn_next h
  · obtain ⟨-, henvlen, -⟩ := sequencerTurn_inputsKept hseq
    exact henvlen
  · obtain ⟨i, hdec, hi, hexec⟩ | rfl | rfl := hostTurn_next hhost
    · refine execWith_host_envlen (s := s.setAgenda rest) hi hexec fun v hv => ?_
      exact hlen a rest v hag (hv ▸ hdec)
    · rfl
    · rfl
  · exact absurd hag (hreset rest)

/-- OUTLEN is 0 during a call and after an error (10 R51). -/
theorem Good.outlen_eq_zero (h : Good cfg s) (hs : s.busy = true ∨ s.err ≠ none) :
    s.outlen = 0 := by
  obtain hb | he := hs
  · exact (h.invariants.not_done (h.not_done_of_busy hb)).2
  · exact (h.invariants.err_done he).2

end Sys2Proof.Machine
end

section
/-! PROOFS. The order of the stages and the two ways in which the last one ends a call (45 R192,
R199 to R201): RELEASE stores the plaintext, and only a good state whose tag matched comes to it. -/

namespace Sys2Proof.Machine

variable {cfg : Config} {s t : State}

/-! ### PHASE after a turn of the sequencer -/

/-- The call has stopped in `t`: with the error `e`, or with a plaintext. -/
structure CallStopped (t : State) (e : Option ErrKind) : Prop where
  phase : t.phase = .idle
  done : t.done = true
  err : t.err = e

/-- What a turn of the sequencer makes of the PHASE it finds (45 R192). -/
def AfterStage (t : State) : Phase → Prop
  | .idle => t.phase = .idle
  | .unpack => t.phase = .agree ∨ CallStopped t (some .invalidEnvelope)
  | .agree => t.phase = .derive ∨ CallStopped t (some .invalidPublicKey) ∨
      CallStopped t (some .keyAgreementFailure)
  | .derive => t.phase = .split
  | .split => t.phase = .xordec
  | .xordec => t.phase = .macchk
  | .macchk => (t.phase = .release ∧ t.tr.matched = some true) ∨
      (t.phase = .discard ∧ t.tr.matched = some false)
  | .discard => CallStopped t (some .macMismatch)
  | .release => CallStopped t none

theorem callStopped_raise (s : State) (e : ErrKind) : CallStopped (s.raise e) (some e) :=
  ⟨rfl, rfl, rfl⟩

theorem sequencerTurn_afterStage (h : sequencerTurn (execWith cfg) s = .next t) :
    AfterStage t s.phase := by
  cases hp : s.phase with
  | idle =>
    rw [sequencerTurn_idle hp] at h
    cases h
    exact hp
  | unpack =>
    rw [sequencerTurn_unpack hp] at h
    obtain ⟨-, rfl⟩ | ⟨-, rfl⟩ := unpackWith_next h
    · exact .inl rfl
    · exact .inr (callStopped_raise ..)
  | agree =>
    rw [sequencerTurn_agree hp] at h
    obtain ⟨_, -, ⟨-, rfl⟩ | ⟨_, _, -, -, ⟨-, rfl⟩ | ⟨_, -, rfl⟩⟩⟩ := agreeWith_next h
    · exact .inr (.inl (callStopped_raise ..))
    · exact .inr (.inr (callStopped_raise ..))
    · exact .inl rfl
  | derive =>
    rw [sequencerTurn_derive hp] at h
    obtain ⟨_, _, _, -, -, -, rfl⟩ := deriveWith_next h
    rfl
  | split =>
    rw [sequencerTurn_split hp] at h
    obtain ⟨_, _, _, -, -, -, -, rfl⟩ := execSplit_next h
    rfl
  | xordec =>
    rw [sequencerTurn_xordec hp] at h
    obtain ⟨_, _, -, -, -, rfl⟩ := xordecWith_next h
    rfl
  | macchk =>
    rw [sequencerTurn_macchk hp] at h
    obtain ⟨_, _, tag, tagc, -, -, -, -, -, rfl⟩ := macchkWith_next h
    cases hm : tagsMatch tagc tag with
    | true => exact .inl ⟨rfl, rfl⟩
    | false => exact .inr ⟨rfl, rfl⟩
  | discard =>
    rw [sequencerTurn_discard hp] at h
    cases h
    exact callStopped_raise ..
  | release =>
    rw [sequencerTurn_release hp] at h
    obtain ⟨_, _, -, -, -, -, rfl⟩ := releaseWith_next h
    exact ⟨rfl, rfl, rfl⟩

/-- Settles O40: the turn is the stage that PHASE selects, whether the agenda gave it or not. -/
theorem stagesRunInOrder : Obligations.StagesRunInOrder := by
  intro s t hag h
  have hafter : AfterStage t s.phase := by
    rw [step_eq_stepWith_chip, stepWith] at h
    obtain hnil | ⟨rest, hcons⟩ := hag
    · rw [takeTurn_nil hnil] at h
      exact sequencerTurn_afterStage h
    · rw [takeTurn_sequencer hcons] at h
      exact sequencerTurn_afterStage (s := s.setAgenda rest) h
  cases hp : s.phase <;> rw [hp] at hafter
  case idle | derive | split | xordec | macchk => exact hafter
  case unpack => exact hafter.imp_right fun hstop => ⟨hstop.phase, hstop.err⟩
  case agree =>
    obtain hnext | hstop | hstop := hafter
    · exact .inl hnext
    · exact .inr ⟨hstop.phase, .inl hstop.err⟩
    · exact .inr ⟨hstop.phase, .inr hstop.err⟩
  case discard | release => exact ⟨hafter.phase, hafter.err⟩

/-- A stage stops the call or brings it nearer to its end. -/
theorem AfterStage.stopped_or_nearer {q : Phase} (h : AfterStage t q) (hq : q ≠ .idle) :
    (t.phase = .idle ∧ t.done = true) ∨
      (t.phase ≠ .idle ∧ stagesLeft t.phase < stagesLeft q) := by
  cases q with
  | idle => exact absurd rfl hq
  | unpack =>
    obtain hnext | hstop := h
    · exact .inr (by simp [hnext, stagesLeft])
    · exact .inl ⟨hstop.phase, hstop.done⟩
  | agree =>
    obtain hnext | hstop | hstop := h
    · exact .inr (by simp [hnext, stagesLeft])
    · exact .inl ⟨hstop.phase, hstop.done⟩
    · exact .inl ⟨hstop.phase, hstop.done⟩
  | derive | split | xordec =>
    have hnext : t.phase = _ := h
    exact .inr (by simp [hnext, stagesLeft])
  | macchk =>
    obtain ⟨hnext, -⟩ | ⟨hnext, -⟩ := h
    · exact .inr (by simp [hnext, stagesLeft])
    · exact .inr (by simp [hnext, stagesLeft])
  | discard => exact .inl ⟨CallStopped.phase h, CallStopped.done h⟩
  | release => exact .inl ⟨CallStopped.phase h, CallStopped.done h⟩

/-- No stage but RELEASE stops a call without an error. -/
theorem AfterStage.release_of_stopped {q : Phase} (h : AfterStage t q) (hq : q ≠ .idle)
    (hstop : CallStopped t none) : q = .release := by
  cases q with
  | idle => exact absurd rfl hq
  | unpack =>
    obtain hnext | herr := h
    · cases hstop.phase.symm.trans hnext
    · cases hstop.err.symm.trans herr.err
  | agree =>
    obtain hnext | herr | herr := h
    · cases hstop.phase.symm.trans hnext
    · cases hstop.err.symm.trans herr.err
    · cases hstop.err.symm.trans herr.err
  | derive | split | xordec => cases hstop.phase.symm.trans h
  | macchk =>
    obtain ⟨hnext, -⟩ | ⟨hnext, -⟩ := h
    · cases hstop.phase.symm.trans hnext
    · cases hstop.phase.symm.trans hnext
  | discard => cases hstop.err.symm.trans (CallStopped.err h)
  | release => rfl

/-! ### DISCARD and RELEASE -/

/-- Settles O38: DISCARD is `raise`, which writes neither OUT nor the trace and closes the gate. -/
theorem discardRaisesMacMismatch : Obligations.DiscardRaisesMacMismatch :=
  ⟨rfl, fun _ => ⟨rfl, rfl, rfl, fun _ => execRdout_of_not_readable rfl⟩⟩

/-- RELEASE on a plaintext of CTLEN bytes that fits the OUT space (45 R199). -/
theorem releaseWith_of_operands {pt : Bytes} {n : Word32} (hpt : s.tr.pt = some pt)
    (hctlen : s.tr.ctlen = some n) (hlen : pt.length = n.toNat) (hout : n.toNat ≤ cfg.outSize) :
    releaseWith cfg s = .next (s.endCall n pt) := by
  simp only [releaseWith, hctlen, hpt, withReg_some, withOutRegion, if_pos hout, withLength,
    dif_pos hlen]

/-- The OUT storage after RELEASE: the plaintext, and beyond it what was there (45 R199). -/
theorem outByte_endCall (cfg : Config) (s : State) (n : Word32) (pt : Bytes) (a : Nat) :
    outByte cfg (s.endCall n pt) a = pt[a]?.getD (outByte cfg s a) := by
  by_cases ha : a < pt.length <;> simp [outByte, memoryFind_memoryPutAll, ha]

theorem release_outBytes {pt : Bytes} {n : Word32} (hlen : pt.length = n.toNat) :
    (∀ a < n.toNat, pt[a]? = some (outByte cfg (s.endCall n pt) a)) ∧
      ∀ a, n.toNat ≤ a → outByte cfg (s.endCall n pt) a = outByte cfg s a := by
  refine ⟨fun a ha => ?_, fun a ha => ?_⟩
  · rw [outByte_endCall, List.getElem?_eq_getElem (hlen ▸ ha), Option.getD_some]
  · rw [outByte_endCall, List.getElem?_eq_none (hlen ▸ ha), Option.getD_none]

/-- Settles O39: RELEASE is `endCall`, and the bytes of OUT are read back from what it stored. -/
theorem releaseWritesThePlaintext : Obligations.ReleaseWritesThePlaintext := by
  refine ⟨rfl, fun s pt n hpt hctlen hlen hout => ?_, fun cfg s pt n hpt hctlen hlen hout => ?_⟩
  · exact ⟨memoryPutAll s.outMem 0 pt, releaseWith_of_operands hpt hctlen hlen hout,
      release_outBytes (s := s) hlen⟩
  · exact ⟨memoryPutAll s.outMem 0 pt, releaseWith_of_operands hpt hctlen hlen hout,
      release_outBytes (s := s) hlen⟩

/-! ### What a good state releases -/

/-- The keys are the only two parts of the key material of their lengths (42 R153). -/
theorem keysSplit_unique {z : BytesN 32} {k2 : BytesN 16} {k1 : BytesN (envCtLen s)}
    (h : keysSplit cfg s z k2 k1) : k2 = envMacKey cfg s z ∧ k1 = envCipherKey cfg s z := by
  obtain ⟨hk2, hk1⟩ := List.append_inj (h.trans (keysSplit_envKeys cfg s z).symm)
    (k2.property.trans (envMacKey cfg s z).property.symm)
  exact ⟨Subtype.ext hk2, Subtype.ext hk1⟩

/-- In a good state RELEASE has MATCH = 1, and what it releases is the plaintext of `decrypt` (45
R200). -/
theorem releaseWith_of_good (h : Good cfg s) (hp : s.phase = .release) :
    s.tr.matched = some true ∧ ∃ (k : PrivKey) (pt : BytesN (envCtLen s)), s.sk = some k ∧
      decrypt cfg (envelope cfg s) k = .ok pt.val ∧
      releaseWith cfg s = .next (s.endCall (BitVec.ofNat 32 (envCtLen s)) pt.val) := by
  obtain ⟨p, z, k2, k1, ⟨hr, hparse, k, hsk, hecdh⟩, hkeys, htr, hmatched⟩ :
      ∃ p z k2 k1, agreedWith cfg s p z ∧ keysSplit cfg s z k2 k1 ∧
        s.tr = checked cfg s p z k2 k1 ∧ s.tr.matched = some true := by
    simpa only [DatapathOk, hp] using h.datapath
  obtain ⟨rfl, rfl⟩ := keysSplit_unique hkeys
  have hsecret : HasSecret cfg k s p z :=
    ⟨⟨hr, by rw [htr]; rfl, by rw [htr]; rfl, by rw [htr]; rfl⟩, hparse, hecdh, by rw [htr]; rfl⟩
  have htag : tagsMatch (computeTag cfg (envMacKey cfg s z).val (envCt cfg s).val)
      (envTag cfg s) = true := by
    rw [htr] at hmatched
    exact Option.some.inj hmatched
  refine ⟨hmatched, k, _, hsk, ?_, releaseWith_eq htr hr⟩
  rw [hsecret.decrypt_eq.1, if_pos htag]

/-- Nothing becomes readable from `s` to `t`: OUT is as it was, and the gate lets through no byte
that it did not. -/
structure NothingReleased (s t : State) : Prop where
  outMem : t.outMem = s.outMem
  gate : ∀ a, outReadable t a = true → outReadable s a = true

theorem ResultKept.nothingReleased (h : ResultKept s t) : NothingReleased s t :=
  ⟨h.outMem, fun a ha => (h.outReadable_eq a).symm.trans ha⟩

/-- A step after which the gate is closed releases nothing. -/
theorem nothingReleased_of_closed (hout : t.outMem = s.outMem)
    (hgate : ∀ a, outReadable t a = false) : NothingReleased s t :=
  ⟨hout, fun a ha => absurd ((hgate a).symm.trans ha) Bool.false_ne_true⟩

theorem outReadable_raise (s : State) (e : ErrKind) (a : Nat) :
    outReadable (s.raise e) a = false := by
  simp [outReadable]

/-- Of the turns of the sequencer only RELEASE can make a byte readable. -/
theorem sequencerTurn_nothingReleased (hp : s.phase ≠ .release)
    (h : sequencerTurn (execWith cfg) s = .next t) : NothingReleased s t := by
  by_cases hidle : s.phase = .idle
  · rw [sequencerTurn_idle hidle] at h
    cases h
    exact (ResultKept.refl s).nothingReleased
  · have hafter := sequencerTurn_afterStage h
    obtain rfl | ⟨_, _, _, rfl⟩ | ⟨_, _, rfl⟩ | ⟨_, _, rfl⟩ := sequencerTurn_cases h
    · exact (ResultKept.refl _).nothingReleased
    · exact ⟨rfl, fun _ => id⟩
    · exact nothingReleased_of_closed rfl (outReadable_raise _ _)
    · exact absurd (hafter.release_of_stopped hidle ⟨rfl, rfl, rfl⟩) hp

/-- What a step can do to OUT and its gate: reset, the sequencer's RELEASE, or release nothing. -/
theorem stepWith_output (h : stepWith cfg s = .next t) :
    (∃ rest, s.agenda = .reset :: rest ∧ t = (s.setAgenda rest).afterReset) ∨
      NothingReleased s t ∨
      ∃ rest, (s.agenda = [] ∨ s.agenda = .sequencer :: rest) ∧ s.phase = .release ∧
        releaseWith cfg (s.setAgenda rest) = .next t := by
  obtain ⟨rest, hag, hseq⟩ | ⟨a, rest, -, hhost⟩ | hreset := takeTurn_next h
  · by_cases hp : s.phase = .release
    · rw [sequencerTurn_release (s := s.setAgenda rest) hp] at hseq
      exact .inr (.inr ⟨rest, hag.imp_left And.left, hp, hseq⟩)
    · obtain ⟨hout, hgate⟩ := sequencerTurn_nothingReleased (s := s.setAgenda rest) hp hseq
      exact .inr (.inl ⟨hout, hgate⟩)
  · obtain hkept | ⟨_, -, -, rfl⟩ := hostTurn_cases hhost
    · exact .inr (.inl hkept.of_setAgenda.nothingReleased)
    · exact .inr (.inl (nothingReleased_of_closed rfl (outReadable_of_not_done rfl)))
  · exact .inl hreset

/-- Settles O53: of the three things a step can do to OUT, one leaves it; and RELEASE in a good
state stores the plaintext of `decrypt`. -/
theorem onlyVerifiedPlaintextIsReleased : Obligations.OnlyVerifiedPlaintextIsReleased := by
  intro cfg s t a hs h hchanged
  obtain ⟨rest, hag, -⟩ | hnothing | ⟨rest, -, hp, hrelease⟩ := stepWith_output h
  · exact .inl ⟨rest, hag⟩
  · exact absurd (congrArg (memoryFind · a) hnothing.outMem) hchanged
  · obtain ⟨hmatched, k, pt, hsk, hres, hend⟩ := releaseWith_of_good (hs.setAgenda rest) hp
    obtain rfl := Host.Outcome.next.inj (hend.symm.trans hrelease)
    have hlen : pt.val.length = (BitVec.ofNat 32 (envCtLen (s.setAgenda rest))).toNat :=
      pt.property.trans (envCtLen_toNat _).symm
    exact .inr ⟨hp, hmatched, k, pt.val, hsk, hres, callResult_endCall cfg _ hlen, rfl⟩

/-- In a good state only RELEASE with MATCH = 1 makes a byte of OUT readable (45 R200). -/
theorem stepWith_opensGate {a : Nat} (hs : Good cfg s) (h : stepWith cfg s = .next t)
    (hclosed : outReadable s a = false) (hopen : outReadable t a = true) :
    (s.agenda = [] ∨ ∃ rest, s.agenda = .sequencer :: rest) ∧ s.phase = .release ∧
      s.tr.matched = some true := by
  obtain ⟨rest, -, rfl⟩ | hnothing | ⟨rest, hag, hp, -⟩ := stepWith_output h
  · exact absurd hopen (by simp [outReadable])
  · exact absurd (hclosed.symm.trans (hnothing.gate a hopen)) Bool.false_ne_true
  · obtain ⟨hmatched, -⟩ := releaseWith_of_good hs hp
    exact ⟨hag.imp_right fun hcons => ⟨rest, hcons⟩, hp, hmatched⟩

/-- Settles O54: an error closes the gate and leaves PHASE at 0, where no step opens it. -/
theorem errorsExposeNothing : Obligations.ErrorsExposeNothing := by
  refine ⟨fun s hs herr => ?_, fun cfg s t a hs h => stepWith_opensGate hs h⟩
  obtain ⟨hd, houtlen⟩ := hs.invariants.err_done herr
  have hidle := hs.phase_idle (hs.not_busy_of_done hd)
  have hclosed (a : Nat) : outReadable s a = false := by simp [outReadable, herr]
  refine ⟨hs.invariants.idle_invalid hidle, houtlen,
    fun a => execRdout_of_not_readable (hclosed a), fun t a h => ?_⟩
  by_contra hopen
  obtain ⟨-, hp, -⟩ := stepWith_opensGate hs (step_eq_stepWith_chip s ▸ h) (hclosed a)
    (Bool.not_eq_false _ ▸ hopen)
  cases hidle.symm.trans hp

end Sys2Proof.Machine
end

section
/-! PROOFS. The whole call (45 R192, R202 to R205): from any state that is not BUSY an accepted
START begins the call on the envelope in the buffer, and the sequencer's turns end it with the
result and the requests of `decrypt`; and from a good state it ends whatever the host does in between. -/

namespace Sys2Proof.Machine

variable {cfg : Config} {k : PrivKey} {d : Word32} {s s' t : State}

/-! ### A call that no host turn interrupts -/

/-- The inputs of a call are stored in `t` as they were in `s`, and no turn has been placed. -/
structure InputsStored (s t : State) : Prop where
  inMem : t.inMem = s.inMem
  envlen : t.envlen = s.envlen
  sk : t.sk = s.sk
  keyv : t.keyv = s.keyv
  agenda : t.agenda = s.agenda

theorem sequencerTurn_inputsStored (h : sequencerTurn (execWith cfg) s = .next t) :
    InputsStored s t := by
  obtain rfl | ⟨_, _, _, rfl⟩ | ⟨_, _, rfl⟩ | ⟨_, _, rfl⟩ := sequencerTurn_cases h <;>
    exact ⟨rfl, rfl, rfl, rfl, rfl⟩

theorem InputsStored.trans {u : State} (h : InputsStored s t) (h' : InputsStored t u) :
    InputsStored s u :=
  ⟨h'.inMem.trans h.inMem, h'.envlen.trans h.envlen, h'.sk.trans h.sk, h'.keyv.trans h.keyv,
    h'.agenda.trans h.agenda⟩

/-- With nothing on the agenda a run is turns of the sequencer, which store no input. -/
theorem runWith_inputsStored {n : Nat} (hag : s.agenda = []) (h : runWith cfg n s = .next t) :
    InputsStored s t := by
  refine runWith_keeps (P := InputsStored s) (fun u v hu hv => ?_) ⟨rfl, rfl, rfl, rfl, rfl⟩ h
  rw [stepWith, takeTurn_nil (hu.agenda.trans hag)] at hv
  exact hu.trans (sequencerTurn_inputsStored hv)

/-- The accepted START begins the call on what is in the buffer. -/
theorem inCall_startCall_envelope (cfg : Config) (hsk : s.sk = some k) :
    InCall cfg (envelope cfg s) k s.startCall :=
  ⟨⟨hsk, rfl, rfl⟩, by simp, rfl⟩

/-- START and seven turns of the sequencer are a whole call (45 R204). -/
theorem runWith_start (cfg : Config) (hb : s.busy = false) (hkeyv : s.keyv = true)
    (hsk : s.sk = some k) (hd : d.getLsbD 0 = true) :
    ∃ t, runWith cfg 8 (s.setAgenda [turnOf (.start d)]) = .next t ∧
      InCall cfg (envelope cfg s) k t ∧ t.phase = .idle ∧ InputsStored (s.setAgenda []) t := by
  have hacc : startAccepted d (s.setAgenda []) = true := (startAccepted_iff _ _).mpr ⟨hd, hb, hkeyv⟩
  have hstart : stepWith cfg (s.setAgenda [turnOf (.start d)]) =
      .next (s.setAgenda []).startCall :=
    (stepWith_hostOp rfl rfl s []).trans (execStart_of_accepted hacc)
  obtain ⟨t, ht, hcall, hidle⟩ := runWith_inCall_ends
    (inCall_startCall_envelope cfg (s := s.setAgenda []) hsk) rfl (n := 7) le_rfl
  obtain ⟨hin, hlen, hkey, hkv, hag⟩ := runWith_inputsStored rfl ht
  exact ⟨t, (runWith_succ hstart).trans ht, hcall, hidle, hin, hlen, hkey, hkv, hag⟩

/-- The result of a call on `b` that has ended. -/
theorem InCall.callResult_eq {b : Bytes} (h : InCall cfg b k t) (hidle : t.phase = .idle) :
    callResult cfg t = some (decrypt cfg b k) :=
  (h.ended hidle).result.trans (congrArg some h.decrypts)

theorem InCall.trace_eq {b : Bytes} (h : InCall cfg b k t) (hidle : t.phase = .idle) :
    t.trace = callRequests cfg b k :=
  (h.ended hidle).requests.trans h.asks

/-- Settles O46: the stages end the call that START began, with the result of `decrypt`. -/
theorem callRefinesDecrypt : Obligations.CallRefinesDecrypt := by
  intro s k d hb hkeyv hsk hd
  obtain ⟨t, ht, hcall, hidle, hstored⟩ := runWith_start Config.chip hb hkeyv hsk hd
  have hend := hcall.ended hidle
  exact ⟨t, (core_run_eq_runWith_chip ..).trans ht, hcall.callResult_eq hidle, hend.err_outlen,
    hidle, hend.not_busy, hend.invalid, hstored.agenda, hstored.inMem, hstored.envlen, hstored.sk,
    hstored.keyv⟩

/-- The envelope is read off ENVLEN and the bytes below it. -/
theorem envelope_congr (hlen : s'.envlen = s.envlen)
    (hin : ∀ a < s.envlen.toNat, inByte cfg s' a = inByte cfg s a) :
    envelope cfg s' = envelope cfg s := by
  rw [envelope, envelope, envLength, envLength, hlen]
  refine List.map_congr_left fun a ha => ?_
  rw [Nat.zero_add]
  exact hin a (List.mem_range.mp ha)

/-- Settles O51: both calls end with the result and the requests of `decrypt` on one envelope. -/
theorem callsAreIndependent : Obligations.CallsAreIndependent := by
  intro s s' k d hb hb' hkeyv hkeyv' hsk hsk' hd hlen hin
  obtain ⟨t, ht, hcall, hidle, -⟩ := runWith_start Config.chip hb hkeyv hsk hd
  obtain ⟨t', ht', hcall', hidle', -⟩ := runWith_start Config.chip hb' hkeyv' hsk' hd
  rw [envelope_congr hlen hin] at hcall'
  exact ⟨t, t', (core_run_eq_runWith_chip ..).trans ht, (core_run_eq_runWith_chip ..).trans ht',
    (hcall'.callResult_eq hidle').trans (hcall.callResult_eq hidle).symm,
    (hcall'.trace_eq hidle').trans (hcall.trace_eq hidle).symm⟩

/-! ### The requests, by outcome -/

/-- ERR of a finished call, by its result (30 R98). -/
def errOf : Except ErrKind Bytes → Option ErrKind
  | .error e => some e
  | .ok _ => none

theorem err_of_callResult {r : Except ErrKind Bytes} (h : callResult cfg t = some r) :
    t.err = errOf r := by
  unfold callResult at h
  split at h
  · cases herr : t.err with
    | none => rw [herr] at h; cases h; rfl
    | some e => rw [herr] at h; cases h; rfl
  · cases h

/-- ERR and the requests of a call on the envelope in the buffer, by outcome (45 R203). -/
inductive CallOutcome (cfg : Config) (k : PrivKey) (s : State) :
    Option ErrKind → List Request → Prop where
  | badLength : CallOutcome cfg k s (some .invalidEnvelope) []
  | badPoint (hparse : requestParse cfg (envEpk cfg s).val = none) :
      CallOutcome cfg k s (some .invalidPublicKey) [.ecParse (envEpk cfg s).val]
  | noSecret {p : Point} (hparse : requestParse cfg (envEpk cfg s).val = some p)
      (hecdh : requestEcdh cfg k p = none) :
      CallOutcome cfg k s (some .keyAgreementFailure) [.ecParse (envEpk cfg s).val, .ecEcdh k p]
  | opened {p : Point} {z : BytesN 32} {e : Option ErrKind}
      (hparse : requestParse cfg (envEpk cfg s).val = some p)
      (hecdh : requestEcdh cfg k p = some z) (herr : e = some .macMismatch ∨ e = none) :
      CallOutcome cfg k s e ([.ecParse (envEpk cfg s).val, .ecEcdh k p] ++
        hashRequests (envEpk cfg s).val z.val (envCt cfg s).val ++
        [.hmac (macKey cfg (envEpk cfg s).val z.val (envCt cfg s).val)
          (macMessage (envCt cfg s).val)])

/-- Once the secret is agreed only the tag can be wrong. -/
theorem errOf_openEnvelope (cfg : Config) (epk z ct tag : Bytes) :
    errOf (openEnvelope cfg epk z ct tag) = some .macMismatch ∨
      errOf (openEnvelope cfg epk z ct tag) = none := by
  unfold openEnvelope
  split
  · exact .inr rfl
  · exact .inl rfl

/-- The outcome follows from the length and then from the delegates' two answers. -/
theorem callOutcome_decrypt (cfg : Config) (k : PrivKey) (s : State) :
    CallOutcome cfg k s (errOf (decrypt cfg (envelope cfg s) k))
      (callRequests cfg (envelope cfg s) k) := by
  cases hr : regionsExist cfg (envLength s) with
  | false =>
    obtain ⟨hres, hreq⟩ := decrypt_of_not_regionsExist (b := envelope cfg s) k
      (by rw [envelope_length]; exact hr)
    rw [hres, hreq]
    exact .badLength
  | true =>
    obtain ⟨hres, hreq⟩ := decrypt_envelope k hr
    rw [hres, hreq]
    cases hparse : requestParse cfg (envEpk cfg s).val with
    | none =>
      obtain ⟨hres, hreq⟩ := decryptRegions_of_parse_none hparse
      rw [hres, hreq]
      exact .badPoint hparse
    | some p =>
      cases hecdh : requestEcdh cfg k p with
      | none =>
        obtain ⟨hres, hreq⟩ := decryptRegions_of_ecdh_none hparse hecdh
        rw [hres, hreq]
        exact .noSecret hparse hecdh
      | some z =>
        obtain ⟨hres, hreq⟩ := decryptRegions_of_secret hparse hecdh
        rw [hres, hreq]
        exact .opened hparse hecdh (errOf_openEnvelope ..)

/-- Settles O47: ERR and the trace are those of `decrypt` and its requests, and each outcome has one
list of requests. -/
theorem callMakesTheseRequests : Obligations.CallMakesTheseRequests := by
  intro cfg s k d hb hkeyv hsk hd
  obtain ⟨t, ht, hcall, hidle, -⟩ := runWith_start cfg hb hkeyv hsk hd
  have htrace := hcall.trace_eq hidle
  have houtcome : CallOutcome cfg k s t.err t.trace := by
    rw [err_of_callResult (hcall.callResult_eq hidle), htrace]
    exact callOutcome_decrypt cfg k s
  refine ⟨t, ht, hcall.done_iff.mpr hidle, htrace, ?_⟩
  generalize t.err = e, t.trace = rs at houtcome ⊢
  cases houtcome with
  | badLength => simp
  | badPoint hparse => simp
  | noSecret hparse hecdh => simp [hparse]
  | opened hparse hecdh herr =>
    obtain rfl | rfl := herr
    all_goals
      refine ⟨nofun, nofun, nofun, fun _ => ⟨_, _, hparse, hecdh, ?_⟩⟩
      rw [macKey_eq_kdf, hashRequests, (envCt cfg s).property]
      rfl

/-! ### Every call ends -/

/-- The turns that a call may still need: those on the agenda, then its stages. -/
def turnsLeft (s : State) : Nat := s.agenda.length + stagesLeft s.phase

theorem stagesLeft_le (q : Phase) : stagesLeft q ≤ 7 := by cases q <;> decide

/-- Only turns that the spec gives a behaviour are to come, and no reset. -/
def NoResetToCome (s : State) : Prop := ∀ u ∈ s.agenda, turnDefined u = true ∧ turnNotReset u = true

/-- The call has ended, or goes on with fewer turns left. -/
def EndsOrNearer (s t : State) : Prop :=
  (t.phase = .idle ∧ t.done = true) ∨ (t.phase ≠ .idle ∧ turnsLeft t < turnsLeft s)

/-- A turn of the sequencer brings the call nearer to its end. -/
theorem sequencerTurn_endsOrNearer (hp : s.phase ≠ .idle)
    (h : sequencerTurn (execWith cfg) s = .next t) : EndsOrNearer s t := by
  obtain hstop | ⟨hgoes, hlt⟩ := (sequencerTurn_afterStage h).stopped_or_nearer hp
  · exact .inl hstop
  · refine .inr ⟨hgoes, ?_⟩
    rw [turnsLeft, turnsLeft, sequencerTurn_agenda h]
    exact Nat.add_lt_add_left hlt _

/-- Every turn of a call uses up a turn of the agenda or a stage (45 R192). -/
theorem stepWith_endsOrNearer (hs : Good cfg s) (hp : s.phase ≠ .idle) (hag : NoResetToCome s) :
    ∃ t, stepWith cfg s = .next t ∧ Good cfg t ∧ NoResetToCome t ∧ EndsOrNearer s t := by
  have hbusy := hs.invariants.busy_iff.mpr hp
  unfold NoResetToCome at hag
  cases hcase : s.agenda with
  | nil =>
    obtain ⟨t, ht, hgood⟩ := sequencerTurn_endsGood hs
    have htag : t.agenda = [] := (sequencerTurn_agenda ht).trans hcase
    exact ⟨t, (takeTurn_nil hcase).trans ht, hgood, by simp [NoResetToCome, htag],
      sequencerTurn_endsOrNearer hp ht⟩
  | cons u rest =>
    rw [hcase] at hag
    obtain ⟨⟨hdef, hnot⟩, hrest⟩ := List.forall_mem_cons.mp hag
    have hfewer : turnsLeft (s.setAgenda rest) < turnsLeft s := by simp [turnsLeft, hcase]
    cases u with
    | host a =>
      obtain ⟨v, hv⟩ := hostTurn_of_busy (cfg := cfg) (s := s.setAgenda rest) hdef hbusy
      exact ⟨_, (takeTurn_host hcase).trans hv, (hs.setAgenda rest).setAnswer v, hrest,
        .inr ⟨hp, hfewer⟩⟩
    | sequencer =>
      obtain ⟨t, ht, hgood⟩ := sequencerTurn_endsGood (hs.setAgenda rest)
      have htag : t.agenda = rest := sequencerTurn_agenda ht
      refine ⟨t, (takeTurn_sequencer hcase).trans ht, hgood,
        fun u hu => hrest u (htag ▸ hu), ?_⟩
      exact (sequencerTurn_endsOrNearer (s := s.setAgenda rest) hp ht).imp_right
        fun hgoes => ⟨hgoes.1, hgoes.2.trans hfewer⟩
    | reset => cases hnot

theorem runWith_ends {m : Nat} (hs : Good cfg s) (hp : s.phase ≠ .idle) (hag : NoResetToCome s)
    (hm : turnsLeft s ≤ m) :
    ∃ n t, n ≤ m ∧ runWith cfg n s = .next t ∧ t.done = true ∧ t.phase = .idle := by
  induction m generalizing s with
  | zero =>
    have hpos := stagesLeft_pos hp
    unfold turnsLeft at hm
    omega
  | succ m ih =>
    obtain ⟨u, hu, hgood, hag', ⟨hidle, hdone⟩ | ⟨hgoes, hlt⟩⟩ := stepWith_endsOrNearer hs hp hag
    · exact ⟨1, u, by omega, runWith_succ hu, hdone, hidle⟩
    · obtain ⟨n, t, hn, ht, hend⟩ := ih hgood hgoes hag' (by omega)
      exact ⟨n + 1, t, by omega, (runWith_succ hu).trans ht, hend⟩

/-- Settles O48: induction on the turns left, of which the stages are at most seven. -/
theorem everyCallEnds : Obligations.EveryCallEnds := by
  intro s hs hb hag
  obtain ⟨n, t, hn, ht, hend⟩ :=
    runWith_ends hs (hs.invariants.busy_iff.mp hb) hag (m := s.agenda.length + 7)
      (Nat.add_le_add_left (stagesLeft_le _) _)
  exact ⟨n, t, hn, (core_run_eq_runWith_chip ..).trans ht, hend⟩

/-! ### OUTLEN after a call -/

/-- OUTLEN of a call that ended without an error is the length of its plaintext (45 R197). -/
theorem outlen_of_callResult {m : Bytes} (h : callResult cfg t = some (.ok m)) :
    t.outlen.toNat = m.length := by
  have hreleased : releasedBytes cfg t = m := by
    unfold callResult at h
    split at h
    · split at h <;> cases h
      rfl
    · cases h
  rw [← hreleased, releasedBytes_length]

/-- A call that ended without an error was on an envelope of at least 97 bytes, and OUTLEN is its
ciphertext length. -/
theorem InCall.outlen_eq (h : InCall cfg (envelope cfg s) k t) (hidle : t.phase = .idle)
    (herr : t.err = none) : 97 ≤ s.envlen.toNat ∧ t.outlen = s.envlen - 97 := by
  have hresult := h.callResult_eq hidle
  cases hres : decrypt cfg (envelope cfg s) k with
  | error e =>
    rw [hres] at hresult
    cases herr.symm.trans (err_of_callResult hresult)
  | ok m =>
    obtain ⟨hmin, -⟩ := (regionsExist_iff ..).mp (regionsExist_of_decrypt_ok hres)
    have hlen := outlen_of_callResult (hresult.trans (congrArg some hres))
    rw [decrypt_ok_length hres] at hlen
    rw [envelope_length, envLength] at hmin hlen
    exact ⟨hmin, by bv_omega⟩

/-- Settles O15: ENVLEN is written by an accepted WRLEN and reset alone, and OUTLEN is the length of
the plaintext of the call that has ended. -/
theorem lengthReads : Obligations.LengthReads := by
  refine ⟨fun _ => decode_of_hostWord .rdlen, fun _ => decode_of_hostWord .rdoutlen, fun _ => rfl,
    fun _ => rfl, fun v s t hb h => ?_, rfl,
    fun s t h => ⟨fun rest hag => ?_, fun hreset hlen => ?_⟩, rfl, fun s hs hzero => ?_,
    fun s k d hb hkeyv hsk hd => ?_⟩
  · cases (execWith_store (cfg := Config.chip) (.wrlen v) hb).symm.trans h
    rfl
  · cases (takeTurn_reset hag).symm.trans h
    exact ⟨rfl, rfl⟩
  · exact stepWith_envlen (step_eq_stepWith_chip s ▸ h) hreset hlen
  · rw [← hs.outlen_eq_zero hzero]; rfl
  · obtain ⟨t, ht, hcall, hidle, -⟩ := runWith_start Config.chip hb hkeyv hsk hd
    refine ⟨t, (core_run_eq_runWith_chip ..).trans ht, fun herr => ?_⟩
    obtain ⟨hmin, houtlen⟩ := hcall.outlen_eq hidle herr
    rw [← houtlen]
    exact ⟨hmin, rfl, fun v =>
      ⟨_, execWith_store (cfg := Config.chip) (.wrlen v) (hcall.ended hidle).not_busy, rfl, rfl⟩⟩

end Sys2Proof.Machine
end

section
/-! PROOFS. The errors (file 60): taking one is `raise` and nothing else (R226), and of the stages only
UNPACK, AGREE and DISCARD take one, each its own kinds (R220, R221). -/

namespace Sys2Proof.Machine

variable {cfg : Config} {s t : State}

/-- Settles O22: `raise` writes these fields and no other, and the codes are the table of R221. -/
theorem raiseIsOneAtomicStep : Obligations.RaiseIsOneAtomicStep :=
  ⟨fun _ _ => rfl, rfl, rfl, rfl, rfl⟩

/-- Who raises which kind: the table of 60 R221. -/
inductive RaisedBy : Instr → ErrKind → Prop where
  | unpack : RaisedBy .unpack .invalidEnvelope
  | agreeParse : RaisedBy .agree .invalidPublicKey
  | agreeEcdh : RaisedBy .agree .keyAgreementFailure
  | discard : RaisedBy .discard .macMismatch

/-- MACCHK never ends a call, whatever it finds. -/
theorem phaseAfterCheck_ne_idle (m : Bool) : phaseAfterCheck m ≠ .idle := by
  cases m <;> decide

/-- A stage that ends the call is RELEASE, or takes an error of its own after its requests; every other
stage goes on to a PHASE that is not 0. -/
theorem execWith_stage_stops {i : Instr} (hi : i.format = .stage)
    (h : execWith cfg i s = .next t) (hidle : t.phase = .idle) :
    (∃ rs k, RaisedBy i k ∧ t = (s.request rs).raise k) ∨
      (i = .release ∧ ∃ n pt, t = s.endCall n pt) := by
  cases i with
  | unpack =>
    obtain ⟨-, rfl⟩ | ⟨-, rfl⟩ := unpackWith_next h
    · cases hidle
    · exact .inl ⟨[], _, .unpack, by rw [State.request_nil]⟩
  | agree =>
    obtain ⟨_, -, ⟨-, rfl⟩ | ⟨_, _, -, -, ⟨-, rfl⟩ | ⟨_, -, rfl⟩⟩⟩ := agreeWith_next h
    · exact .inl ⟨_, _, .agreeParse, rfl⟩
    · exact .inl ⟨_, _, .agreeEcdh, rfl⟩
    · cases hidle
  | derive =>
    obtain ⟨_, _, _, -, -, -, rfl⟩ := deriveWith_next h
    cases hidle
  | split =>
    obtain ⟨_, _, _, -, -, -, -, rfl⟩ := execSplit_next h
    cases hidle
  | xordec =>
    obtain ⟨_, _, -, -, -, rfl⟩ := xordecWith_next h
    cases hidle
  | macchk =>
    obtain ⟨_, _, _, _, -, -, -, -, -, rfl⟩ := macchkWith_next h
    exact absurd hidle (phaseAfterCheck_ne_idle _)
  | discard =>
    cases h
    exact .inl ⟨[], _, .discard, by rw [State.request_nil]⟩
  | release =>
    obtain ⟨n, pt, -, -, -, -, rfl⟩ := releaseWith_next h
    exact .inr ⟨rfl, n, pt, rfl⟩
  | start | rdstatus | wrlen | rdlen | rdoutlen | wrkey | wrenv | rdout => cases hi

/-- Requests made before an error show in the trace alone (60 R227). -/
theorem raise_request (s : State) (rs : List Request) (k : ErrKind) :
    (s.request rs).raise k = { s.raise k with trace := s.trace ++ rs } := rfl

/-- Settles O23: an end of the call that records an error is not RELEASE's, so it is a `raise` by a
stage of R221's table. -/
theorem errorsArePreciseAndHaveTheirStage : Obligations.ErrorsArePreciseAndHaveTheirStage := by
  intro i s t k hi h hidle herr
  rw [exec_eq_execWith_chip] at h
  obtain ⟨rs, e, hraised, rfl⟩ | ⟨-, _, _, rfl⟩ := execWith_stage_stops hi h hidle
  · obtain rfl : e = k := Option.some.inj herr
    refine ⟨raise_request s rs e, ?_⟩
    cases hraised with
    | unpack => exact .inl ⟨rfl, rfl⟩
    | agreeParse => exact .inr (.inl ⟨rfl, .inl rfl⟩)
    | agreeEcdh => exact .inr (.inl ⟨rfl, .inr rfl⟩)
    | discard => exact .inr (.inr ⟨rfl, rfl⟩)
  · cases herr

end Sys2Proof.Machine
end

section
/-! PROOFS. Reset and hazards (file 70): the sequencer waits at PHASE 0 (R263), and the reset input fires
in any state (R261, R262). -/

namespace Sys2Proof.Machine

/-- Settles O7: with an empty agenda the turn is the sequencer's, and with a turn spent on it the PHASE
it looks at is the same; either way it waits. -/
theorem idleSequencerWaits : Obligations.IdleSequencerWaits := by
  refine fun s hidle => ⟨fun hag => ?_, fun rest hag => ?_⟩
  · rw [step, takeTurn_nil hag, sequencerTurn_idle hidle]
  · rw [step, takeTurn_sequencer hag, sequencerTurn_idle (s := s.setAgenda rest) hidle]
    rfl

/-- Settles O9: the step is `afterReset`, whose memories are empty and whose gate is closed, so IN reads
as the next reset's draws and OUT as 0. -/
theorem resetFiresInAnyState : Obligations.ResetFiresInAnyState := fun s rest hag =>
  ⟨(s.setAgenda rest).afterReset, takeTurn_reset hag, rfl, rfl, rfl, rfl, rfl, rfl, rfl, rfl, rfl, rfl,
    fun a => inByte_of_inMem_nil rfl a, fun _ => execRdout_of_not_readable rfl⟩

end Sys2Proof.Machine
end
